-- ==== Sys2Proof/Word.lean ====
section
/-! DEFINITION. The two machine words: every register and every literal or address field is 16 bits
(spec/10_state.md R21, spec/00_scope.md R7), and memory is made of bytes (spec/20_memory.md R50).
All values are unsigned (spec/00_scope.md R8). -/

namespace Sys2Proof

/-- A 16-bit value: a register, a literal, an address (R7, R21). -/
abbrev Word := BitVec 16

/-- An 8-bit value: an opcode byte, a register byte, a byte of memory (R7). -/
abbrev Byte := BitVec 8

end Sys2Proof
end

