-- ==== Sys2Proof/Syntax.lean ====
section
/-! DEFINITION. The instruction set as syntax: the fourteen registers (spec/10_state.md R20), the ten operand
formats (spec/30_encoding.md R91), the 47 instruction descriptors (R90, R100) and `Instr`, one constructor per row of
spec/opcode_table.json with its operands. -/

namespace Sys2Proof

/-- The register file's fourteen names, in the order that numbers them 0 to 13 (spec/10_state.md R20). -/
inductive Reg where
  | ip | acc | r1 | r2 | r3 | r4 | r5 | r6 | r7 | r8 | sp | fp | mb | im
  deriving DecidableEq, Repr

/-- The ten operand-format tags (spec/30_encoding.md R91). -/
inductive Format where
  | litReg | regReg | regMem | memReg | litMem | regPtrReg | litOffReg | singleReg | singleLit | noArgs
  deriving DecidableEq, Repr

/-- One Instruction Descriptor per row of the opcode map, without its opcode value and its format
(spec/30_encoding.md R90, R100): those are in Decode. -/
inductive Op where
  | movLitReg | movRegReg | movRegMem | movMemReg | movLitMem | movRegPtrReg | movLitOffReg | addRegReg
  | addLitReg | subRegReg | subLitReg | mulRegReg | mulLitReg | incReg | decReg | lsfRegReg
  | lsfLitReg | rsfRegReg | rsfLitReg | andRegReg | andLitReg | orRegReg | orLitReg | xorRegReg
  | xorLitReg | notReg | jeqReg | jeqLit | jneReg | jneLit | jltReg | jltLit
  | jgtReg | jgtLit | jleReg | jleLit | jgeReg | jgeLit | pshLit | pshReg
  | popReg | calLit | calReg | ret | hlt | intLit | rti
  deriving DecidableEq, Repr

/-- The 47 instructions with their operands. `L` is a literal, `A` an absolute address, `R`, `Ra`, `Rb` registers; the
fields stand in encoding order (spec/30_encoding.md R91, R97, R115). -/
inductive Instr where
  /-- `mov $L, R` (R130). -/
  | movLitReg (L : Word) (R : Reg)
  /-- `mov Ra, Rb` (R131). -/
  | movRegReg (Ra Rb : Reg)
  /-- `mov R, &A` (R132). -/
  | movRegMem (R : Reg) (A : Word)
  /-- `mov &A, R` (R133). -/
  | movMemReg (A : Word) (R : Reg)
  /-- `mov $L, &A` (R134). -/
  | movLitMem (L A : Word)
  /-- `mov &Ra, Rb` (R135). -/
  | movRegPtrReg (Ra Rb : Reg)
  /-- `mov $L, &Ra, Rb` (R136). -/
  | movLitOffReg (L : Word) (Ra Rb : Reg)
  /-- `add Ra, Rb` (R140). -/
  | addRegReg (Ra Rb : Reg)
  /-- `add $L, R` (R141). -/
  | addLitReg (L : Word) (R : Reg)
  /-- `sub Ra, Rb` (R142). -/
  | subRegReg (Ra Rb : Reg)
  /-- `sub $L, R` (R143). -/
  | subLitReg (L : Word) (R : Reg)
  /-- `mul Ra, Rb` (R144). -/
  | mulRegReg (Ra Rb : Reg)
  /-- `mul $L, R` (R145). -/
  | mulLitReg (L : Word) (R : Reg)
  /-- `inc R` (R146). -/
  | incReg (R : Reg)
  /-- `dec R` (R147). -/
  | decReg (R : Reg)
  /-- `lsf Ra, Rb` (R161). -/
  | lsfRegReg (Ra Rb : Reg)
  /-- `lsf $L, R` (R162). -/
  | lsfLitReg (L : Word) (R : Reg)
  /-- `rsf Ra, Rb` (R163). -/
  | rsfRegReg (Ra Rb : Reg)
  /-- `rsf $L, R` (R164). -/
  | rsfLitReg (L : Word) (R : Reg)
  /-- `and Ra, Rb` (R165). -/
  | andRegReg (Ra Rb : Reg)
  /-- `and $L, R` (R166). -/
  | andLitReg (L : Word) (R : Reg)
  /-- `or Ra, Rb` (R167). -/
  | orRegReg (Ra Rb : Reg)
  /-- `or $L, R` (R168). -/
  | orLitReg (L : Word) (R : Reg)
  /-- `xor Ra, Rb` (R169). -/
  | xorRegReg (Ra Rb : Reg)
  /-- `xor $L, R` (R170). -/
  | xorLitReg (L : Word) (R : Reg)
  /-- `not R` (R171). -/
  | notReg (R : Reg)
  /-- `jeq R, &A` (R181). -/
  | jeqReg (R : Reg) (A : Word)
  /-- `jeq $L, &A` (R182). -/
  | jeqLit (L A : Word)
  /-- `jne R, &A` (R183). -/
  | jneReg (R : Reg) (A : Word)
  /-- `jne $L, &A` (R184). -/
  | jneLit (L A : Word)
  /-- `jlt R, &A` (R185). -/
  | jltReg (R : Reg) (A : Word)
  /-- `jlt $L, &A` (R186). -/
  | jltLit (L A : Word)
  /-- `jgt R, &A` (R187). -/
  | jgtReg (R : Reg) (A : Word)
  /-- `jgt $L, &A` (R188). -/
  | jgtLit (L A : Word)
  /-- `jle R, &A` (R189). -/
  | jleReg (R : Reg) (A : Word)
  /-- `jle $L, &A` (R190). -/
  | jleLit (L A : Word)
  /-- `jge R, &A` (R191). -/
  | jgeReg (R : Reg) (A : Word)
  /-- `jge $L, &A` (R192). -/
  | jgeLit (L A : Word)
  /-- `psh $L` (R204). -/
  | pshLit (L : Word)
  /-- `psh R` (R205). -/
  | pshReg (R : Reg)
  /-- `pop R` (R206). -/
  | popReg (R : Reg)
  /-- `cal $L` (R207). -/
  | calLit (L : Word)
  /-- `cal R` (R208). -/
  | calReg (R : Reg)
  /-- `ret` (R209). -/
  | ret
  /-- `hlt` (R230). -/
  | hlt
  /-- `int $L` (R231). -/
  | intLit (L : Word)
  /-- `rti` (R232). -/
  | rti
  deriving DecidableEq, Repr

/-- The descriptor an instruction belongs to. -/
def Instr.op : Instr → Op
  | .movLitReg _ _ => .movLitReg
  | .movRegReg _ _ => .movRegReg
  | .movRegMem _ _ => .movRegMem
  | .movMemReg _ _ => .movMemReg
  | .movLitMem _ _ => .movLitMem
  | .movRegPtrReg _ _ => .movRegPtrReg
  | .movLitOffReg _ _ _ => .movLitOffReg
  | .addRegReg _ _ => .addRegReg
  | .addLitReg _ _ => .addLitReg
  | .subRegReg _ _ => .subRegReg
  | .subLitReg _ _ => .subLitReg
  | .mulRegReg _ _ => .mulRegReg
  | .mulLitReg _ _ => .mulLitReg
  | .incReg _ => .incReg
  | .decReg _ => .decReg
  | .lsfRegReg _ _ => .lsfRegReg
  | .lsfLitReg _ _ => .lsfLitReg
  | .rsfRegReg _ _ => .rsfRegReg
  | .rsfLitReg _ _ => .rsfLitReg
  | .andRegReg _ _ => .andRegReg
  | .andLitReg _ _ => .andLitReg
  | .orRegReg _ _ => .orRegReg
  | .orLitReg _ _ => .orLitReg
  | .xorRegReg _ _ => .xorRegReg
  | .xorLitReg _ _ => .xorLitReg
  | .notReg _ => .notReg
  | .jeqReg _ _ => .jeqReg
  | .jeqLit _ _ => .jeqLit
  | .jneReg _ _ => .jneReg
  | .jneLit _ _ => .jneLit
  | .jltReg _ _ => .jltReg
  | .jltLit _ _ => .jltLit
  | .jgtReg _ _ => .jgtReg
  | .jgtLit _ _ => .jgtLit
  | .jleReg _ _ => .jleReg
  | .jleLit _ _ => .jleLit
  | .jgeReg _ _ => .jgeReg
  | .jgeLit _ _ => .jgeLit
  | .pshLit _ => .pshLit
  | .pshReg _ => .pshReg
  | .popReg _ => .popReg
  | .calLit _ => .calLit
  | .calReg _ => .calReg
  | .ret => .ret
  | .hlt => .hlt
  | .intLit _ => .intLit
  | .rti => .rti

/-- An opcode map: rows of opcode byte and descriptor. It is the spec's parameter `OPCODES`
(spec/00_scope.md R7, spec/30_encoding.md R100); the default rows are `defaultOpcodes` in Decode. -/
abbrev Opcodes := List (Byte × Op)

end Sys2Proof
end

