-- ==== Sys2Proof/Config.lean ====
section
/-! DEFINITION. What an implementation fixes: the memory devices, the region list and the other parameters of
spec/00_scope.md R7 as plain data (`Params`), and the free values, which the spec leaves to a peripheral
(spec/20_memory.md R66): opaque constants, of which nothing can be proved. The default values of the parameters are in
Machine/Defaults. -/

namespace Sys2Proof

/-- The width of one access: 1 or 2 bytes (spec/20_memory.md R56, R63). -/
inductive Width where
  | byte | word
  deriving DecidableEq, Repr

/-- The direction of one access, as a memory fault records it (spec/20_memory.md R56). -/
inductive Dir where
  | read | write
  deriving DecidableEq, Repr

/-- The bytes of one storage, keyed by local address; an unlisted key reads as `unlistedByte`. The canonical form
(keys strictly rising, no entry equal to the unlisted value) is `memWf` in WellFormed. -/
abbrev Memory := List Host.Cell

/-- What an unlisted byte of a RAM or banked-RAM device holds: the default of INIT_MEM (spec/70_reset_and_hazards.md
R281, R280; spec/92_eei_decisions.md D31). Log entry 5. -/
def unlistedByte : Byte := 0x00

/-- One recorded `set8` or `set16` on a peripheral, with its local address (spec/20_memory.md R66). -/
structure PeripheralEvent where
  width : Width
  addr  : Word
  value : Word
  deriving DecidableEq, Repr

/-- A memory device with its state (spec/20_memory.md R52).
* `ram size bytes`: plain RAM of N = `size` bytes (R59).
* `banked size banks`: BANK_COUNT = the number of banks, each of BANK_SIZE = `size` bytes (R64, R65).
* `peripheral events`: any other device; its recorded writes, oldest first (R66). -/
inductive Device where
  | ram (size : Nat) (bytes : Memory)
  | banked (size : Nat) (banks : List Memory)
  | peripheral (events : List PeripheralEvent)
  deriving DecidableEq, Repr

/-- One region of the memory mapper: `device` is the index of its device in the platform's device list, `start` and
`stop` (the spec's `end`) are both inside it (spec/20_memory.md R53, R54). -/
structure Region where
  device : Nat
  start  : Word
  stop   : Word
  remap  : Bool
  deriving DecidableEq, Repr

/-- The parameters of the hardware (spec/00_scope.md R7). No instruction reads or changes the list of regions or any
other parameter during a run (spec/20_memory.md R53, spec/10_state.md R37). Log entry 1.
* `opcodes`: OPCODES.
* `regions`, `devices`: PLATFORM, the regions most recently mapped first, and the devices with their content at reset
  (INIT_MEM).
* `vectorBase`: VECTOR_BASE. `stackTop`: STACK_TOP. `imReset`: IM_RESET. -/
structure Params where
  opcodes    : Opcodes
  regions    : List Region
  devices    : List Device
  vectorBase : Word
  stackTop   : Word
  imReset    : Word
  deriving DecidableEq, Repr

/-- FREE VALUE: what a peripheral answers to the n-th peripheral access of the run, if it is a read
(spec/20_memory.md R66: "a free input under no law"). Log entry 6. -/
opaque Config.peripheralAnswer : Nat → Word

/-- FREE VALUE: whether a peripheral refuses the n-th peripheral access of the run (spec/20_memory.md R66: "either may
fault"). Log entry 6. -/
opaque Config.peripheralRefuses : Nat → Bool

end Sys2Proof
end

