-- ==== Sys2Proof/WellFormed.lean ====
section
/-! DEFINITION. What makes the data of the model well formed: a register byte (spec/30_encoding.md R96), an opcode map
(R90), an instruction under an opcode map, a memory in canonical form, a device (spec/20_memory.md R64) and a set of
parameters. Each check is a Bool. -/

namespace Sys2Proof

/-- A register byte names a register exactly when it is 0x00 to 0x0D (R96). -/
def regByteWf (b : Byte) : Bool := decide (b.toNat < 14)

/-- The opcode bytes of a map are pairwise distinct: an opcode is a "unique byte, process-wide" (R90). -/
def opcodeBytesDistinct (t : Opcodes) : Bool := decide (t.map Prod.fst).Nodup

/-- The descriptors of a map are pairwise distinct: each is one row (R90). -/
def opcodeOpsDistinct (t : Opcodes) : Bool := decide (t.map Prod.snd).Nodup

/-- A well-formed opcode map: no byte and no descriptor stands twice (R90). A map need not list every descriptor. -/
def opcodesWf (t : Opcodes) : Bool := opcodeBytesDistinct t && opcodeOpsDistinct t

/-- An instruction is well formed under an opcode map when the map gives its descriptor an opcode byte. Its register
operands are registers by their type (R96). -/
def instrWf (t : Opcodes) (i : Instr) : Bool := decide (i.op ∈ t.map Prod.snd)

/-- The keys of a memory rise strictly. -/
def memSorted (m : Memory) : Bool := decide (m.Pairwise fun x y => x.1 < y.1)

/-- No entry of a memory equals what an unlisted address reads as. -/
def memNoDefault (m : Memory) : Bool := m.all fun c => decide (c.2 ≠ unlistedByte)

/-- Every key of a memory is inside a storage of `size` bytes. -/
def memInside (size : Nat) (m : Memory) : Bool := m.all fun c => decide (c.1 < size)

/-- The one canonical form of a memory of `size` bytes. -/
def memWf (size : Nat) (m : Memory) : Bool := memSorted m && memNoDefault m && memInside size m

/-- A device is well formed when its memories are canonical and a banked device has a bank (BANK_COUNT at least 1,
spec/20_memory.md R64). -/
def deviceWf : Device → Bool
  | .ram size bytes => memWf size bytes
  | .banked size banks => decide (banks ≠ []) && banks.all (memWf size)
  | .peripheral _ => true

/-- Every region names a device of the platform (spec/20_memory.md R53). -/
def regionsWf (rs : List Region) (n : Nat) : Bool := rs.all fun r => decide (r.device < n)

/-- A peripheral has recorded nothing when a run starts (log entry 7). -/
def deviceFresh : Device → Bool
  | .peripheral events => decide (events = [])
  | _ => true

/-- Well-formed parameters. -/
def paramsWf (p : Params) : Bool :=
  opcodesWf p.opcodes && regionsWf p.regions p.devices.length && p.devices.all deviceWf && p.devices.all deviceFresh

end Sys2Proof
end

