-- ==== Sys2Proof/Decode.lean ====
section
/-! DEFINITION. The instruction encoding (spec/30_encoding.md): the opcode map, the formats and their layouts, the
decoder, total on any bytes, and the encoder, written from the same tables. The decode procedure of R99 is written
once (`readFields`, `fieldRegs`, `instrOf`) over any byte source: `decode` runs it over a list of bytes, and the step
(Machine/Ops, `fetchInstr`) over the memory mapper. -/

namespace Sys2Proof

/-! ## Byte order (R92, spec/20_memory.md R60) -/

/-- Bits 15 to 8. -/
def hiByte (v : Word) : Byte := v.extractLsb' 8 8

/-- Bits 7 to 0. -/
def loByte (v : Word) : Byte := v.extractLsb' 0 8

/-- The big-endian value of two bytes, the one at the lower address first. -/
def bigEndian (hi lo : Byte) : Word := hi ++ lo

/-! ## Registers (spec/10_state.md R20) -/

/-- The register with a given index; none for a byte of 14 or more (R96). -/
def Reg.ofByte (b : Byte) : Option Reg :=
  match b.toNat with
  | 0 => some .ip | 1 => some .acc
  | 2 => some .r1 | 3 => some .r2 | 4 => some .r3 | 5 => some .r4
  | 6 => some .r5 | 7 => some .r6 | 8 => some .r7 | 9 => some .r8
  | 10 => some .sp | 11 => some .fp | 12 => some .mb | 13 => some .im
  | _ => none

/-- A register's index, its register byte. -/
def Reg.byte : Reg → Byte
  | .ip => 0 | .acc => 1
  | .r1 => 2 | .r2 => 3 | .r3 => 4 | .r4 => 5
  | .r5 => 6 | .r6 => 7 | .r7 => 8 | .r8 => 9
  | .sp => 10 | .fp => 11 | .mb => 12 | .im => 13

/-! ## The opcode map (R100) and the formats (R91) -/

/-- The default OPCODES table (R100; the values are the spec's decision D1, log entry 2). -/
def defaultOpcodes : Opcodes :=
  [(0x10, .movLitReg), (0x11, .movRegReg), (0x12, .movRegMem), (0x13, .movMemReg), (0x14, .addRegReg), (0x15, .jneLit), (0x16, .subLitReg), (0x17, .pshLit)]
  ++ [(0x18, .pshReg), (0x1A, .popReg), (0x1B, .movLitMem), (0x1C, .movRegPtrReg), (0x1D, .movLitOffReg), (0x1F, .subRegReg), (0x20, .mulLitReg), (0x21, .mulRegReg)]
  ++ [(0x26, .lsfLitReg), (0x27, .lsfRegReg), (0x2A, .rsfLitReg), (0x2B, .rsfRegReg), (0x2E, .andLitReg), (0x2F, .andRegReg), (0x30, .orLitReg), (0x31, .orRegReg)]
  ++ [(0x32, .xorLitReg), (0x33, .xorRegReg), (0x34, .notReg), (0x35, .incReg), (0x36, .decReg), (0x3E, .jeqReg), (0x3F, .addLitReg), (0x40, .jneReg)]
  ++ [(0x41, .jeqLit), (0x42, .jltReg), (0x43, .jltLit), (0x44, .jgtReg), (0x45, .jgtLit), (0x46, .jleReg), (0x47, .jleLit), (0x48, .jgeReg)]
  ++ [(0x49, .jgeLit), (0x5E, .calLit), (0x5F, .calReg), (0x60, .ret), (0xFC, .rti), (0xFD, .intLit), (0xFF, .hlt)]

/-- The descriptor an opcode byte selects; none for an unrecognized opcode (R90, R101). -/
def opOfByte : Opcodes → Byte → Option Op
  | [], _ => none
  | (b, o) :: t, x => if x = b then some o else opOfByte t x

/-- The opcode byte of a descriptor, if the map lists it. -/
def byteOfOp : Opcodes → Op → Option Byte
  | [], _ => none
  | (b, o) :: t, x => if x = o then some b else byteOfOp t x

/-- The format of each descriptor (R100). -/
def Op.format : Op → Format
  | .movLitReg => .litReg
  | .movRegReg => .regReg
  | .movRegMem => .regMem
  | .movMemReg => .memReg
  | .movLitMem => .litMem
  | .movRegPtrReg => .regPtrReg
  | .movLitOffReg => .litOffReg
  | .addRegReg => .regReg
  | .addLitReg => .litReg
  | .subRegReg => .regReg
  | .subLitReg => .litReg
  | .mulRegReg => .regReg
  | .mulLitReg => .litReg
  | .incReg => .singleReg
  | .decReg => .singleReg
  | .lsfRegReg => .regReg
  | .lsfLitReg => .litReg
  | .rsfRegReg => .regReg
  | .rsfLitReg => .litReg
  | .andRegReg => .regReg
  | .andLitReg => .litReg
  | .orRegReg => .regReg
  | .orLitReg => .litReg
  | .xorRegReg => .regReg
  | .xorLitReg => .litReg
  | .notReg => .singleReg
  | .jeqReg => .regMem
  | .jeqLit => .litMem
  | .jneReg => .regMem
  | .jneLit => .litMem
  | .jltReg => .regMem
  | .jltLit => .litMem
  | .jgtReg => .regMem
  | .jgtLit => .litMem
  | .jleReg => .regMem
  | .jleLit => .litMem
  | .jgeReg => .regMem
  | .jgeLit => .litMem
  | .pshLit => .singleLit
  | .pshReg => .singleReg
  | .popReg => .singleReg
  | .calLit => .singleLit
  | .calReg => .singleReg
  | .ret => .noArgs
  | .hlt => .noArgs
  | .intLit => .singleLit
  | .rti => .noArgs

/-- The operand fields a format can hold: a literal, an address, the first and the second register byte. -/
inductive FieldKind where
  | lit | addr | ra | rb
  deriving DecidableEq, Repr

/-- The width of a field in bytes (R91). -/
def FieldKind.width : FieldKind → Nat
  | .lit => 2 | .addr => 2 | .ra => 1 | .rb => 1

/-- The fields of a format in layout order, after the opcode byte (R91). -/
def Format.layout : Format → List FieldKind
  | .litReg => [.lit, .ra]
  | .regReg => [.ra, .rb]
  | .regMem => [.ra, .addr]
  | .memReg => [.addr, .ra]
  | .litMem => [.lit, .addr]
  | .regPtrReg => [.ra, .rb]
  | .litOffReg => [.lit, .ra, .rb]
  | .singleReg => [.ra]
  | .singleLit => [.lit]
  | .noArgs => []

/-- "size == 1 (opcode) + the operand field widths for that format" (R90). -/
def Format.size (f : Format) : Nat := 1 + (f.layout.map FieldKind.width).sum

/-- The encoded size of a descriptor's instructions, 1 to 5 bytes (R98). -/
def Op.size (o : Op) : Nat := o.format.size

/-! ## Fields and instructions -/

/-- The fields of one instruction as they are fetched; a field its format does not have is 0. -/
structure Fields where
  lit  : Word
  addr : Word
  ra   : Byte
  rb   : Byte
  deriving DecidableEq, Repr

/-- Fetch every field in layout order from a source of bytes and big-endian words (R99, R10). -/
def readFields {σ ε : Type} (rd8 : σ → Except ε (Byte × σ)) (rd16 : σ → Except ε (Word × σ)) :
    List FieldKind → Fields → σ → Except ε (Fields × σ)
  | [], f, s => .ok (f, s)
  | .lit :: ks, f, s =>
    match rd16 s with
    | .error e => .error e
    | .ok (v, s') => readFields rd8 rd16 ks { f with lit := v } s'
  | .addr :: ks, f, s =>
    match rd16 s with
    | .error e => .error e
    | .ok (v, s') => readFields rd8 rd16 ks { f with addr := v } s'
  | .ra :: ks, f, s =>
    match rd8 s with
    | .error e => .error e
    | .ok (b, s') => readFields rd8 rd16 ks { f with ra := b } s'
  | .rb :: ks, f, s =>
    match rd8 s with
    | .error e => .error e
    | .ok (b, s') => readFields rd8 rd16 ks { f with rb := b } s'

/-- Fields before anything is fetched. -/
def noFields : Fields := ⟨0, 0, 0, 0⟩

/-- The check of the register bytes in layout order: the two registers, or the first byte that names none (R96, R99,
R242). A register field the format does not have holds 0 and passes. -/
def fieldRegs (f : Fields) : Except Byte (Reg × Reg) :=
  match Reg.ofByte f.ra with
  | none => .error f.ra
  | some ra =>
    match Reg.ofByte f.rb with
    | none => .error f.rb
    | some rb => .ok (ra, rb)

/-- The instruction of a descriptor with its operands (R97, R99). -/
def instrOf (o : Op) (L A : Word) (ra rb : Reg) : Instr :=
  match o with
  | .movLitReg => .movLitReg L ra
  | .movRegReg => .movRegReg ra rb
  | .movRegMem => .movRegMem ra A
  | .movMemReg => .movMemReg A ra
  | .movLitMem => .movLitMem L A
  | .movRegPtrReg => .movRegPtrReg ra rb
  | .movLitOffReg => .movLitOffReg L ra rb
  | .addRegReg => .addRegReg ra rb
  | .addLitReg => .addLitReg L ra
  | .subRegReg => .subRegReg ra rb
  | .subLitReg => .subLitReg L ra
  | .mulRegReg => .mulRegReg ra rb
  | .mulLitReg => .mulLitReg L ra
  | .incReg => .incReg ra
  | .decReg => .decReg ra
  | .lsfRegReg => .lsfRegReg ra rb
  | .lsfLitReg => .lsfLitReg L ra
  | .rsfRegReg => .rsfRegReg ra rb
  | .rsfLitReg => .rsfLitReg L ra
  | .andRegReg => .andRegReg ra rb
  | .andLitReg => .andLitReg L ra
  | .orRegReg => .orRegReg ra rb
  | .orLitReg => .orLitReg L ra
  | .xorRegReg => .xorRegReg ra rb
  | .xorLitReg => .xorLitReg L ra
  | .notReg => .notReg ra
  | .jeqReg => .jeqReg ra A
  | .jeqLit => .jeqLit L A
  | .jneReg => .jneReg ra A
  | .jneLit => .jneLit L A
  | .jltReg => .jltReg ra A
  | .jltLit => .jltLit L A
  | .jgtReg => .jgtReg ra A
  | .jgtLit => .jgtLit L A
  | .jleReg => .jleReg ra A
  | .jleLit => .jleLit L A
  | .jgeReg => .jgeReg ra A
  | .jgeLit => .jgeLit L A
  | .pshLit => .pshLit L
  | .pshReg => .pshReg ra
  | .popReg => .popReg ra
  | .calLit => .calLit L
  | .calReg => .calReg ra
  | .ret => .ret
  | .hlt => .hlt
  | .intLit => .intLit L
  | .rti => .rti

/-! ## The decoder over a list of bytes -/

/-- Why bytes are no instruction (R101, R96), or that they end before the instruction does. -/
inductive DecodeError where
  | unknownOpcode (op : Byte)
  | illegalRegister (op byte : Byte)
  | truncated
  deriving DecidableEq, Repr

/-- Take one byte from a list. -/
def takeByte : List Byte → Except DecodeError (Byte × List Byte)
  | [] => .error .truncated
  | b :: bs => .ok (b, bs)

/-- Take a big-endian word from a list (R92). -/
def takeWord : List Byte → Except DecodeError (Word × List Byte)
  | b :: c :: bs => .ok (bigEndian b c, bs)
  | _ => .error .truncated

/-- The decode procedure (R99) over a list of bytes: the instruction and the rest of the list, or the error. -/
def decode (t : Opcodes) : List Byte → Except DecodeError (Instr × List Byte)
  | [] => .error .truncated
  | op :: bs =>
    match opOfByte t op with
    | none => .error (.unknownOpcode op)
    | some o =>
      match readFields takeByte takeWord o.format.layout noFields bs with
      | .error e => .error e
      | .ok (f, rest) =>
        match fieldRegs f with
        | .error b => .error (.illegalRegister op b)
        | .ok (ra, rb) => .ok (instrOf o f.lit f.addr ra rb, rest)

/-! ## The encoder -/

/-- The fields of an instruction (R91). -/
def instrFields : Instr → Fields
  | .movLitReg L R => ⟨L, 0, R.byte, 0⟩
  | .movRegReg Ra Rb => ⟨0, 0, Ra.byte, Rb.byte⟩
  | .movRegMem R A => ⟨0, A, R.byte, 0⟩
  | .movMemReg A R => ⟨0, A, R.byte, 0⟩
  | .movLitMem L A => ⟨L, A, 0, 0⟩
  | .movRegPtrReg Ra Rb => ⟨0, 0, Ra.byte, Rb.byte⟩
  | .movLitOffReg L Ra Rb => ⟨L, 0, Ra.byte, Rb.byte⟩
  | .addRegReg Ra Rb => ⟨0, 0, Ra.byte, Rb.byte⟩
  | .addLitReg L R => ⟨L, 0, R.byte, 0⟩
  | .subRegReg Ra Rb => ⟨0, 0, Ra.byte, Rb.byte⟩
  | .subLitReg L R => ⟨L, 0, R.byte, 0⟩
  | .mulRegReg Ra Rb => ⟨0, 0, Ra.byte, Rb.byte⟩
  | .mulLitReg L R => ⟨L, 0, R.byte, 0⟩
  | .incReg R => ⟨0, 0, R.byte, 0⟩
  | .decReg R => ⟨0, 0, R.byte, 0⟩
  | .lsfRegReg Ra Rb => ⟨0, 0, Ra.byte, Rb.byte⟩
  | .lsfLitReg L R => ⟨L, 0, R.byte, 0⟩
  | .rsfRegReg Ra Rb => ⟨0, 0, Ra.byte, Rb.byte⟩
  | .rsfLitReg L R => ⟨L, 0, R.byte, 0⟩
  | .andRegReg Ra Rb => ⟨0, 0, Ra.byte, Rb.byte⟩
  | .andLitReg L R => ⟨L, 0, R.byte, 0⟩
  | .orRegReg Ra Rb => ⟨0, 0, Ra.byte, Rb.byte⟩
  | .orLitReg L R => ⟨L, 0, R.byte, 0⟩
  | .xorRegReg Ra Rb => ⟨0, 0, Ra.byte, Rb.byte⟩
  | .xorLitReg L R => ⟨L, 0, R.byte, 0⟩
  | .notReg R => ⟨0, 0, R.byte, 0⟩
  | .jeqReg R A => ⟨0, A, R.byte, 0⟩
  | .jeqLit L A => ⟨L, A, 0, 0⟩
  | .jneReg R A => ⟨0, A, R.byte, 0⟩
  | .jneLit L A => ⟨L, A, 0, 0⟩
  | .jltReg R A => ⟨0, A, R.byte, 0⟩
  | .jltLit L A => ⟨L, A, 0, 0⟩
  | .jgtReg R A => ⟨0, A, R.byte, 0⟩
  | .jgtLit L A => ⟨L, A, 0, 0⟩
  | .jleReg R A => ⟨0, A, R.byte, 0⟩
  | .jleLit L A => ⟨L, A, 0, 0⟩
  | .jgeReg R A => ⟨0, A, R.byte, 0⟩
  | .jgeLit L A => ⟨L, A, 0, 0⟩
  | .pshLit L => ⟨L, 0, 0, 0⟩
  | .pshReg R => ⟨0, 0, R.byte, 0⟩
  | .popReg R => ⟨0, 0, R.byte, 0⟩
  | .calLit L => ⟨L, 0, 0, 0⟩
  | .calReg R => ⟨0, 0, R.byte, 0⟩
  | .ret => ⟨0, 0, 0, 0⟩
  | .hlt => ⟨0, 0, 0, 0⟩
  | .intLit L => ⟨L, 0, 0, 0⟩
  | .rti => ⟨0, 0, 0, 0⟩

/-- The bytes of one field (R91, R92). -/
def fieldBytes (f : Fields) : FieldKind → List Byte
  | .lit => [hiByte f.lit, loByte f.lit]
  | .addr => [hiByte f.addr, loByte f.addr]
  | .ra => [f.ra]
  | .rb => [f.rb]

/-- The bytes of an instruction under an opcode map: its opcode byte, then its fields in layout order (R91); none when
the map does not list its descriptor. -/
def encode (t : Opcodes) (i : Instr) : Option (List Byte) :=
  match byteOfOp t i.op with
  | none => none
  | some b => some (b :: (i.op.format.layout.map (fieldBytes (instrFields i))).flatten)

/-! ## A numbered instruction word as bytes -/

/-- The first `k` bytes of a word whose bits 8j+7 to 8j are byte j, every bit from `nbits` on being 0. -/
def wordBytes (nbits w : Nat) (k : Nat) : List Byte :=
  (List.range k).map fun j => BitVec.ofNat 8 ((w % 2 ^ nbits) / 2 ^ (8 * j))

/-- The length of the longest instruction (R98). -/
def maxInstrBytes : Nat := 5

/-- What the decoder reads, under the default opcode map, from an instruction whose bits are `w`. -/
def decodeTableWord (nbits w : Nat) : Option Instr :=
  match decode defaultOpcodes (wordBytes nbits w maxInstrBytes) with
  | .ok (i, _) => some i
  | .error _ => none

end Sys2Proof
end

