-- ==== Sys2Proof/Machine/Defaults.lean ====
section
/-! DEFINITION. The default values of the parameters (spec/00_scope.md R7). Log entries 2 to 5. -/

namespace Sys2Proof.Machine

/-- The default device: one RAM of 65,536 bytes, its content INIT_MEM at its default, all zero (spec/20_memory.md R59,
spec/70_reset_and_hazards.md R280). -/
def defaultDevices : List Device := [.ram 65536 []]

/-- The default region list: the one RAM at 0x0000 to 0xFFFF, remap off (spec/20_memory.md R59, R69). -/
def defaultRegions : List Region := [⟨0, 0x0000, 0xFFFF, false⟩]

/-- Every parameter at its default: VECTOR_BASE 0x1000, STACK_TOP 0xFFFE, IM_RESET 0xFFFF (spec/00_scope.md R7). -/
def defaultParams : Params where
  opcodes := defaultOpcodes
  regions := defaultRegions
  devices := defaultDevices
  vectorBase := 0x1000
  stackTop := 0xFFFE
  imReset := 0xFFFF

end Sys2Proof.Machine
end

