-- ==== Sys2Proof/Machine/State.lean ====
section
/-! DEFINITION. The state of the machine (spec/10_state.md R37), the reasons a step can stop, and reset
(spec/70_reset_and_hazards.md R280). -/

namespace Sys2Proof.Machine

/-- Why the machine stops: the three fault kinds with the information each records (spec/60_exceptions.md R241). A fault
is the spec's own outcome `Fault(kind, info)` (R240); it carries no state, because after a fault only the status and the
recorded information are defined (R243, log entry 8). -/
inductive Fault where
  /-- Raised by the dispatch of any step whose opcode byte is not in the opcode map (spec/30_encoding.md R101). Safe:
  the spec gives exactly this outcome. -/
  | unknownOpcode (opaddr : Word) (op : Byte)
  /-- Raised by the decoding of an instruction with a register byte of 14 or more (spec/30_encoding.md R96). Safe: the
  spec gives exactly this outcome. -/
  | illegalInstruction (opaddr : Word) (op byte : Byte)
  /-- Raised by any fetch, data access, stack access or vector read whose address is in no region or whose device
  refuses it (spec/20_memory.md R56). Safe: the spec gives exactly this outcome. -/
  | memoryFault (opaddr addr : Word) (width : Width) (dir : Dir)
  deriving DecidableEq, Repr

/-- Why the model gives a step no meaning. -/
inductive Refusal where
  /-- Raised by an arm of `exec` that has no meaning yet. No arm raises it now. Safe. -/
  | notModelled (mnemonic : String)
  /-- Raised by `step` in a state whose status is Halted: a model gives Step no move from Halted
  (spec/70_reset_and_hazards.md R271). Safe. Log entry 9. -/
  | stepAfterHalt
  /-- Raised by `step` in a state whose status is Faulted: a model gives Step no move from Faulted
  (spec/70_reset_and_hazards.md R271). Safe. Log entry 9. -/
  | stepAfterFault (f : Fault)
  deriving DecidableEq, Repr

/-- The run status (spec/10_state.md R34). -/
inductive Status where
  | running
  | halted
  | faulted (f : Fault)
  deriving DecidableEq, Repr

/-- The register file: fourteen 16-bit registers, no one an alias of another (spec/10_state.md R20, R21). -/
structure Regs where
  ip  : Word
  acc : Word
  r1  : Word
  r2  : Word
  r3  : Word
  r4  : Word
  r5  : Word
  r6  : Word
  r7  : Word
  r8  : Word
  sp  : Word
  fp  : Word
  mb  : Word
  im  : Word
  deriving DecidableEq, Repr

/-- The whole state (spec/10_state.md R37): the registers, the hidden frame-size counter (R32), the hidden in-handler
flag (R33), the run status (R34) and the state of every device of the platform (spec/20_memory.md R52). Two fields are
the model's own: `draws` counts the peripheral accesses so far, to which the free values of a peripheral are applied (log
entry 6), and `params` carries the parameters, which no step changes (log entry 1). -/
structure State where
  regs      : Regs
  fsize     : Word
  inHandler : Bool
  status    : Status
  devices   : List Device
  draws     : Nat
  params    : Params
  deriving DecidableEq, Repr

/-- Read a register of the register file (spec/00_scope.md R9). -/
def Regs.get (x : Regs) : Reg → Word
  | .ip => x.ip | .acc => x.acc
  | .r1 => x.r1 | .r2 => x.r2 | .r3 => x.r3 | .r4 => x.r4
  | .r5 => x.r5 | .r6 => x.r6 | .r7 => x.r7 | .r8 => x.r8
  | .sp => x.sp | .fp => x.fp | .mb => x.mb | .im => x.im

/-- Write a register of the register file (spec/00_scope.md R9). -/
def Regs.set (x : Regs) (r : Reg) (v : Word) : Regs :=
  match r with
  | .ip => { x with ip := v } | .acc => { x with acc := v }
  | .r1 => { x with r1 := v } | .r2 => { x with r2 := v } | .r3 => { x with r3 := v } | .r4 => { x with r4 := v }
  | .r5 => { x with r5 := v } | .r6 => { x with r6 := v } | .r7 => { x with r7 := v } | .r8 => { x with r8 := v }
  | .sp => { x with sp := v } | .fp => { x with fp := v } | .mb => { x with mb := v } | .im => { x with im := v }

/-- `x[r]` (spec/00_scope.md R9). -/
def State.reg (s : State) (r : Reg) : Word := s.regs.get r

/-- `x[r] <- v` (spec/00_scope.md R9). No register is hardwired (spec/10_state.md R23). -/
def State.setReg (s : State) (r : Reg) (v : Word) : State := { s with regs := s.regs.set r v }

/-- `fsize <- v` (spec/10_state.md R32). -/
def State.setFsize (s : State) (v : Word) : State := { s with fsize := v }

/-- `in_handler <- b` (spec/10_state.md R33). -/
def State.setInHandler (s : State) (b : Bool) : State := { s with inHandler := b }

/-- `status <- t` (spec/10_state.md R34). -/
def State.setStatus (s : State) (t : Status) : State := { s with status := t }

/-- Replace the state of every device (spec/20_memory.md R52). -/
def State.setDevices (s : State) (ds : List Device) : State := { s with devices := ds }

/-- Set the model's own counter of peripheral accesses (log entry 6). -/
def State.setDraws (s : State) (n : Nat) : State := { s with draws := n }

/-- The registers right after reset (spec/10_state.md R20, spec/70_reset_and_hazards.md R280). -/
def Regs.resetOf (p : Params) : Regs where
  ip := 0x0000
  acc := 0x0000
  r1 := 0x0000
  r2 := 0x0000
  r3 := 0x0000
  r4 := 0x0000
  r5 := 0x0000
  r6 := 0x0000
  r7 := 0x0000
  r8 := 0x0000
  sp := p.stackTop
  fp := p.stackTop
  mb := 0x0000
  im := p.imReset

/-- Every piece of state right after reset, for given parameters (spec/70_reset_and_hazards.md R280): before the program
image is loaded, the devices hold INIT_MEM (R281). -/
def State.resetOf (p : Params) : State where
  regs := Regs.resetOf p
  fsize := 0x0000
  inHandler := false
  status := .running
  devices := p.devices
  draws := 0
  params := p

/-- The machine right after reset with every parameter at its default (spec/70_reset_and_hazards.md R280). -/
def State.reset : State := State.resetOf defaultParams

end Sys2Proof.Machine
end

