-- ==== Sys2Proof/Machine/Ops.lean ====
section
/-! DEFINITION. The operations every meaning is built from: bytes of a storage, devices, the memory mapper
(spec/20_memory.md), instruction fetch (spec/00_scope.md R10, spec/30_encoding.md R99), the stack primitives
(spec/44_stack_call.md R200 to R203), interrupt entry and return (spec/60_exceptions.md R249, R251), and the end of a
step by a memory fault (R241). -/

namespace Sys2Proof.Machine

/-! ## Bytes of a storage -/

/-- The byte at a local address of a storage. -/
def readByte : Memory → Nat → Byte
  | [], _ => unlistedByte
  | (a, b) :: m, k => if k = a then b else readByte m k

/-- An entry put at the head of a memory whose keys are all greater, unless its byte is the unlisted one. -/
def consByte (k : Nat) (v : Byte) (m : Memory) : Memory := if v = unlistedByte then m else (k, v) :: m

/-- Write one byte of a storage, keeping the canonical form. -/
def writeByte : Memory → Nat → Byte → Memory
  | [], k, v => consByte k v []
  | (a, b) :: m, k, v =>
    if k < a then consByte k v ((a, b) :: m)
    else if k = a then consByte k v m
    else (a, b) :: writeByte m k v

/-- `get8` and `get16` of a storage of `size` bytes: none when a byte asked for is outside it. A 2-byte read is
big-endian and is not split (R57, R59, R60). -/
def storageRead (size : Nat) (m : Memory) (w : Width) (L : Word) : Option Word :=
  match w with
  | .byte => if L.toNat < size then some ((readByte m L.toNat).setWidth 16) else none
  | .word => if L.toNat + 1 < size then some (bigEndian (readByte m L.toNat) (readByte m (L.toNat + 1))) else none

/-- `set8` and `set16` of a storage of `size` bytes: none, and nothing written, when a byte is outside it (R57, R59,
R60). -/
def storageWrite (size : Nat) (m : Memory) (w : Width) (L v : Word) : Option Memory :=
  match w with
  | .byte => if L.toNat < size then some (writeByte m L.toNat (loByte v)) else none
  | .word =>
    if L.toNat + 1 < size then some (writeByte (writeByte m L.toNat (hiByte v)) (L.toNat + 1) (loByte v)) else none

/-! ## Devices (R52) -/

/-- The bank a banked device serves: `mb mod BANK_COUNT` (R65). -/
def bankIndex (mb : Word) (banks : List Memory) : Nat := mb.toNat % banks.length

/-- A value as wide as the access: the low byte for a 1-byte access (R52). -/
def narrow (w : Width) (v : Word) : Word :=
  match w with
  | .byte => (loByte v).setWidth 16
  | .word => v

/-- `get8` and `get16` of a device at a local address, with the value of `mb` at the moment of the access (R59, R65);
none when the device refuses. A peripheral's answer is free (R66, log entry 6). -/
def deviceRead (d : Device) (mb : Word) (draw : Nat) (w : Width) (L : Word) : Option Word :=
  match d with
  | .ram size m => storageRead size m w L
  | .banked size banks =>
    match banks[bankIndex mb banks]? with
    | none => none
    | some m => storageRead size m w L
  | .peripheral _ =>
    if Config.peripheralRefuses draw then none else some (narrow w (Config.peripheralAnswer draw))

/-- `set8` and `set16` of a device at a local address (R59, R65); none when the device refuses. A write to a peripheral
is a recorded event (R66). -/
def deviceWrite (d : Device) (mb : Word) (draw : Nat) (w : Width) (L v : Word) : Option Device :=
  match d with
  | .ram size m => (storageWrite size m w L v).map (.ram size ·)
  | .banked size banks =>
    match banks[bankIndex mb banks]? with
    | none => none
    | some m => (storageWrite size m w L v).map fun m' => .banked size (banks.set (bankIndex mb banks) m')
  | .peripheral events =>
    if Config.peripheralRefuses draw then none else some (.peripheral (events ++ [⟨w, L, narrow w v⟩]))

/-- The model's counter after an access to a device: only a peripheral consumes a draw (log entry 6). -/
def drawsAfter (d : Device) (draw : Nat) : Nat :=
  match d with
  | .ram _ _ => draw
  | .banked _ _ => draw
  | .peripheral _ => draw + 1

/-! ## The memory mapper (R53 to R58) -/

/-- A region contains an address when `start <= A <= end`, unsigned (R54). -/
def inRegion (A : Word) (r : Region) : Bool := decide (r.start.toNat ≤ A.toNat ∧ A.toNat ≤ r.stop.toNat)

/-- The first region in the list that contains an address (R54). -/
def findRegion (rs : List Region) (A : Word) : Option Region := rs.find? (inRegion A)

/-- The local address the mapper passes the device (R55). -/
def localAddr (r : Region) (A : Word) : Word := if r.remap then A - r.start else A

/-- What a memory fault records of the access itself (R56); the step adds the opcode's address
(spec/60_exceptions.md R241). -/
structure MemError where
  addr  : Word
  width : Width
  dir   : Dir
  deriving DecidableEq, Repr

/-- The region and the device that serve an address, if any (R54). A region that names no device of the platform serves
nothing (log entry 10). -/
def route (s : State) (A : Word) : Option (Region × Device) :=
  match findRegion s.params.regions A with
  | none => none
  | some r =>
    match s.devices[r.device]? with
    | none => none
    | some d => some (r, d)

/-- `MemRead(A, n)` (R58): the value, and the state after the access. -/
def memRead (w : Width) (A : Word) (s : State) : Except MemError (Word × State) :=
  match route s A with
  | none => .error ⟨A, w, .read⟩
  | some (r, d) =>
    match deviceRead d (s.reg .mb) s.draws w (localAddr r A) with
    | none => .error ⟨A, w, .read⟩
    | some v => .ok (v, s.setDraws (drawsAfter d s.draws))

/-- `MemWrite(A, n, v)` (R58): the state after the access; a faulting access changes nothing (R56). -/
def memWrite (w : Width) (A v : Word) (s : State) : Except MemError State :=
  match route s A with
  | none => .error ⟨A, w, .write⟩
  | some (r, d) =>
    match deviceWrite d (s.reg .mb) s.draws w (localAddr r A) v with
    | none => .error ⟨A, w, .write⟩
    | some d' => .ok ((s.setDevices (s.devices.set r.device d')).setDraws (drawsAfter d s.draws))

/-! ## Instruction fetch (spec/00_scope.md R10, spec/30_encoding.md R99) -/

/-- `fetch8()`: read one byte at `ip`, then advance `ip` by 1 modulo 2^16; a fault leaves `ip` where it was. -/
def fetch8 (s : State) : Except MemError (Byte × State) :=
  match memRead .byte (s.reg .ip) s with
  | .error e => .error e
  | .ok (v, s') => .ok (loByte v, s'.setReg .ip (s.reg .ip + 1))

/-- `fetch16()`: one 2-byte read at `ip`, then advance `ip` by 2 modulo 2^16. -/
def fetch16 (s : State) : Except MemError (Word × State) :=
  match memRead .word (s.reg .ip) s with
  | .error e => .error e
  | .ok (v, s') => .ok (v, s'.setReg .ip (s.reg .ip + 2))

/-- A memory fault with the address of the opcode byte (spec/60_exceptions.md R241). -/
def memFault (opaddr : Word) (e : MemError) : Fault := .memoryFault opaddr e.addr e.width e.dir

/-- Steps 1 to 4 of a step (spec/70_reset_and_hazards.md R272, R273): fetch the opcode byte, look up its descriptor,
fetch every operand field in layout order, check every register byte. The answer is the instruction and the state with
`ip` at the next instruction. -/
def fetchInstr (s : State) : Except Fault (Instr × State) :=
  match fetch8 s with
  | .error e => .error (memFault (s.reg .ip) e)
  | .ok (op, s₁) =>
    match opOfByte s.params.opcodes op with
    | none => .error (.unknownOpcode (s.reg .ip) op)
    | some o =>
      match readFields fetch8 fetch16 o.format.layout noFields s₁ with
      | .error e => .error (memFault (s.reg .ip) e)
      | .ok (f, s₂) =>
        match fieldRegs f with
        | .error b => .error (.illegalInstruction (s.reg .ip) op b)
        | .ok (ra, rb) => .ok (instrOf o f.lit f.addr ra rb, s₂)

/-! ## The end of an instruction -/

/-- The address of the opcode byte of the instruction in execution: `ip` has moved past its size
(spec/10_state.md R24, spec/70_reset_and_hazards.md R272). Log entry 11. -/
def opcodeAddr (o : Op) (s : State) : Word := s.reg .ip - BitVec.ofNat 16 o.size

/-- The outcome of an instruction whose accesses ended in `r`, started in `s`: the next state, or the memory fault with
the opcode's address (spec/60_exceptions.md R240, R241). -/
def conclude (o : Op) (s : State) (r : Except MemError State) : Host.Outcome State Fault Refusal :=
  match r with
  | .ok s' => .next s'
  | .error e => .fault (memFault (opcodeAddr o s) e)

/-- Load the word at an address into a register: the read comes before the write (spec/70_reset_and_hazards.md R273). -/
def loadReg (A : Word) (r : Reg) (s : State) : Except MemError State :=
  match memRead .word A s with
  | .error e => .error e
  | .ok (v, s') => .ok (s'.setReg r v)

/-! ## The stack primitives (spec/44_stack_call.md) -/

/-- `push(v)` (R200). -/
def push (v : Word) (s : State) : Except MemError State :=
  match memWrite .word (s.reg .sp) v s with
  | .error e => .error e
  | .ok s' => .ok ((s'.setReg .sp (s.reg .sp - 2)).setFsize (s.fsize + 2))

/-- `pop()` (R201). -/
def pop (s : State) : Except MemError (Word × State) :=
  match memRead .word (s.reg .sp + 2) s with
  | .error e => .error e
  | .ok (v, s') => .ok (v, (s'.setReg .sp (s.reg .sp + 2)).setFsize (s.fsize - 2))

/-- `x[r] <- pop()` for one register (R203, R206). -/
def popReg (r : Reg) (s : State) : Except MemError State :=
  match pop s with
  | .error e => .error e
  | .ok (v, s') => .ok (s'.setReg r v)

/-- `push(x[r])` for each register of a list, in its order. -/
def pushRegs : List Reg → State → Except MemError State
  | [], s => .ok s
  | r :: rs, s =>
    match push (s.reg r) s with
    | .error e => .error e
    | .ok s' => pushRegs rs s'

/-- `x[r] <- pop()` for each register of a list, in its order. -/
def popRegs : List Reg → State → Except MemError State
  | [], s => .ok s
  | r :: rs, s =>
    match popReg r s with
    | .error e => .error e
    | .ok s' => popRegs rs s'

/-- `repeat n times: pop()`, each a full pop with its read (R203). -/
def popMany : Nat → State → Except MemError State
  | 0, s => .ok s
  | n + 1, s =>
    match pop s with
    | .error e => .error e
    | .ok (_, s') => popMany n s'

/-- The registers PushState saves, in push order (R202). -/
def savedRegs : List Reg := [.r1, .r2, .r3, .r4, .r5, .r6, .r7, .r8, .ip]

/-- `PushState()` (R202). -/
def pushState (s : State) : Except MemError State :=
  match pushRegs savedRegs s with
  | .error e => .error e
  | .ok s₁ =>
    match push (s₁.fsize + 2) s₁ with
    | .error e => .error e
    | .ok s₂ => .ok ((s₂.setReg .fp (s₂.reg .sp)).setFsize 0)

/-- `PopState()` after the saved frame size `S` is read (R203): the registers in reverse push order, the argument count
and the arguments, and `fp` offset from its old value `a`. -/
def popFrame (a S : Word) (s : State) : Except MemError State :=
  match popRegs savedRegs.reverse s with
  | .error e => .error e
  | .ok s₁ =>
    match pop s₁ with
    | .error e => .error e
    | .ok (n, s₂) =>
      match popMany n.toNat s₂ with
      | .error e => .error e
      | .ok s₃ => .ok (s₃.setReg .fp (a + S))

/-- `PopState()` (R203). -/
def popState (s : State) : Except MemError State :=
  match pop (s.setReg .sp (s.reg .fp)) with
  | .error e => .error e
  | .ok (S, s') => popFrame (s.reg .fp) S (s'.setFsize (S - 2))

/-- Call the subroutine at `target`: PushState, then `ip <- target` (R207, R208). -/
def callTo (target : Word) (s : State) : Except MemError State :=
  match pushState s with
  | .error e => .error e
  | .ok s' => .ok (s'.setReg .ip target)

/-! ## Interrupts (spec/60_exceptions.md R246 to R251) -/

/-- The interrupt number of a literal: its low 4 bits (spec/45_system.md R231). -/
def interruptNumber (L : Word) : Nat := (L &&& 0x000F).toNat

/-- Interrupt `n` is enabled when bit `n` of `im` is 1 (spec/10_state.md R30, R247). -/
def interruptEnabled (n : Nat) (s : State) : Bool := (s.reg .im).getLsbD n

/-- The address of the vector of interrupt `n`: VECTOR_BASE + 2n modulo 2^16 (R246). -/
def vectorAddr (n : Nat) (s : State) : Word := s.params.vectorBase + BitVec.ofNat 16 (2 * n)

/-- The state save of interrupt entry: the zero argument count, then PushState, unless already inside a handler (R249). -/
def saveForInterrupt (s : State) : Except MemError State :=
  match s.inHandler with
  | true => .ok s
  | false =>
    match push 0 s with
    | .error e => .error e
    | .ok s' => pushState s'

/-- TAKING AN INTERRUPT that is enabled (R249, spec/45_system.md R231): the vector is read first, then the state is
saved, then `in_handler` is set and `ip` gets the vector. -/
def takeInterrupt (n : Nat) (s : State) : Except MemError State :=
  match memRead .word (vectorAddr n s) s with
  | .error e => .error e
  | .ok (v, s₁) =>
    match saveForInterrupt s₁ with
    | .error e => .error e
    | .ok s₂ => .ok ((s₂.setInHandler true).setReg .ip v)

/-- RETURN FROM INTERRUPT (R251, spec/45_system.md R232): clear `in_handler`, then PopState. -/
def returnFromInterrupt (s : State) : Except MemError State := popState (s.setInHandler false)

end Sys2Proof.Machine
end

