-- ==== Sys2Proof/Machine/Operands.lean ====
section
/-! DEFINITION. The operand forms (spec/30_encoding.md R97): what each operand of an instruction stands for. A literal
and an address are used as they stand (R94, R95). -/

namespace Sys2Proof.Machine

/-- A register operand: `x[R]` (R97). Read as an operand, `ip` is the next instruction's address (spec/10_state.md R24). -/
def registerOperand (r : Reg) (s : State) : Word := s.reg r

/-- The effective address of a register-pointer operand: `x[Ra]` (R97, spec/40_move.md R135). -/
def pointerAddr (ra : Reg) (s : State) : Word := s.reg ra

/-- The effective address of a literal-offset operand: `(L + x[Ra]) mod 2^16` (R97, spec/40_move.md R136). -/
def offsetAddr (L : Word) (ra : Reg) (s : State) : Word := L + s.reg ra

/-- The accumulator: the destination of arithmetic and of literal forms, and the right side of every jump's comparison
(spec/10_state.md R26). -/
def accOperand (s : State) : Word := s.reg .acc

end Sys2Proof.Machine
end

