-- ==== Sys2Proof/Machine/Alu.lean ====
section
/-! DEFINITION. The arithmetic and logic of the machine on 16-bit values, as exact operations on naturals narrowed to 16
bits (spec/41_arithmetic.md R148), the shifts (spec/42_bitwise.md R160) and bitwise logic. -/

namespace Sys2Proof.Machine

/-- `(a + b) mod 2^16` (R140, R141). -/
def aluAdd (a b : Word) : Word := BitVec.ofNat 16 (a.toNat + b.toNat)

/-- `(a - b) mod 2^16` (R142, R143). -/
def aluSub (a b : Word) : Word := BitVec.ofNat 16 (a.toNat + 2 ^ 16 - b.toNat)

/-- The low 16 bits of the unsigned product (R144, R145). -/
def aluMul (a b : Word) : Word := BitVec.ofNat 16 (a.toNat * b.toNat)

/-- `shl(v, s)`: 0 for an amount of 16 or more (R160). -/
def aluShl (v n : Word) : Word := if n.toNat < 16 then BitVec.ofNat 16 (v.toNat * 2 ^ n.toNat) else 0

/-- `shr(v, s)`: logical, 0 for an amount of 16 or more (R160). -/
def aluShr (v n : Word) : Word := if n.toNat < 16 then BitVec.ofNat 16 (v.toNat / 2 ^ n.toNat) else 0

/-- Bitwise AND (R165, R166). -/
def aluAnd (a b : Word) : Word := a &&& b

/-- Bitwise OR (R167, R168). -/
def aluOr (a b : Word) : Word := a ||| b

/-- Bitwise XOR (R169, R170). -/
def aluXor (a b : Word) : Word := a ^^^ b

/-- Bitwise complement (R171). -/
def aluNot (a : Word) : Word := ~~~a

/-- Put a result in the accumulator (spec/10_state.md R26). -/
def toAcc (v : Word) (s : State) : State := s.setReg .acc v

end Sys2Proof.Machine
end

