-- ==== Sys2Proof/Machine/Arithmetic.lean ====
section
/-! DEFINITION. Arithmetic (spec/41_arithmetic.md R140 to R147): add, sub and mul write `acc`; inc and dec write their register. Every
source is read before the destination is written (R149). No flag is written. -/

namespace Sys2Proof.Machine

/-- `add Ra, Rb` (R140): x[acc] <- (x[Ra] + x[Rb]) mod 2^16. -/
def execAddRegReg (Ra Rb : Reg) (s : State) : Host.Outcome State Fault Refusal :=
  .next (toAcc (aluAdd (registerOperand Ra s) (registerOperand Rb s)) s)

/-- `add $L, R` (R141): x[acc] <- (L + x[R]) mod 2^16; `R` is not written. -/
def execAddLitReg (L : Word) (R : Reg) (s : State) : Host.Outcome State Fault Refusal :=
  .next (toAcc (aluAdd L (registerOperand R s)) s)

/-- `sub Ra, Rb` (R142): x[acc] <- (x[Ra] - x[Rb]) mod 2^16. -/
def execSubRegReg (Ra Rb : Reg) (s : State) : Host.Outcome State Fault Refusal :=
  .next (toAcc (aluSub (registerOperand Ra s) (registerOperand Rb s)) s)

/-- `sub $L, R` (R143): x[acc] <- (x[R] - L) mod 2^16; `R` is not written. -/
def execSubLitReg (L : Word) (R : Reg) (s : State) : Host.Outcome State Fault Refusal :=
  .next (toAcc (aluSub (registerOperand R s) L) s)

/-- `mul Ra, Rb` (R144): x[acc] <- (x[Ra] * x[Rb]) mod 2^16. -/
def execMulRegReg (Ra Rb : Reg) (s : State) : Host.Outcome State Fault Refusal :=
  .next (toAcc (aluMul (registerOperand Ra s) (registerOperand Rb s)) s)

/-- `mul $L, R` (R145): x[acc] <- (L * x[R]) mod 2^16; `R` is not written. -/
def execMulLitReg (L : Word) (R : Reg) (s : State) : Host.Outcome State Fault Refusal :=
  .next (toAcc (aluMul L (registerOperand R s)) s)

/-- `inc R` (R146): x[R] <- (x[R] + 1) mod 2^16. -/
def execIncReg (R : Reg) (s : State) : Host.Outcome State Fault Refusal :=
  .next (s.setReg R (aluAdd (registerOperand R s) 1))

/-- `dec R` (R147): x[R] <- (x[R] - 1) mod 2^16. -/
def execDecReg (R : Reg) (s : State) : Host.Outcome State Fault Refusal :=
  .next (s.setReg R (aluSub (registerOperand R s) 1))

end Sys2Proof.Machine
end

