-- ==== Sys2Proof/Machine/Bitwise.lean ====
section
/-! DEFINITION. Shifts and bitwise logic (spec/42_bitwise.md R161 to R171): the register-register forms write their first register, the
literal forms and `not` write `acc` (spec/90_conflicts.md C4). No flag is written. -/

namespace Sys2Proof.Machine

/-- `lsf Ra, Rb` (R161): x[Ra] <- shl(x[Ra], x[Rb]), in place. -/
def execLsfRegReg (Ra Rb : Reg) (s : State) : Host.Outcome State Fault Refusal :=
  .next (s.setReg Ra (aluShl (registerOperand Ra s) (registerOperand Rb s)))

/-- `lsf $L, R` (R162): x[acc] <- shl(x[R], L); `R` is not written. -/
def execLsfLitReg (L : Word) (R : Reg) (s : State) : Host.Outcome State Fault Refusal :=
  .next (toAcc (aluShl (registerOperand R s) L) s)

/-- `rsf Ra, Rb` (R163): x[Ra] <- shr(x[Ra], x[Rb]), in place. -/
def execRsfRegReg (Ra Rb : Reg) (s : State) : Host.Outcome State Fault Refusal :=
  .next (s.setReg Ra (aluShr (registerOperand Ra s) (registerOperand Rb s)))

/-- `rsf $L, R` (R164): x[acc] <- shr(x[R], L); `R` is not written. -/
def execRsfLitReg (L : Word) (R : Reg) (s : State) : Host.Outcome State Fault Refusal :=
  .next (toAcc (aluShr (registerOperand R s) L) s)

/-- `and Ra, Rb` (R165): x[Ra] <- x[Ra] & x[Rb], in place. -/
def execAndRegReg (Ra Rb : Reg) (s : State) : Host.Outcome State Fault Refusal :=
  .next (s.setReg Ra (aluAnd (registerOperand Ra s) (registerOperand Rb s)))

/-- `and $L, R` (R166): x[acc] <- x[R] & L; `R` is not written. -/
def execAndLitReg (L : Word) (R : Reg) (s : State) : Host.Outcome State Fault Refusal :=
  .next (toAcc (aluAnd (registerOperand R s) L) s)

/-- `or Ra, Rb` (R167): x[Ra] <- x[Ra] | x[Rb], in place. -/
def execOrRegReg (Ra Rb : Reg) (s : State) : Host.Outcome State Fault Refusal :=
  .next (s.setReg Ra (aluOr (registerOperand Ra s) (registerOperand Rb s)))

/-- `or $L, R` (R168): x[acc] <- x[R] | L; `R` is not written. -/
def execOrLitReg (L : Word) (R : Reg) (s : State) : Host.Outcome State Fault Refusal :=
  .next (toAcc (aluOr (registerOperand R s) L) s)

/-- `xor Ra, Rb` (R169): x[Ra] <- x[Ra] ^ x[Rb], in place. -/
def execXorRegReg (Ra Rb : Reg) (s : State) : Host.Outcome State Fault Refusal :=
  .next (s.setReg Ra (aluXor (registerOperand Ra s) (registerOperand Rb s)))

/-- `xor $L, R` (R170): x[acc] <- x[R] ^ L; `R` is not written. -/
def execXorLitReg (L : Word) (R : Reg) (s : State) : Host.Outcome State Fault Refusal :=
  .next (toAcc (aluXor (registerOperand R s) L) s)

/-- `not R` (R171): x[acc] <- ~x[R]; `R` is not written. -/
def execNotReg (R : Reg) (s : State) : Host.Outcome State Fault Refusal :=
  .next (toAcc (aluNot (registerOperand R s)) s)

end Sys2Proof.Machine
end

