-- ==== Sys2Proof/Machine/Flags.lean ====
section
/-! DEFINITION. The machine has no flags, condition codes or predicates (spec/10_state.md R35), so there is no flag
computation. What takes their place is here: the six conditions of the jumps, which compare a value with `acc` directly,
unsigned (spec/43_branch.md R180). -/

namespace Sys2Proof.Machine

/-- `cond_eq` (R180). -/
def condEq (v a : Word) : Bool := decide (v.toNat = a.toNat)

/-- `cond_ne` (R180). -/
def condNe (v a : Word) : Bool := decide (v.toNat ≠ a.toNat)

/-- `cond_lt` (R180). -/
def condLt (v a : Word) : Bool := decide (v.toNat < a.toNat)

/-- `cond_gt` (R180). -/
def condGt (v a : Word) : Bool := decide (a.toNat < v.toNat)

/-- `cond_le` (R180). -/
def condLe (v a : Word) : Bool := decide (v.toNat ≤ a.toNat)

/-- `cond_ge` (R180). -/
def condGe (v a : Word) : Bool := decide (a.toNat ≤ v.toNat)

/-- `jump_if`: `ip <- A` when the condition holds, else `ip` stays at the next instruction (R180). -/
def jumpIf (c : Bool) (A : Word) (s : State) : State := if c then s.setReg .ip A else s

end Sys2Proof.Machine
end

