-- ==== Sys2Proof/Machine/Branch.lean ====
section
/-! DEFINITION. Conditional jumps (spec/43_branch.md R180 to R192): a jump writes only `ip`, and a taken jump cannot fault. -/

namespace Sys2Proof.Machine

/-- `jeq R, &A` (R181): jump_if(cond_eq, x[R], A). -/
def execJeqReg (R : Reg) (A : Word) (s : State) : Host.Outcome State Fault Refusal :=
  .next (jumpIf (condEq (registerOperand R s) (accOperand s)) A s)

/-- `jeq $L, &A` (R182): jump_if(cond_eq, L, A). -/
def execJeqLit (L A : Word) (s : State) : Host.Outcome State Fault Refusal :=
  .next (jumpIf (condEq L (accOperand s)) A s)

/-- `jne R, &A` (R183): jump_if(cond_ne, x[R], A). -/
def execJneReg (R : Reg) (A : Word) (s : State) : Host.Outcome State Fault Refusal :=
  .next (jumpIf (condNe (registerOperand R s) (accOperand s)) A s)

/-- `jne $L, &A` (R184): jump_if(cond_ne, L, A). -/
def execJneLit (L A : Word) (s : State) : Host.Outcome State Fault Refusal :=
  .next (jumpIf (condNe L (accOperand s)) A s)

/-- `jlt R, &A` (R185): jump_if(cond_lt, x[R], A). -/
def execJltReg (R : Reg) (A : Word) (s : State) : Host.Outcome State Fault Refusal :=
  .next (jumpIf (condLt (registerOperand R s) (accOperand s)) A s)

/-- `jlt $L, &A` (R186): jump_if(cond_lt, L, A). -/
def execJltLit (L A : Word) (s : State) : Host.Outcome State Fault Refusal :=
  .next (jumpIf (condLt L (accOperand s)) A s)

/-- `jgt R, &A` (R187): jump_if(cond_gt, x[R], A). -/
def execJgtReg (R : Reg) (A : Word) (s : State) : Host.Outcome State Fault Refusal :=
  .next (jumpIf (condGt (registerOperand R s) (accOperand s)) A s)

/-- `jgt $L, &A` (R188): jump_if(cond_gt, L, A). -/
def execJgtLit (L A : Word) (s : State) : Host.Outcome State Fault Refusal :=
  .next (jumpIf (condGt L (accOperand s)) A s)

/-- `jle R, &A` (R189): jump_if(cond_le, x[R], A). -/
def execJleReg (R : Reg) (A : Word) (s : State) : Host.Outcome State Fault Refusal :=
  .next (jumpIf (condLe (registerOperand R s) (accOperand s)) A s)

/-- `jle $L, &A` (R190): jump_if(cond_le, L, A). -/
def execJleLit (L A : Word) (s : State) : Host.Outcome State Fault Refusal :=
  .next (jumpIf (condLe L (accOperand s)) A s)

/-- `jge R, &A` (R191): jump_if(cond_ge, x[R], A). -/
def execJgeReg (R : Reg) (A : Word) (s : State) : Host.Outcome State Fault Refusal :=
  .next (jumpIf (condGe (registerOperand R s) (accOperand s)) A s)

/-- `jge $L, &A` (R192): jump_if(cond_ge, L, A). -/
def execJgeLit (L A : Word) (s : State) : Host.Outcome State Fault Refusal :=
  .next (jumpIf (condGe L (accOperand s)) A s)

end Sys2Proof.Machine
end

