-- ==== Sys2Proof/Machine/Move.lean ====
section
/-! DEFINITION. Data movement (spec/40_move.md R130 to R136). -/

namespace Sys2Proof.Machine

/-- `mov $L, R` (R130): x[R] <- L. -/
def execMovLitReg (L : Word) (R : Reg) (s : State) : Host.Outcome State Fault Refusal :=
  .next (s.setReg R L)

/-- `mov Ra, Rb` (R131): x[Rb] <- x[Ra]. -/
def execMovRegReg (Ra Rb : Reg) (s : State) : Host.Outcome State Fault Refusal :=
  .next (s.setReg Rb (registerOperand Ra s))

/-- `mov R, &A` (R132): MemWrite(A, 2, x[R]). -/
def execMovRegMem (R : Reg) (A : Word) (s : State) : Host.Outcome State Fault Refusal :=
  conclude .movRegMem s (memWrite .word A (registerOperand R s) s)

/-- `mov &A, R` (R133): x[R] <- MemRead(A, 2). -/
def execMovMemReg (A : Word) (R : Reg) (s : State) : Host.Outcome State Fault Refusal :=
  conclude .movMemReg s (loadReg A R s)

/-- `mov $L, &A` (R134): MemWrite(A, 2, L). -/
def execMovLitMem (L A : Word) (s : State) : Host.Outcome State Fault Refusal :=
  conclude .movLitMem s (memWrite .word A L s)

/-- `mov &Ra, Rb` (R135): x[Rb] <- MemRead(x[Ra], 2). -/
def execMovRegPtrReg (Ra Rb : Reg) (s : State) : Host.Outcome State Fault Refusal :=
  conclude .movRegPtrReg s (loadReg (pointerAddr Ra s) Rb s)

/-- `mov $L, &Ra, Rb` (R136): x[Rb] <- MemRead((L + x[Ra]) mod 2^16, 2). -/
def execMovLitOffReg (L : Word) (Ra Rb : Reg) (s : State) : Host.Outcome State Fault Refusal :=
  conclude .movLitOffReg s (loadReg (offsetAddr L Ra s) Rb s)

end Sys2Proof.Machine
end

