-- ==== Sys2Proof/Machine/StackCall.lean ====
section
/-! DEFINITION. Stack, call and return (spec/44_stack_call.md R204 to R209). -/

namespace Sys2Proof.Machine

/-- `psh $L` (R204): push(L). -/
def execPshLit (L : Word) (s : State) : Host.Outcome State Fault Refusal :=
  conclude .pshLit s (push L s)

/-- `psh R` (R205): push(x[R]); R = sp pushes the value before the decrement. -/
def execPshReg (R : Reg) (s : State) : Host.Outcome State Fault Refusal :=
  conclude .pshReg s (push (registerOperand R s) s)

/-- `pop R` (R206): v <- pop(); x[R] <- v; into `sp` the popped value wins. -/
def execPopReg (R : Reg) (s : State) : Host.Outcome State Fault Refusal :=
  conclude .popReg s (popReg R s)

/-- `cal $L` (R207): PushState(); ip <- L. -/
def execCalLit (L : Word) (s : State) : Host.Outcome State Fault Refusal :=
  conclude .calLit s (callTo L s)

/-- `cal R` (R208): t <- x[R], read before PushState; PushState(); ip <- t. -/
def execCalReg (R : Reg) (s : State) : Host.Outcome State Fault Refusal :=
  conclude .calReg s (callTo (registerOperand R s) s)

/-- `ret` (R209): PopState(); `in_handler` is neither read nor changed. -/
def execRet (s : State) : Host.Outcome State Fault Refusal :=
  conclude .ret s (popState s)

end Sys2Proof.Machine
end

