-- ==== Sys2Proof/Machine/System.lean ====
section
/-! DEFINITION. System instructions (spec/45_system.md R230 to R232). -/

namespace Sys2Proof.Machine

/-- `hlt` (R230): status <- Halted; `ip` stays after the `hlt` byte. -/
def execHlt (s : State) : Host.Outcome State Fault Refusal :=
  .next (s.setStatus .halted)

/-- `int $L` (R231): a masked interrupt is dropped; an enabled one is taken. -/
def execIntLit (L : Word) (s : State) : Host.Outcome State Fault Refusal :=
  match interruptEnabled (interruptNumber L) s with
  | false => .next s
  | true => conclude .intLit s (takeInterrupt (interruptNumber L) s)

/-- `rti` (R232): in_handler <- 0; PopState(). -/
def execRti (s : State) : Host.Outcome State Fault Refusal :=
  conclude .rti s (returnFromInterrupt s)

end Sys2Proof.Machine
end

