-- ==== Sys2Proof/Machine/Dispatch.lean ====
section
/-! DEFINITION. The one dispatch: one arm per constructor of Instr, each a direct call of that instruction's meaning. -/

namespace Sys2Proof.Machine

def exec (i : Instr) (s : State) : Host.Outcome State Fault Refusal :=
  match i with
  -- Move
  | .movLitReg L R => Sys2Proof.Machine.execMovLitReg L R s
  | .movRegReg Ra Rb => Sys2Proof.Machine.execMovRegReg Ra Rb s
  | .movRegMem R A => Sys2Proof.Machine.execMovRegMem R A s
  | .movMemReg A R => Sys2Proof.Machine.execMovMemReg A R s
  | .movLitMem L A => Sys2Proof.Machine.execMovLitMem L A s
  | .movRegPtrReg Ra Rb => Sys2Proof.Machine.execMovRegPtrReg Ra Rb s
  | .movLitOffReg L Ra Rb => Sys2Proof.Machine.execMovLitOffReg L Ra Rb s
  -- Arithmetic
  | .addRegReg Ra Rb => Sys2Proof.Machine.execAddRegReg Ra Rb s
  | .addLitReg L R => Sys2Proof.Machine.execAddLitReg L R s
  | .subRegReg Ra Rb => Sys2Proof.Machine.execSubRegReg Ra Rb s
  | .subLitReg L R => Sys2Proof.Machine.execSubLitReg L R s
  | .mulRegReg Ra Rb => Sys2Proof.Machine.execMulRegReg Ra Rb s
  | .mulLitReg L R => Sys2Proof.Machine.execMulLitReg L R s
  | .incReg R => Sys2Proof.Machine.execIncReg R s
  | .decReg R => Sys2Proof.Machine.execDecReg R s
  -- Bitwise
  | .lsfRegReg Ra Rb => Sys2Proof.Machine.execLsfRegReg Ra Rb s
  | .lsfLitReg L R => Sys2Proof.Machine.execLsfLitReg L R s
  | .rsfRegReg Ra Rb => Sys2Proof.Machine.execRsfRegReg Ra Rb s
  | .rsfLitReg L R => Sys2Proof.Machine.execRsfLitReg L R s
  | .andRegReg Ra Rb => Sys2Proof.Machine.execAndRegReg Ra Rb s
  | .andLitReg L R => Sys2Proof.Machine.execAndLitReg L R s
  | .orRegReg Ra Rb => Sys2Proof.Machine.execOrRegReg Ra Rb s
  | .orLitReg L R => Sys2Proof.Machine.execOrLitReg L R s
  | .xorRegReg Ra Rb => Sys2Proof.Machine.execXorRegReg Ra Rb s
  | .xorLitReg L R => Sys2Proof.Machine.execXorLitReg L R s
  | .notReg R => Sys2Proof.Machine.execNotReg R s
  -- Branch
  | .jeqReg R A => Sys2Proof.Machine.execJeqReg R A s
  | .jeqLit L A => Sys2Proof.Machine.execJeqLit L A s
  | .jneReg R A => Sys2Proof.Machine.execJneReg R A s
  | .jneLit L A => Sys2Proof.Machine.execJneLit L A s
  | .jltReg R A => Sys2Proof.Machine.execJltReg R A s
  | .jltLit L A => Sys2Proof.Machine.execJltLit L A s
  | .jgtReg R A => Sys2Proof.Machine.execJgtReg R A s
  | .jgtLit L A => Sys2Proof.Machine.execJgtLit L A s
  | .jleReg R A => Sys2Proof.Machine.execJleReg R A s
  | .jleLit L A => Sys2Proof.Machine.execJleLit L A s
  | .jgeReg R A => Sys2Proof.Machine.execJgeReg R A s
  | .jgeLit L A => Sys2Proof.Machine.execJgeLit L A s
  -- StackCall
  | .pshLit L => Sys2Proof.Machine.execPshLit L s
  | .pshReg R => Sys2Proof.Machine.execPshReg R s
  | .popReg R => Sys2Proof.Machine.execPopReg R s
  | .calLit L => Sys2Proof.Machine.execCalLit L s
  | .calReg R => Sys2Proof.Machine.execCalReg R s
  | .ret => Sys2Proof.Machine.execRet s
  -- System
  | .hlt => Sys2Proof.Machine.execHlt s
  | .intLit L => Sys2Proof.Machine.execIntLit L s
  | .rti => Sys2Proof.Machine.execRti s

end Sys2Proof.Machine
end

