-- ==== Sys2Proof/Machine/HostOps.lean ====
section
/-! DEFINITION. What the host does outside steps (spec/70_reset_and_hazards.md R281, R286): map a region, reset, load,
inspect. Stepping and running are in Machine/Step and Safety. No instruction does any of this (R282). -/

namespace Sys2Proof.Machine

/-- `set8` through the mapper, as the host loads bytes (R281). The CPU never makes a 1-byte write (spec/20_memory.md
R63). -/
def hostSet8 (A : Word) (b : Byte) (s : State) : Except MemError State := memWrite .byte A (b.setWidth 16) s

/-- Write bytes to consecutive addresses from `A` on, modulo 2^16; none when one is refused (R281). -/
def hostStore : Word → List Byte → State → Option State
  | _, [], s => some s
  | A, b :: bs, s =>
    match hostSet8 A b s with
    | .error _ => none
    | .ok s' => hostStore (A + 1) bs s'

/-- Load a program image at address 0 (R281): none is a load failure of the host, and the run does not start. An image
longer than 65,536 bytes cannot be loaded. -/
def hostLoad (image : List Byte) (s : State) : Option State :=
  if image.length ≤ 65536 then hostStore 0x0000 image s else none

/-- Reset, from any status (R280, R282): the state of R280 for the machine's parameters. -/
def hostReset (s : State) : State := State.resetOf s.params

/-- Add a device to the platform before reset (R286). -/
def hostAddDevice (d : Device) (p : Params) : Params := { p with devices := p.devices ++ [d] }

/-- Map a region before reset: it is added at the head of the list (R286, spec/20_memory.md R53). -/
def hostMap (r : Region) (p : Params) : Params := { p with regions := r :: p.regions }

/-- The storage of a device that serves an access under a given `mb`: its size and its bytes; none for a peripheral
(R59, R65). -/
def deviceStorage (d : Device) (mb : Word) : Option (Nat × Memory) :=
  match d with
  | .ram size m => some (size, m)
  | .banked size banks =>
    match banks[bankIndex mb banks]? with
    | none => none
    | some m => some (size, m)
  | .peripheral _ => none

/-- Inspect one byte as the CPU would address it, without any effect (R286): none where no RAM or banked RAM serves the
address. -/
def peek (s : State) (A : Word) : Option Byte :=
  match route s A with
  | none => none
  | some (r, d) =>
    match deviceStorage d (s.reg .mb) with
    | none => none
    | some (size, m) => if (localAddr r A).toNat < size then some (readByte m (localAddr r A).toNat) else none

/-- Inspect one word as the CPU would read it, without any effect (R286, spec/20_memory.md R57): none where no RAM or
banked RAM serves the access. -/
def peekWord (s : State) (A : Word) : Option Word :=
  match route s A with
  | none => none
  | some (r, d) =>
    match deviceStorage d (s.reg .mb) with
    | none => none
    | some (size, m) => storageRead size m .word (localAddr r A)

/-- The place in the devices that an address reaches under the present `mb`: the device's index, its bank (0 for plain
RAM) and the local address; none where no RAM or banked RAM serves it (spec/20_memory.md R54, R55, R65). -/
def location (s : State) (A : Word) : Option (Nat × Nat × Nat) :=
  match route s A with
  | none => none
  | some (r, .ram _ _) => some (r.device, 0, (localAddr r A).toNat)
  | some (r, .banked _ banks) => some (r.device, bankIndex (s.reg .mb) banks, (localAddr r A).toNat)
  | some (_, .peripheral _) => none

/-- Inspect one byte of a device's storage: bank `k` of device `d` at local address `L`; plain RAM has the one bank 0
(R286). -/
def deviceByte (s : State) (d k L : Nat) : Option Byte :=
  match s.devices[d]? with
  | some (.ram size m) => if k = 0 ∧ L < size then some (readByte m L) else none
  | some (.banked size banks) =>
    match banks[k]? with
    | some m => if L < size then some (readByte m L) else none
    | none => none
  | some (.peripheral _) => none
  | none => none

/-- Inspect what was written to a peripheral (spec/20_memory.md R66, R286). -/
def peripheralEvents (s : State) (d : Nat) : Option (List PeripheralEvent) :=
  match s.devices[d]? with
  | some (.peripheral events) => some events
  | _ => none

end Sys2Proof.Machine
end

