-- ==== Sys2Proof/Machine/Step.lean ====
section
/-! DEFINITION. One step (spec/70_reset_and_hazards.md R271 to R273): fetch and decode, then execute. -/

namespace Sys2Proof.Machine

/-- One step. A `next` state whose status is Running is the spec's outcome Continue, one whose status is Halted is the
outcome Halted, and `fault` is the outcome Fault (R271). Step is defined only while the status is Running. -/
def step (s : State) : Host.Outcome State Fault Refusal :=
  match s.status with
  | .running =>
    match fetchInstr s with
    | .error f => .fault f
    | .ok (i, s') => exec i s'
  | .halted => .refused .stepAfterHalt
  | .faulted f => .refused (.stepAfterFault f)

/-- The status after a step from a Running state (R240, R271, R272): a fault sets it to Faulted with its kind and
information. -/
def statusAfter (o : Host.Outcome State Fault Refusal) (s : State) : Status :=
  match o with
  | .next s' => s'.status
  | .fault f => .faulted f
  | .refused _ => s.status

/-- The state with an instruction word's bytes stored where the next step fetches, and running (log entry 12). Where no
RAM takes the bytes, only the status is set. -/
def State.withFetchWord (s : State) (nbits w : Nat) : State :=
  match hostStore (s.reg .ip) (wordBytes nbits w maxInstrBytes) s with
  | some s' => s'.setStatus .running
  | none => s.setStatus .running

end Sys2Proof.Machine
end

