-- ==== Sys2Proof/Safety.lean ====
section
/-! DEFINITION. What counts as a safe run, in the terms the claims use: the end of a run (spec/70_reset_and_hazards.md
R271, R274, R275), the invariants of the state, what an instruction may write, and what it means that a word can be
accessed. -/

namespace Sys2Proof.Machine

/-! ## Runs -/

/-- How a run under a step bound ends (R274, R275, R286). -/
inductive RunEnd where
  | halted (s : State)
  | faulted (f : Fault)
  | boundReached (s : State)
  deriving DecidableEq, Repr

/-- `Run()` under a bound: `Step` while the status is Running (R271). Reaching the bound is neither Halted nor Faulted
(R275). -/
def run : Nat → State → RunEnd
  | k, s =>
    match s.status with
    | .halted => .halted s
    | .faulted f => .faulted f
    | .running =>
      match k with
      | 0 => .boundReached s
      | k + 1 =>
        match step s with
        | .next s' => run k s'
        | .fault f => .faulted f
        | .refused _ => .boundReached s

/-! ## Invariants -/

/-- Every device is well formed: its memories are canonical (spec/20_memory.md R52, R64). -/
def stateWf (s : State) : Bool := s.devices.all deviceWf

/-- A device without its content: its kind and its sizes, which are parameters (spec/10_state.md R37). -/
def deviceShape : Device → Device
  | .ram size _ => .ram size []
  | .banked size banks => .banked size (banks.map fun _ => [])
  | .peripheral _ => .peripheral []

/-- The devices are those of the platform, whatever they hold (spec/10_state.md R37). -/
def shapesKept (s : State) : Prop := s.devices.map deviceShape = s.params.devices.map deviceShape

/-- The stack invariant `x[fp] - x[sp] = fsize (mod 2^16)` (spec/10_state.md R38). -/
def StackInv (s : State) : Prop := s.reg .fp - s.reg .sp = s.fsize

/-! ## What an instruction may write -/

/-- The register an instruction's rule names as its destination, apart from what a jump, a stack primitive or an
interrupt writes (spec/40_move.md to spec/45_system.md). -/
def destReg : Instr → Option Reg
  | .movLitReg _ R => some R
  | .movRegReg _ Rb => some Rb
  | .movRegMem _ _ => none
  | .movMemReg _ R => some R
  | .movLitMem _ _ => none
  | .movRegPtrReg _ Rb => some Rb
  | .movLitOffReg _ _ Rb => some Rb
  | .addRegReg _ _ | .addLitReg _ _ | .subRegReg _ _ | .subLitReg _ _ | .mulRegReg _ _ | .mulLitReg _ _ => some .acc
  | .incReg R | .decReg R => some R
  | .lsfRegReg Ra _ | .rsfRegReg Ra _ | .andRegReg Ra _ | .orRegReg Ra _ | .xorRegReg Ra _ => some Ra
  | .lsfLitReg _ _ | .rsfLitReg _ _ | .andLitReg _ _ | .orLitReg _ _ | .xorLitReg _ _ | .notReg _ => some .acc
  | .jeqReg _ _ | .jeqLit _ _ | .jneReg _ _ | .jneLit _ _ | .jltReg _ _ | .jltLit _ _ => none
  | .jgtReg _ _ | .jgtLit _ _ | .jleReg _ _ | .jleLit _ _ | .jgeReg _ _ | .jgeLit _ _ => none
  | .pshLit _ | .pshReg _ => none
  | .popReg R => some R
  | .calLit _ | .calReg _ | .ret | .hlt | .intLit _ | .rti => none

/-- The registers an instruction writes besides its destination: `ip` by a jump, `sp` by push and pop, and those of
PushState and PopState (spec/43_branch.md R180, spec/44_stack_call.md R200 to R203, spec/45_system.md R231). -/
def implicitRegs : Instr → List Reg
  | .movLitReg _ _ | .movRegReg _ _ | .movRegMem _ _ | .movMemReg _ _ | .movLitMem _ _ | .movRegPtrReg _ _ => []
  | .movLitOffReg _ _ _ => []
  | .addRegReg _ _ | .addLitReg _ _ | .subRegReg _ _ | .subLitReg _ _ | .mulRegReg _ _ | .mulLitReg _ _ => []
  | .incReg _ | .decReg _ | .notReg _ => []
  | .lsfRegReg _ _ | .lsfLitReg _ _ | .rsfRegReg _ _ | .rsfLitReg _ _ => []
  | .andRegReg _ _ | .andLitReg _ _ | .orRegReg _ _ | .orLitReg _ _ | .xorRegReg _ _ | .xorLitReg _ _ => []
  | .jeqReg _ _ | .jeqLit _ _ | .jneReg _ _ | .jneLit _ _ | .jltReg _ _ | .jltLit _ _ => [.ip]
  | .jgtReg _ _ | .jgtLit _ _ | .jleReg _ _ | .jleLit _ _ | .jgeReg _ _ | .jgeLit _ _ => [.ip]
  | .pshLit _ | .pshReg _ | .popReg _ => [.sp]
  | .calLit _ | .calReg _ | .intLit _ => [.ip, .sp, .fp]
  | .ret | .rti => [.ip, .sp, .fp, .r1, .r2, .r3, .r4, .r5, .r6, .r7, .r8]
  | .hlt => []

/-- An instruction uses the stack primitives, which alone change `fsize` (spec/10_state.md R32). -/
def usesStack : Instr → Bool
  | .movLitReg _ _ | .movRegReg _ _ | .movRegMem _ _ | .movMemReg _ _ | .movLitMem _ _ | .movRegPtrReg _ _ => false
  | .movLitOffReg _ _ _ => false
  | .addRegReg _ _ | .addLitReg _ _ | .subRegReg _ _ | .subLitReg _ _ | .mulRegReg _ _ | .mulLitReg _ _ => false
  | .incReg _ | .decReg _ | .notReg _ => false
  | .lsfRegReg _ _ | .lsfLitReg _ _ | .rsfRegReg _ _ | .rsfLitReg _ _ => false
  | .andRegReg _ _ | .andLitReg _ _ | .orRegReg _ _ | .orLitReg _ _ | .xorRegReg _ _ | .xorLitReg _ _ => false
  | .jeqReg _ _ | .jeqLit _ _ | .jneReg _ _ | .jneLit _ _ | .jltReg _ _ | .jltLit _ _ => false
  | .jgtReg _ _ | .jgtLit _ _ | .jleReg _ _ | .jleLit _ _ | .jgeReg _ _ | .jgeLit _ _ => false
  | .pshLit _ | .pshReg _ | .popReg _ | .calLit _ | .calReg _ | .ret | .intLit _ | .rti => true
  | .hlt => false

/-- An instruction can write memory: the two stores, push, call and interrupt entry (spec/20_memory.md R63). -/
def canStore : Instr → Bool
  | .movRegMem _ _ | .movLitMem _ _ | .pshLit _ | .pshReg _ | .calLit _ | .calReg _ | .intLit _ => true
  | .movLitReg _ _ | .movRegReg _ _ | .movMemReg _ _ | .movRegPtrReg _ _ | .movLitOffReg _ _ _ => false
  | .addRegReg _ _ | .addLitReg _ _ | .subRegReg _ _ | .subLitReg _ _ | .mulRegReg _ _ | .mulLitReg _ _ => false
  | .incReg _ | .decReg _ | .notReg _ => false
  | .lsfRegReg _ _ | .lsfLitReg _ _ | .rsfRegReg _ _ | .rsfLitReg _ _ => false
  | .andRegReg _ _ | .andLitReg _ _ | .orRegReg _ _ | .orLitReg _ _ | .xorRegReg _ _ | .xorLitReg _ _ => false
  | .jeqReg _ _ | .jeqLit _ _ | .jneReg _ _ | .jneLit _ _ | .jltReg _ _ | .jltLit _ _ => false
  | .jgtReg _ _ | .jgtLit _ _ | .jleReg _ _ | .jleLit _ _ | .jgeReg _ _ | .jgeLit _ _ => false
  | .popReg _ | .ret | .hlt | .rti => false

/-- `t` is `s` with `v` in register `r`: every other register and every other piece of state is as it was. -/
def OnlyReg (s t : State) (r : Reg) (v : Word) : Prop :=
  (∀ q, t.reg q = if q = r then v else s.reg q) ∧ t.fsize = s.fsize ∧ t.inHandler = s.inHandler ∧
    t.status = s.status ∧ t.devices = s.devices ∧ t.draws = s.draws ∧ t.params = s.params

/-! ## Words that can be accessed -/

/-- A 2-byte access at `A` is served by a RAM or banked-RAM device (spec/20_memory.md R57, R59, R65). -/
def wordServed (s : State) (A : Word) : Bool := (peekWord s A).isSome

/-- The words of the `n` stack slots from `A` downward are served. -/
def slotsServed (s : State) (A : Word) (n : Nat) : Prop := ∀ k < n, wordServed s (A - BitVec.ofNat 16 (2 * k)) = true

/-- A place in the devices is not one of the two bytes that a 2-byte store at `A` writes. -/
def OutsideStore (s : State) (A : Word) (d k L : Nat) : Prop :=
  ∀ d' k' L', location s A = some (d', k', L') → ¬ (d = d' ∧ k = k' ∧ (L = L' ∨ L = L' + 1))

/-- A place in the devices is in none of the `n` stack slots from `A` downward. -/
def OutsideSlots (s : State) (A : Word) (n : Nat) (d k L : Nat) : Prop :=
  ∀ j < n, OutsideStore s (A - BitVec.ofNat 16 (2 * j)) d k L

/-- From `s` to `t` memory changes as one 2-byte store of `v` at `A` changes it: the word at `A` is `v`, every byte of
every device other than its two bytes is as it was, and so is what every peripheral recorded (spec/20_memory.md R57,
R58). -/
def MemStored (s t : State) (A v : Word) : Prop :=
  peekWord t A = some v ∧ (∀ d k L, OutsideStore s A d k L → deviceByte t d k L = deviceByte s d k L) ∧
    ∀ d, peripheralEvents t d = peripheralEvents s d

/-- `t` is `s` with `v` stored at `A` and nothing else changed. -/
def OnlyStored (s t : State) (A v : Word) : Prop :=
  MemStored s t A v ∧ (∀ r, t.reg r = s.reg r) ∧ t.fsize = s.fsize ∧ t.inHandler = s.inHandler ∧
    t.status = s.status ∧ t.draws = s.draws ∧ t.params = s.params

/-- The default platform: one RAM of 65,536 bytes over the whole space, remap off (spec/20_memory.md R59, R69). -/
def Flat (s : State) : Prop := s.params.regions = defaultRegions ∧ ∃ m, s.devices = [.ram 65536 m]

/-- The operand bytes `bs` of a layout are served from address `A` on, each field by one access of its own width
(spec/00_scope.md R10, spec/30_encoding.md R91). -/
def FieldsAt (s : State) : Word → List FieldKind → List Byte → Prop
  | _, [], [] => True
  | A, .lit :: ks, h :: l :: bs => peekWord s A = some (bigEndian h l) ∧ FieldsAt s (A + 2) ks bs
  | A, .addr :: ks, h :: l :: bs => peekWord s A = some (bigEndian h l) ∧ FieldsAt s (A + 2) ks bs
  | A, .ra :: ks, b :: bs => peek s A = some b ∧ FieldsAt s (A + 1) ks bs
  | A, .rb :: ks, b :: bs => peek s A = some b ∧ FieldsAt s (A + 1) ks bs
  | _, _, _ => False

/-- The bytes `bs` of an instruction of descriptor `o` are served at `ip`. -/
def CodeAt (s : State) (o : Op) : List Byte → Prop
  | [] => False
  | b :: bs => peek s (s.reg .ip) = some b ∧ FieldsAt s (s.reg .ip + 1) o.format.layout bs

/-- The instruction is encoded as these bytes, under any opcode map that lists the first byte for its descriptor
(spec/30_encoding.md R91). The map stays a hypothesis because its default values are the spec's decision D1. -/
def EncodedAs (i : Instr) : List Byte → Prop
  | [] => False
  | b :: bs => ∀ t, byteOfOp t i.op = some b → encode t i = some (b :: bs)

/-- A refused operand fetch of an instruction with opcode byte `b` and descriptor `o` ends the step with MemoryFault, under
any opcode map that reads `b` as `o` (spec/00_scope.md R10, spec/30_encoding.md R99). -/
def FetchFaults (b : Byte) (o : Op) : Prop :=
  ∀ (s s₁ : State) (e : MemError), s.status = .running → opOfByte s.params.opcodes b = some o →
    fetch8 s = .ok (b, s₁) → readFields fetch8 fetch16 o.format.layout noFields s₁ = .error e →
    step s = .fault (memFault (s.reg .ip) e)

/-- Once all fields are fetched, a register byte that names no register ends the step with IllegalInstruction
(spec/30_encoding.md R96, R99). -/
def RegisterFaults (b : Byte) (o : Op) : Prop :=
  ∀ (s s₁ s₂ : State) (f : Fields) (x : Byte), s.status = .running → opOfByte s.params.opcodes b = some o →
    fetch8 s = .ok (b, s₁) → readFields fetch8 fetch16 o.format.layout noFields s₁ = .ok (f, s₂) →
    fieldRegs f = .error x → step s = .fault (.illegalInstruction (s.reg .ip) b x)

/-- The descriptor has no register byte, so fields that are fetched always pass: IllegalInstruction cannot occur. -/
def NoRegisterByte (o : Op) : Prop :=
  ∀ (s₁ s₂ : State) (f : Fields), readFields fetch8 fetch16 o.format.layout noFields s₁ = .ok (f, s₂) →
    fieldRegs f = .ok (.ip, .ip)

/-- The faults an instruction with a register byte shares with all such instructions. -/
def CommonFaults (b : Byte) (o : Op) : Prop := FetchFaults b o ∧ RegisterFaults b o

/-- The opcode address a fault records (spec/60_exceptions.md R241). -/
def faultAddr : Fault → Word
  | .unknownOpcode a _ => a
  | .illegalInstruction a _ _ => a
  | .memoryFault a _ _ _ => a

end Sys2Proof.Machine
end

