-- ==== Sys2Proof/Certificates/Slice0/Obligations.lean ====
section
/-! DEFINITION. The statements about the machine, for the provers. Each docstring names the rule of spec/ it formalises;
where a rule is one of the spec's own decisions (spec/92_eei_decisions.md, D<n>) or derivations, the docstring says so. -/

open Sys2Proof Sys2Proof.Machine

/-! ## Reset -/

/-- What reset leaves, for any parameters and at their defaults (R20, R32 to R34, R280; the spec's decision D10). -/
def Obligations.ResetLeavesTheStatedValues : Prop :=
  (∀ p r, (State.resetOf p).reg r =
      if r = .sp ∨ r = .fp then p.stackTop else if r = .im then p.imReset else 0) ∧
    (∀ p, (State.resetOf p).fsize = 0 ∧ (State.resetOf p).inHandler = false ∧
      (State.resetOf p).status = .running ∧ (State.resetOf p).devices = p.devices) ∧
    State.reset.reg .ip = 0x0000 ∧ State.reset.reg .sp = 0xFFFE ∧ State.reset.reg .fp = 0xFFFE ∧
    State.reset.reg .im = 0xFFFF ∧ State.reset.params.vectorBase = 0x1000

/-- At the defaults every address is mapped and reads 0 after reset (R59, R69, R280; the spec's decisions D9, D31). -/
def Obligations.ResetMemoryReadsZero : Prop := ∀ A, peek State.reset A = some 0

/-- The invariants hold after reset under well-formed parameters, and the defaults are well formed (entries 1 to 5). -/
def Obligations.ResetIsWellFormed : Prop :=
  (∀ p, paramsWf p = true → stateWf (State.resetOf p) = true ∧ shapesKept (State.resetOf p) ∧
      StackInv (State.resetOf p)) ∧
    paramsWf defaultParams = true

/-! ## Encoding -/

/-- Decoding the encoding of a well-formed instruction gives it back with the bytes that follow, under every well-formed
opcode map (R90, R91, R99). -/
def Obligations.DecodeOfEncodeIsTheInstruction : Prop :=
  ∀ t i, opcodesWf t = true → instrWf t i = true →
    ∃ bs, encode t i = some bs ∧ ∀ rest, decode t (bs ++ rest) = .ok (i, rest)

/-- Bytes that decode are the encoding of what they decode to, under every well-formed opcode map: no byte string has two
meanings and none is dropped (R90, R91, R99). -/
def Obligations.EncodeOfDecodeIsTheBytes : Prop :=
  ∀ t bs i rest, opcodesWf t = true → decode t bs = .ok (i, rest) →
    ∃ pre, encode t i = some pre ∧ bs = pre ++ rest

/-- An instruction is 1 to 5 bytes long, and the opcode byte alone gives the length (R98). -/
def Obligations.OpcodeByteAloneGivesTheLength : Prop :=
  ∀ t op bs i rest, decode t (op :: bs) = .ok (i, rest) →
    ∃ o, opOfByte t op = some o ∧ (op :: bs).length = o.size + rest.length ∧ 1 ≤ o.size ∧ o.size ≤ 5

/-- Some words written out from the default opcode map decode to the instruction they stand for (R91, R100; D1). -/
def Obligations.SpelledWordsDecode : Prop :=
  decode defaultOpcodes [0x10, 0x12, 0x34, 0x02] = .ok (.movLitReg 0x1234 .r1, []) ∧
    decode defaultOpcodes [0x13, 0x00, 0x50, 0x04] = .ok (.movMemReg 0x0050 .r3, []) ∧
    decode defaultOpcodes [0x1F, 0x02, 0x03] = .ok (.subRegReg .r1 .r2, []) ∧
    decode defaultOpcodes [0x2A, 0x00, 0x08, 0x02] = .ok (.rsfLitReg 0x0008 .r1, []) ∧
    decode defaultOpcodes [0x15, 0x00, 0x0A, 0x00, 0x04] = .ok (.jneLit 0x000A 0x0004, []) ∧
    decode defaultOpcodes [0x1D, 0x00, 0x18, 0x0B, 0x03] = .ok (.movLitOffReg 0x0018 .fp .r2, []) ∧
    decode defaultOpcodes [0x5F, 0x06] = .ok (.calReg .r5, []) ∧
    decode defaultOpcodes [0xFD, 0x00, 0x13] = .ok (.intLit 0x0013, [])

/-- The 209 unrecognized opcodes of the default map, and what fetching one does under any map (R101; D1). -/
def Obligations.UnrecognizedOpcodeFaults : Prop :=
  (∀ b : Byte, opOfByte defaultOpcodes b = none ↔
      b.toNat ≤ 0x0F ∨ b.toNat = 0x19 ∨ b.toNat = 0x1E ∨ (0x22 ≤ b.toNat ∧ b.toNat ≤ 0x25) ∨ b.toNat = 0x28 ∨
        b.toNat = 0x29 ∨ b.toNat = 0x2C ∨ b.toNat = 0x2D ∨ (0x37 ≤ b.toNat ∧ b.toNat ≤ 0x3D) ∨
        (0x4A ≤ b.toNat ∧ b.toNat ≤ 0x5D) ∨ (0x61 ≤ b.toNat ∧ b.toNat ≤ 0xFB) ∨ b.toNat = 0xFE) ∧
    ∀ s s₁ b, s.status = .running → fetch8 s = .ok (b, s₁) → opOfByte s.params.opcodes b = none →
      step s = .fault (.unknownOpcode (s.reg .ip) b)

/-- A register byte of 14 or more is refused, the first in layout order (R96, R242; the spec's decision D4). -/
def Obligations.FirstBadRegisterByteIsReported : Prop :=
  ∀ f x, fieldRegs f = .error x ↔
    (14 ≤ f.ra.toNat ∧ x = f.ra) ∨ (f.ra.toNat < 14 ∧ 14 ≤ f.rb.toNat ∧ x = f.rb)

/-! ## One step -/

/-- Every instruction, under every opcode map: a refused operand fetch is a MemoryFault of that fetch, and a register
byte of 14 or more an IllegalInstruction once every field is fetched (R10, R96, R99, R241, R248; the spec's decisions
D4, D5). -/
def Obligations.EveryInstructionSharesItsFetchFaults : Prop := ∀ b o, FetchFaults b o ∧ RegisterFaults b o

/-- A step runs the decoded instruction: when the bytes served at `ip` decode to `i`, a step is `exec` of `i` with `ip`
at the next instruction (R272, R273, R24). -/
def Obligations.StepRunsTheDecodedInstruction : Prop :=
  ∀ s i bs, s.status = .running → decode s.params.opcodes bs = .ok (i, []) → CodeAt s i.op bs →
    step s = exec i (s.setReg .ip (s.reg .ip + BitVec.ofNat 16 i.op.size))

/-- The same on the default platform, where plain bytes of memory are code: any bytes at `ip` that decode, as long as the
instruction does not run past 0xFFFF (R272, R273, R57; the spec's decisions D5, D7, D9). -/
def Obligations.BytesInFlatMemoryAreCode : Prop :=
  ∀ s i rest (bs : List Byte), s.status = .running → Flat s → decode s.params.opcodes bs = .ok (i, rest) →
    (s.reg .ip).toNat + i.op.size ≤ 65536 →
    (∀ k (h : k < bs.length), k < i.op.size → peek s (s.reg .ip + BitVec.ofNat 16 k) = some bs[k]) →
    step s = exec i (s.setReg .ip (s.reg .ip + BitVec.ofNat 16 i.op.size))

/-- An opcode fetch that no region serves faults with the opcode's own address (R272, R56). -/
def Obligations.UnmappedOpcodeFetchFaults : Prop :=
  ∀ s, s.status = .running → findRegion s.params.regions (s.reg .ip) = none →
    step s = .fault (.memoryFault (s.reg .ip) (s.reg .ip) .byte .read)

/-- One step from Running ends in exactly one of three outcomes: Continue, Halted exactly when the instruction was
`hlt`, or a fault, which makes the status Faulted; there is no step from Halted or Faulted; a run steps while the
status is Running (R271). -/
def Obligations.StepEndsInOneOfThreeOutcomes : Prop :=
  (∀ s, s.status = .running →
      (∃ t, step s = .next t ∧ t.status = .running ∧ ∀ u, fetchInstr s ≠ .ok (.hlt, u)) ∨
      (∃ t, step s = .next t ∧ t.status = .halted ∧ ∃ u, fetchInstr s = .ok (.hlt, u)) ∨
      (∃ f, step s = .fault f ∧ statusAfter (step s) s = .faulted f)) ∧
    (∀ s, s.status ≠ .running → ∃ r, step s = .refused r) ∧
    (∀ k s t, s.status = .running → step s = .next t → run (k + 1) s = run k t) ∧
    (∀ k s f, s.status = .running → step s = .fault f → run (k + 1) s = .faulted f) ∧
    (∀ k s, s.status = .halted → run k s = .halted s) ∧ ∀ k s f, s.status = .faulted f → run k s = .faulted f

/-- Every fault of a step records the address of the opcode byte (R241; the spec's decision D35). -/
def Obligations.FaultsRecordTheOpcodeAddress : Prop :=
  ∀ s f, s.status = .running → step s = .fault f → faultAddr f = s.reg .ip

/-- After its fetch no instruction is refused, and the only fault is a MemoryFault of a 2-byte access (R63, R242,
R248). -/
def Obligations.ExecutionFaultsOnlyOnWordAccesses : Prop :=
  ∀ i s, (∀ r, exec i s ≠ .refused r) ∧
    ∀ f, exec i s = .fault f →
      ∃ A dir, f = .memoryFault (s.reg .ip - BitVec.ofNat 16 i.op.size) A .word dir

/-! ## Data movement -/

/-- `mov $L, R` and `mov Ra, Rb`: encoding, faults, result and frame, under any opcode table that lists the rules'
opcode bytes (R130, R131). -/
def Obligations.MoveToRegister : Prop :=
  CommonFaults 0x10 .movLitReg ∧ CommonFaults 0x11 .movRegReg ∧
    (∀ L R, EncodedAs (.movLitReg L R) [0x10, hiByte L, loByte L, R.byte]) ∧
    (∀ Ra Rb, EncodedAs (.movRegReg Ra Rb) [0x11, Ra.byte, Rb.byte]) ∧
    (∀ L R s, ∃ t, exec (.movLitReg L R) s = .next t ∧ OnlyReg s t R L) ∧
    ∀ Ra Rb s, ∃ t, exec (.movRegReg Ra Rb) s = .next t ∧ OnlyReg s t Rb (s.reg Ra)

/-- `mov R, &A` and `mov $L, &A` end in the state after the 2-byte write, or, where it is refused, in a MemoryFault;
where RAM or banked RAM serves the word, the word is stored and nothing else changes (R132, R134). -/
def Obligations.MoveToMemory : Prop :=
  CommonFaults 0x12 .movRegMem ∧ FetchFaults 0x1B .movLitMem ∧ NoRegisterByte .movLitMem ∧
    (∀ R A, EncodedAs (.movRegMem R A) [0x12, R.byte, hiByte A, loByte A]) ∧
    (∀ L A, EncodedAs (.movLitMem L A) [0x1B, hiByte L, loByte L, hiByte A, loByte A]) ∧
    (∀ R A s, stateWf s = true → wordServed s A = true →
      ∃ t, exec (.movRegMem R A) s = .next t ∧ OnlyStored s t A (s.reg R)) ∧
    (∀ L A s, stateWf s = true → wordServed s A = true →
      ∃ t, exec (.movLitMem L A) s = .next t ∧ OnlyStored s t A L) ∧
    (∀ R A s t, memWrite .word A (s.reg R) s = .ok t → exec (.movRegMem R A) s = .next t) ∧
    (∀ L A s t, memWrite .word A L s = .ok t → exec (.movLitMem L A) s = .next t) ∧
    (∀ R A s e, memWrite .word A (s.reg R) s = .error e →
      exec (.movRegMem R A) s = .fault (.memoryFault (s.reg .ip - 4) A .word .write)) ∧
    ∀ L A s e, memWrite .word A L s = .error e →
      exec (.movLitMem L A) s = .fault (.memoryFault (s.reg .ip - 5) A .word .write)

/-- `mov &Ra, Rb`: the word at the pointer, read before `Rb` is written, from any device; a refused read is a MemoryFault
(R135). -/
def Obligations.MoveThroughPointer : Prop :=
  CommonFaults 0x1C .movRegPtrReg ∧
    (∀ Ra Rb, EncodedAs (.movRegPtrReg Ra Rb) [0x1C, Ra.byte, Rb.byte]) ∧
    (∀ Ra Rb s v, peekWord s (s.reg Ra) = some v →
      ∃ t, exec (.movRegPtrReg Ra Rb) s = .next t ∧ OnlyReg s t Rb v) ∧
    (∀ Ra Rb s v t, memRead .word (s.reg Ra) s = .ok (v, t) → exec (.movRegPtrReg Ra Rb) s = .next (t.setReg Rb v)) ∧
    ∀ Ra Rb s e, memRead .word (s.reg Ra) s = .error e →
      exec (.movRegPtrReg Ra Rb) s = .fault (.memoryFault (s.reg .ip - 3) (s.reg Ra) .word .read)

/-- `mov &A, R` and `mov $L, &Ra, Rb`: the word at the absolute address, and at the literal plus the register modulo
2^16; a refused read is a MemoryFault; in the encoding of `mov &A, R` the address comes first (R133, R136; the spec's
decisions D2, D7). -/
def Obligations.MoveFromMemory : Prop :=
  (∀ A R, EncodedAs (.movMemReg A R) [0x13, hiByte A, loByte A, R.byte]) ∧
    (∀ L Ra Rb, EncodedAs (.movLitOffReg L Ra Rb) [0x1D, hiByte L, loByte L, Ra.byte, Rb.byte]) ∧
    (∀ A R s v, peekWord s A = some v → ∃ t, exec (.movMemReg A R) s = .next t ∧ OnlyReg s t R v) ∧
    (∀ L Ra Rb s v, peekWord s (BitVec.ofNat 16 (L.toNat + (s.reg Ra).toNat)) = some v →
      ∃ t, exec (.movLitOffReg L Ra Rb) s = .next t ∧ OnlyReg s t Rb v) ∧
    (∀ A R s v t, memRead .word A s = .ok (v, t) → exec (.movMemReg A R) s = .next (t.setReg R v)) ∧
    (∀ L Ra Rb s v t, memRead .word (BitVec.ofNat 16 (L.toNat + (s.reg Ra).toNat)) s = .ok (v, t) →
      exec (.movLitOffReg L Ra Rb) s = .next (t.setReg Rb v)) ∧
    (∀ A R s e, memRead .word A s = .error e →
      exec (.movMemReg A R) s = .fault (.memoryFault (s.reg .ip - 4) A .word .read)) ∧
    ∀ L Ra Rb s e, memRead .word (BitVec.ofNat 16 (L.toNat + (s.reg Ra).toNat)) s = .error e →
      exec (.movLitOffReg L Ra Rb) s =
        .fault (.memoryFault (s.reg .ip - 5) (BitVec.ofNat 16 (L.toNat + (s.reg Ra).toNat)) .word .read)

/-! ## Arithmetic -/

/-- `add`: the sum modulo 2^16 goes to `acc` (R140, R141). -/
def Obligations.AddIntoAccumulator : Prop :=
  CommonFaults 0x14 .addRegReg ∧ CommonFaults 0x3F .addLitReg ∧
    (∀ Ra Rb, EncodedAs (.addRegReg Ra Rb) [0x14, Ra.byte, Rb.byte]) ∧
    (∀ L R, EncodedAs (.addLitReg L R) [0x3F, hiByte L, loByte L, R.byte]) ∧
    (∀ Ra Rb s, ∃ t v, exec (.addRegReg Ra Rb) s = .next t ∧ OnlyReg s t .acc v ∧
      v.toNat = ((s.reg Ra).toNat + (s.reg Rb).toNat) % 65536) ∧
    ∀ L R s, ∃ t v, exec (.addLitReg L R) s = .next t ∧ OnlyReg s t .acc v ∧
      v.toNat = (L.toNat + (s.reg R).toNat) % 65536

/-- `sub`: the first register minus the second, and the register minus the literal, modulo 2^16, go to `acc`; the
encodings, under any opcode table that lists the rules' opcode bytes (R142, R143; the spec's decision D13). -/
def Obligations.SubtractIntoAccumulator : Prop :=
  (∀ Ra Rb, EncodedAs (.subRegReg Ra Rb) [0x1F, Ra.byte, Rb.byte]) ∧
    (∀ L R, EncodedAs (.subLitReg L R) [0x16, hiByte L, loByte L, R.byte]) ∧
    (∀ Ra Rb s, ∃ t v, exec (.subRegReg Ra Rb) s = .next t ∧ OnlyReg s t .acc v ∧
      (v.toNat : Int) = ((s.reg Ra).toNat - (s.reg Rb).toNat : Int) % 65536) ∧
    ∀ L R s, ∃ t v, exec (.subLitReg L R) s = .next t ∧ OnlyReg s t .acc v ∧
      (v.toNat : Int) = ((s.reg R).toNat - L.toNat : Int) % 65536

/-- `mul`: the low 16 bits of the unsigned product go to `acc` (R144, R145). -/
def Obligations.MultiplyIntoAccumulator : Prop :=
  CommonFaults 0x21 .mulRegReg ∧ CommonFaults 0x20 .mulLitReg ∧
    (∀ Ra Rb, EncodedAs (.mulRegReg Ra Rb) [0x21, Ra.byte, Rb.byte]) ∧
    (∀ L R, EncodedAs (.mulLitReg L R) [0x20, hiByte L, loByte L, R.byte]) ∧
    (∀ Ra Rb s, ∃ t v, exec (.mulRegReg Ra Rb) s = .next t ∧ OnlyReg s t .acc v ∧
      v.toNat = ((s.reg Ra).toNat * (s.reg Rb).toNat) % 65536) ∧
    ∀ L R s, ∃ t v, exec (.mulLitReg L R) s = .next t ∧ OnlyReg s t .acc v ∧
      v.toNat = (L.toNat * (s.reg R).toNat) % 65536

/-- `inc` and `dec` change their register by one modulo 2^16, in place (R146, R147). -/
def Obligations.IncrementAndDecrementInPlace : Prop :=
  CommonFaults 0x35 .incReg ∧ CommonFaults 0x36 .decReg ∧
    (∀ R, EncodedAs (.incReg R) [0x35, R.byte]) ∧
    (∀ R, EncodedAs (.decReg R) [0x36, R.byte]) ∧
    (∀ R s, ∃ t v, exec (.incReg R) s = .next t ∧ OnlyReg s t R v ∧ v.toNat = ((s.reg R).toNat + 1) % 65536) ∧
    ∀ R s, ∃ t v, exec (.decReg R) s = .next t ∧ OnlyReg s t R v ∧ v.toNat = ((s.reg R).toNat + 65535) % 65536

/-! ## Shifts and logic -/

/-- `lsf` and `rsf`: logical shifts, 0 for an amount of 16 or more, in place in the register forms and into `acc` in
the literal forms; the encodings, under any opcode table that lists the rules' opcode bytes (R160 to R164; the spec's
decision D15). -/
def Obligations.ShiftsAreLogical : Prop :=
  (∀ Ra Rb, EncodedAs (.lsfRegReg Ra Rb) [0x27, Ra.byte, Rb.byte]) ∧
    (∀ L R, EncodedAs (.lsfLitReg L R) [0x26, hiByte L, loByte L, R.byte]) ∧
    (∀ Ra Rb, EncodedAs (.rsfRegReg Ra Rb) [0x2B, Ra.byte, Rb.byte]) ∧
    (∀ L R, EncodedAs (.rsfLitReg L R) [0x2A, hiByte L, loByte L, R.byte]) ∧
    (∀ Ra Rb s, ∃ t v, exec (.lsfRegReg Ra Rb) s = .next t ∧ OnlyReg s t Ra v ∧
      v.toNat = if (s.reg Rb).toNat < 16 then (s.reg Ra).toNat * 2 ^ (s.reg Rb).toNat % 65536 else 0) ∧
    (∀ L R s, ∃ t v, exec (.lsfLitReg L R) s = .next t ∧ OnlyReg s t .acc v ∧
      v.toNat = if L.toNat < 16 then (s.reg R).toNat * 2 ^ L.toNat % 65536 else 0) ∧
    (∀ Ra Rb s, ∃ t v, exec (.rsfRegReg Ra Rb) s = .next t ∧ OnlyReg s t Ra v ∧
      v.toNat = if (s.reg Rb).toNat < 16 then (s.reg Ra).toNat / 2 ^ (s.reg Rb).toNat else 0) ∧
    ∀ L R s, ∃ t v, exec (.rsfLitReg L R) s = .next t ∧ OnlyReg s t .acc v ∧
      v.toNat = if L.toNat < 16 then (s.reg R).toNat / 2 ^ L.toNat else 0

/-- `and`, `or` and `xor` of two registers write the first register, bit by bit (R165, R167, R169). -/
def Obligations.LogicInPlace : Prop :=
  CommonFaults 0x2F .andRegReg ∧ CommonFaults 0x31 .orRegReg ∧ CommonFaults 0x33 .xorRegReg ∧
    (∀ Ra Rb, EncodedAs (.andRegReg Ra Rb) [0x2F, Ra.byte, Rb.byte]) ∧
    (∀ Ra Rb, EncodedAs (.orRegReg Ra Rb) [0x31, Ra.byte, Rb.byte]) ∧
    (∀ Ra Rb, EncodedAs (.xorRegReg Ra Rb) [0x33, Ra.byte, Rb.byte]) ∧
    (∀ Ra Rb s, ∃ t v, exec (.andRegReg Ra Rb) s = .next t ∧ OnlyReg s t Ra v ∧
      ∀ k < 16, v.getLsbD k = ((s.reg Ra).getLsbD k && (s.reg Rb).getLsbD k)) ∧
    (∀ Ra Rb s, ∃ t v, exec (.orRegReg Ra Rb) s = .next t ∧ OnlyReg s t Ra v ∧
      ∀ k < 16, v.getLsbD k = ((s.reg Ra).getLsbD k || (s.reg Rb).getLsbD k)) ∧
    ∀ Ra Rb s, ∃ t v, exec (.xorRegReg Ra Rb) s = .next t ∧ OnlyReg s t Ra v ∧
      ∀ k < 16, v.getLsbD k = ((s.reg Ra).getLsbD k ^^ (s.reg Rb).getLsbD k)

/-- `and`, `or` and `xor` with a literal write `acc`, bit by bit, and not their register (R166, R168, R170). -/
def Obligations.LogicWithLiteralIntoAccumulator : Prop :=
  CommonFaults 0x2E .andLitReg ∧ CommonFaults 0x30 .orLitReg ∧ CommonFaults 0x32 .xorLitReg ∧
    (∀ L R, EncodedAs (.andLitReg L R) [0x2E, hiByte L, loByte L, R.byte]) ∧
    (∀ L R, EncodedAs (.orLitReg L R) [0x30, hiByte L, loByte L, R.byte]) ∧
    (∀ L R, EncodedAs (.xorLitReg L R) [0x32, hiByte L, loByte L, R.byte]) ∧
    (∀ L R s, ∃ t v, exec (.andLitReg L R) s = .next t ∧ OnlyReg s t .acc v ∧
      ∀ k < 16, v.getLsbD k = ((s.reg R).getLsbD k && L.getLsbD k)) ∧
    (∀ L R s, ∃ t v, exec (.orLitReg L R) s = .next t ∧ OnlyReg s t .acc v ∧
      ∀ k < 16, v.getLsbD k = ((s.reg R).getLsbD k || L.getLsbD k)) ∧
    ∀ L R s, ∃ t v, exec (.xorLitReg L R) s = .next t ∧ OnlyReg s t .acc v ∧
      ∀ k < 16, v.getLsbD k = ((s.reg R).getLsbD k ^^ L.getLsbD k)

/-- `not R` puts the complement into `acc` (R171). -/
def Obligations.ComplementIntoAccumulator : Prop :=
  CommonFaults 0x34 .notReg ∧
    (∀ R, EncodedAs (.notReg R) [0x34, R.byte]) ∧
    ∀ R s, ∃ t v, exec (.notReg R) s = .next t ∧ OnlyReg s t .acc v ∧
      ∀ k < 16, v.getLsbD k = !(s.reg R).getLsbD k

/-! ## Jumps -/

/-- `jeq` and `jne`, register and literal forms: taken exactly when the operand equals, or differs from, `acc`; only `ip`
is written (R181, R182, R183, R184). -/
def Obligations.JumpsOnEquality : Prop :=
  CommonFaults 0x3E .jeqReg ∧ FetchFaults 0x41 .jeqLit ∧ NoRegisterByte .jeqLit ∧ CommonFaults 0x40 .jneReg ∧
    FetchFaults 0x15 .jneLit ∧ NoRegisterByte .jneLit ∧
    (∀ R A, EncodedAs (.jeqReg R A) [0x3E, R.byte, hiByte A, loByte A]) ∧
    (∀ L A, EncodedAs (.jeqLit L A) [0x41, hiByte L, loByte L, hiByte A, loByte A]) ∧
    (∀ R A, EncodedAs (.jneReg R A) [0x40, R.byte, hiByte A, loByte A]) ∧
    (∀ L A, EncodedAs (.jneLit L A) [0x15, hiByte L, loByte L, hiByte A, loByte A]) ∧
    (∀ R A s, ∃ t, exec (.jeqReg R A) s = .next t ∧
      OnlyReg s t .ip (if s.reg R = s.reg .acc then A else s.reg .ip)) ∧
    (∀ L A s, ∃ t, exec (.jeqLit L A) s = .next t ∧ OnlyReg s t .ip (if L = s.reg .acc then A else s.reg .ip)) ∧
    (∀ R A s, ∃ t, exec (.jneReg R A) s = .next t ∧
      OnlyReg s t .ip (if s.reg R = s.reg .acc then s.reg .ip else A)) ∧
    ∀ L A s, ∃ t, exec (.jneLit L A) s = .next t ∧ OnlyReg s t .ip (if L = s.reg .acc then s.reg .ip else A)

/-- `jlt`, `jgt`, `jle` and `jge`: the operand against `acc`, unsigned; only `ip` is written; the
encodings, under any opcode table that lists the rules' opcode bytes (R180, R185 to R192; the spec's decision D14). -/
def Obligations.JumpsOnOrder : Prop :=
  (∀ R A, EncodedAs (.jltReg R A) [0x42, R.byte, hiByte A, loByte A]) ∧
    (∀ L A, EncodedAs (.jltLit L A) [0x43, hiByte L, loByte L, hiByte A, loByte A]) ∧
    (∀ R A, EncodedAs (.jgtReg R A) [0x44, R.byte, hiByte A, loByte A]) ∧
    (∀ L A, EncodedAs (.jgtLit L A) [0x45, hiByte L, loByte L, hiByte A, loByte A]) ∧
    (∀ R A, EncodedAs (.jleReg R A) [0x46, R.byte, hiByte A, loByte A]) ∧
    (∀ L A, EncodedAs (.jleLit L A) [0x47, hiByte L, loByte L, hiByte A, loByte A]) ∧
    (∀ R A, EncodedAs (.jgeReg R A) [0x48, R.byte, hiByte A, loByte A]) ∧
    (∀ L A, EncodedAs (.jgeLit L A) [0x49, hiByte L, loByte L, hiByte A, loByte A]) ∧
    (∀ R A s, ∃ t, exec (.jltReg R A) s = .next t ∧
      OnlyReg s t .ip (if (s.reg R).toNat < (s.reg .acc).toNat then A else s.reg .ip)) ∧
    (∀ L A s, ∃ t, exec (.jltLit L A) s = .next t ∧
      OnlyReg s t .ip (if L.toNat < (s.reg .acc).toNat then A else s.reg .ip)) ∧
    (∀ R A s, ∃ t, exec (.jgtReg R A) s = .next t ∧
      OnlyReg s t .ip (if (s.reg R).toNat > (s.reg .acc).toNat then A else s.reg .ip)) ∧
    (∀ L A s, ∃ t, exec (.jgtLit L A) s = .next t ∧
      OnlyReg s t .ip (if L.toNat > (s.reg .acc).toNat then A else s.reg .ip)) ∧
    (∀ R A s, ∃ t, exec (.jleReg R A) s = .next t ∧
      OnlyReg s t .ip (if (s.reg R).toNat ≤ (s.reg .acc).toNat then A else s.reg .ip)) ∧
    (∀ L A s, ∃ t, exec (.jleLit L A) s = .next t ∧
      OnlyReg s t .ip (if L.toNat ≤ (s.reg .acc).toNat then A else s.reg .ip)) ∧
    (∀ R A s, ∃ t, exec (.jgeReg R A) s = .next t ∧
      OnlyReg s t .ip (if (s.reg R).toNat ≥ (s.reg .acc).toNat then A else s.reg .ip)) ∧
    ∀ L A s, ∃ t, exec (.jgeLit L A) s = .next t ∧
      OnlyReg s t .ip (if L.toNat ≥ (s.reg .acc).toNat then A else s.reg .ip)

/-! ## Memory and devices -/

/-- The region that serves an address is the first in the list that holds it, both ends inside, and the local address is
the offset into it exactly when `remap` is set (R54, R55; the spec's decision D8). -/
def Obligations.FirstContainingRegionServes : Prop :=
  (∀ rs A r, findRegion rs A = some r ↔
      ∃ before after, rs = before ++ r :: after ∧ (r.start.toNat ≤ A.toNat ∧ A.toNat ≤ r.stop.toNat) ∧
        ∀ q ∈ before, ¬ (q.start.toNat ≤ A.toNat ∧ A.toNat ≤ q.stop.toNat)) ∧
    ∀ r A, (localAddr r A).toNat = if r.remap then (A.toNat + 65536 - r.start.toNat) % 65536 else A.toNat

/-- An access faults exactly when no region serves its address or the device refuses it, and the fault records the
address, the width and the direction (R56). -/
def Obligations.AccessFaultsWhenUnservedOrRefused : Prop :=
  ∀ w A v s,
    (∀ e, memRead w A s = .error e ↔ e = ⟨A, w, .read⟩ ∧
      ∀ r d, route s A = some (r, d) → deviceRead d (s.reg .mb) s.draws w (localAddr r A) = none) ∧
    ∀ e, memWrite w A v s = .error e ↔ e = ⟨A, w, .write⟩ ∧
      ∀ r d, route s A = some (r, d) → deviceWrite d (s.reg .mb) s.draws w (localAddr r A) v = none

/-- The four operations of a banked device: each serves bank `mb mod BANK_COUNT` at the moment of the access, and a local
address outside the bank is a MemoryFault (R65). -/
def Obligations.BankedAccessUsesTheSelectedBank : Prop :=
  ∀ s A r size banks m, route s A = some (r, .banked size banks) →
    banks[(s.reg .mb).toNat % banks.length]? = some m →
    memRead .byte A s = (if (localAddr r A).toNat < size then
        .ok ((readByte m (localAddr r A).toNat).setWidth 16, s) else .error ⟨A, .byte, .read⟩) ∧
      memRead .word A s = (if (localAddr r A).toNat + 1 < size then
        .ok (readByte m (localAddr r A).toNat ++ readByte m ((localAddr r A).toNat + 1), s)
        else .error ⟨A, .word, .read⟩) ∧
      (∀ v, memWrite .byte A v s = if (localAddr r A).toNat < size then
        .ok (s.setDevices (s.devices.set r.device (.banked size (banks.set ((s.reg .mb).toNat % banks.length)
          (writeByte m (localAddr r A).toNat (v.extractLsb' 0 8))))))
        else .error ⟨A, .byte, .write⟩) ∧
      ∀ v, memWrite .word A v s = if (localAddr r A).toNat + 1 < size then
        .ok (s.setDevices (s.devices.set r.device (.banked size (banks.set ((s.reg .mb).toNat % banks.length)
          (writeByte (writeByte m (localAddr r A).toNat (v.extractLsb' 8 8)) ((localAddr r A).toNat + 1)
            (v.extractLsb' 0 8))))))
        else .error ⟨A, .word, .write⟩

/-- A write to one bank changes no byte of another bank, nor of another device (R64). -/
def Obligations.BanksAreIndependent : Prop :=
  ∀ w A v s t r size banks, route s A = some (r, .banked size banks) → memWrite w A v s = .ok t →
    (∀ j L, j ≠ (s.reg .mb).toNat % banks.length → deviceByte t r.device j L = deviceByte s r.device j L) ∧
      ∀ d j L, d ≠ r.device → deviceByte t d j L = deviceByte s d j L

/-- A byte read from a storage after a byte was written to it, and the canonical form of the storage (R59, R71; entry
14). -/
def Obligations.StorageReadsTheLastWrite : Prop :=
  ∀ size m k v, memWf size m = true → k < size →
    memWf size (writeByte m k v) = true ∧ ∀ j, readByte (writeByte m k v) j = if j = k then v else readByte m j

/-- On the default platform a word is stored big-endian: its high byte at the address, its low byte at the next, and
every other address reads as before; 0xFFFF faults (R57, R59, R60, R61; the spec's decisions D6, D7, D9). -/
def Obligations.FlatStoreIsBigEndian : Prop :=
  ∀ s R A, Flat s → stateWf s = true →
    (A ≠ 0xFFFF → ∃ t, exec (.movRegMem R A) s = .next t ∧ peek t A = some ((s.reg R).extractLsb' 8 8) ∧
      peek t (A + 1) = some ((s.reg R).extractLsb' 0 8) ∧
      ∀ B, B ≠ A → B ≠ A + 1 → peek t B = peek s B) ∧
    (A = 0xFFFF → exec (.movRegMem R A) s = .fault (.memoryFault (s.reg .ip - 4) 0xFFFF .word .write))

/-- A peripheral: a read answers a free value, a write is a recorded event, and either may fault (R66; the spec's
decision D32; entry 6: the answers are free values, so this holds whatever they are). -/
def Obligations.PeripheralReadsAreDrawsAndWritesAreEvents : Prop :=
  ∀ s A R r ev, route s A = some (r, .peripheral ev) →
    exec (.movMemReg A R) s =
      (if Config.peripheralRefuses s.draws then .fault (.memoryFault (s.reg .ip - 4) A .word .read)
       else .next ((s.setDraws (s.draws + 1)).setReg R (Config.peripheralAnswer s.draws))) ∧
    exec (.movRegMem R A) s =
      (if Config.peripheralRefuses s.draws then .fault (.memoryFault (s.reg .ip - 4) A .word .write)
       else .next ((s.setDevices (s.devices.set r.device
         (.peripheral (ev ++ [⟨.word, localAddr r A, s.reg R⟩])))).setDraws (s.draws + 1)))

/-! ## Stack, call and return -/

/-- `psh`: the value, read before `sp` moves, is stored at the old `sp`; `sp` goes down by 2 and `fsize` up by 2;
nothing else changes; the encodings (R200, R204, R205; the spec's decision D11). -/
def Obligations.PushStoresAtTheStackPointer : Prop :=
  (∀ L, EncodedAs (.pshLit L) [0x17, hiByte L, loByte L]) ∧ (∀ R, EncodedAs (.pshReg R) [0x18, R.byte]) ∧
    ∀ s, stateWf s = true → wordServed s (s.reg .sp) = true →
    (∀ L, ∃ t, exec (.pshLit L) s = .next t ∧ MemStored s t (s.reg .sp) L ∧
      (∀ r, t.reg r = if r = .sp then s.reg .sp - 2 else s.reg r) ∧ t.fsize = s.fsize + 2 ∧
      t.inHandler = s.inHandler ∧ t.status = s.status ∧ t.draws = s.draws ∧ t.params = s.params) ∧
    ∀ R, ∃ t, exec (.pshReg R) s = .next t ∧ MemStored s t (s.reg .sp) (s.reg R) ∧
      (∀ r, t.reg r = if r = .sp then s.reg .sp - 2 else s.reg r) ∧ t.fsize = s.fsize + 2 ∧
      t.inHandler = s.inHandler ∧ t.status = s.status ∧ t.draws = s.draws ∧ t.params = s.params

/-- `pop R`: the word above `sp` goes to `R`; `sp` goes up by 2 unless `R` is `sp`, which gets the word; `fsize` goes
down by 2; nothing else changes; the encoding (R201, R206; the spec's decision D11). -/
def Obligations.PopLoadsAboveTheStackPointer : Prop :=
  (∀ R, EncodedAs (.popReg R) [0x1A, R.byte]) ∧ ∀ s R v, peekWord s (s.reg .sp + 2) = some v →
    ∃ t, exec (.popReg R) s = .next t ∧
      (∀ r, t.reg r = if r = R then v else if r = .sp then s.reg .sp + 2 else s.reg r) ∧ t.fsize = s.fsize - 2 ∧
      t.inHandler = s.inHandler ∧ t.status = s.status ∧ t.devices = s.devices ∧ t.draws = s.draws ∧
      t.params = s.params

/-- A stack access that is refused is a MemoryFault at the slot (R200, R201, R204 to R206). -/
def Obligations.RefusedStackAccessFaults : Prop :=
  (∀ s L e, memWrite .word (s.reg .sp) L s = .error e →
      exec (.pshLit L) s = .fault (.memoryFault (s.reg .ip - 3) (s.reg .sp) .word .write)) ∧
    (∀ s R e, memWrite .word (s.reg .sp) (s.reg R) s = .error e →
      exec (.pshReg R) s = .fault (.memoryFault (s.reg .ip - 2) (s.reg .sp) .word .write)) ∧
    ∀ s R e, memRead .word (s.reg .sp + 2) s = .error e →
      exec (.popReg R) s = .fault (.memoryFault (s.reg .ip - 2) (s.reg .sp + 2) .word .read)

/-- The stack is LIFO: a literal or a register's value pushed and then popped into `R` is in `R`, with every other
register and `fsize` as they were (R200, R201, R204 to R206; the spec's decision D11). -/
def Obligations.PopReturnsTheLastPush : Prop :=
  ∀ s t R, stateWf s = true → wordServed s (s.reg .sp) = true →
    (∀ L, exec (.pshLit L) s = .next t →
      ∃ u, exec (.popReg R) t = .next u ∧ (∀ r, u.reg r = if r = R then L else s.reg r) ∧ u.fsize = s.fsize) ∧
    ∀ Q, exec (.pshReg Q) s = .next t →
      ∃ u, exec (.popReg R) t = .next u ∧ (∀ r, u.reg r = if r = R then s.reg Q else s.reg r) ∧ u.fsize = s.fsize

/-- `cal`: with the ten slots from `sp` down served, the target goes to `ip`, `sp` and `fp` to 20 below the old `sp`,
`fsize` to 0, every other register and the hidden state stay, and so does every byte outside the ten slots; `cal R`
takes the target from before the save; the encodings, under any opcode table that lists the rules' opcode bytes (R202,
R207, R208; the spec's decision D12). -/
def Obligations.CallEntersTheSubroutine : Prop :=
  (∀ L, EncodedAs (.calLit L) [0x5E, hiByte L, loByte L]) ∧ (∀ R, EncodedAs (.calReg R) [0x5F, R.byte]) ∧
    ∀ s, stateWf s = true → slotsServed s (s.reg .sp) 10 →
    (∀ L, ∃ t, exec (.calLit L) s = .next t ∧
      (∀ r, t.reg r = if r = .ip then L else if r = .sp ∨ r = .fp then s.reg .sp - 20 else s.reg r) ∧
      t.fsize = 0 ∧ t.inHandler = s.inHandler ∧ t.status = s.status ∧ t.draws = s.draws ∧ t.params = s.params ∧
      (∀ d, peripheralEvents t d = peripheralEvents s d) ∧
      ∀ d k L', OutsideSlots s (s.reg .sp) 10 d k L' → deviceByte t d k L' = deviceByte s d k L') ∧
    ∀ R, ∃ t, exec (.calReg R) s = .next t ∧
      (∀ r, t.reg r = if r = .ip then s.reg R else if r = .sp ∨ r = .fp then s.reg .sp - 20 else s.reg r) ∧
      t.fsize = 0 ∧ t.inHandler = s.inHandler ∧ t.status = s.status ∧ t.draws = s.draws ∧ t.params = s.params ∧
      (∀ d, peripheralEvents t d = peripheralEvents s d) ∧
      ∀ d k L', OutsideSlots s (s.reg .sp) 10 d k L' → deviceByte t d k L' = deviceByte s d k L'

/-- The frame after `cal $L` and after `cal R` on the default platform: the saved size, `ip`, r8 to r1 at their offsets
from the new `fp`, and every byte outside those 20 as it was; the saved `ip` is the address of the opcode plus 3, or
plus 2 for `cal R` (R202, R207, R208, R211; the spec's decisions D11, D12, D9). -/
def Obligations.CallFrameLayout : Prop :=
  (∀ s i t, (∃ L, i = .calLit L) ∨ (∃ R, i = .calReg R) →
    Flat s → stateWf s = true → slotsServed s (s.reg .sp) 10 → exec i s = .next t →
    peekWord t (t.reg .fp + 2) = some (s.fsize + 20) ∧ peekWord t (t.reg .fp + 4) = some (s.reg .ip) ∧
      peekWord t (t.reg .fp + 6) = some (s.reg .r8) ∧ peekWord t (t.reg .fp + 8) = some (s.reg .r7) ∧
      peekWord t (t.reg .fp + 10) = some (s.reg .r6) ∧ peekWord t (t.reg .fp + 12) = some (s.reg .r5) ∧
      peekWord t (t.reg .fp + 14) = some (s.reg .r4) ∧ peekWord t (t.reg .fp + 16) = some (s.reg .r3) ∧
      peekWord t (t.reg .fp + 18) = some (s.reg .r2) ∧ peekWord t (t.reg .fp + 20) = some (s.reg .r1) ∧
      ∀ B : Word, (B - (t.reg .fp + 2)).toNat ≥ 20 → peek t B = peek s B) ∧
  (∀ s L bs t, Flat s → stateWf s = true → s.status = .running → decode s.params.opcodes bs = .ok (.calLit L, []) →
    CodeAt s .calLit bs → step s = .next t → peekWord t (t.reg .fp + 4) = some (s.reg .ip + 3)) ∧
  ∀ s R bs t, Flat s → stateWf s = true → s.status = .running → decode s.params.opcodes bs = .ok (.calReg R, []) →
    CodeAt s .calReg bs → step s = .next t → peekWord t (t.reg .fp + 4) = some (s.reg .ip + 2)

/-- `ret` and `rti`: from the words above `fp`, the saved size, `ip`, r8 to r1 and the argument count `n`, everything
PopState restores; `acc`, `mb`, `im` and memory stay; `ret` leaves the in-handler flag and `rti` clears it; the
encodings (R203, R209, R232; the spec's decisions D12, D27, D33). -/
def Obligations.ReturnRestoresTheFrame : Prop :=
  EncodedAs .ret [0x60] ∧ EncodedAs .rti [0xFC] ∧ ∀ s (w : Nat → Word),
    (∀ k < 11 + (w 10).toNat, peekWord s (s.reg .fp + 2 + BitVec.ofNat 16 (2 * k)) = some (w k)) →
    ∀ i, i = Instr.ret ∨ i = Instr.rti → ∃ t, exec i s = .next t ∧
      t.reg .ip = w 1 ∧ t.reg .r8 = w 2 ∧ t.reg .r7 = w 3 ∧ t.reg .r6 = w 4 ∧ t.reg .r5 = w 5 ∧ t.reg .r4 = w 6 ∧
      t.reg .r3 = w 7 ∧ t.reg .r2 = w 8 ∧ t.reg .r1 = w 9 ∧
      t.reg .sp = s.reg .fp + 22 + BitVec.ofNat 16 (2 * (w 10).toNat) ∧ t.reg .fp = s.reg .fp + w 0 ∧
      t.fsize = w 0 - 22 - BitVec.ofNat 16 (2 * (w 10).toNat) ∧
      t.reg .acc = s.reg .acc ∧ t.reg .mb = s.reg .mb ∧ t.reg .im = s.reg .im ∧
      t.inHandler = (if i = Instr.rti then false else s.inHandler) ∧ t.status = s.status ∧ t.devices = s.devices ∧
      t.draws = s.draws ∧ t.params = s.params

/-- The call boundary is symmetric on the default platform: after `cal $L` or `cal R` with the count `n` pushed, `ret`
from any state whose `fp` and frame words are those the call left restores r1 to r8, `ip` and `fp`, and puts `sp` and
`fsize` where they were before the count and the arguments were pushed (R210, R211; the spec's decision D12). -/
def Obligations.ReturnUndoesTheCall : Prop :=
  ∀ s t u i (n : Word), (∃ L, i = .calLit L) ∨ (∃ R, i = .calReg R) →
    Flat s → stateWf s = true → StackInv s → slotsServed s (s.reg .sp) 10 →
    peekWord s (s.reg .sp + 2) = some n →
    (∀ k < n.toNat, wordServed s (s.reg .sp + 4 + BitVec.ofNat 16 (2 * k)) = true) →
    exec i s = .next t →
    Flat u → u.reg .fp = t.reg .fp →
    (∀ k < 11, peekWord u (u.reg .fp + 2 + BitVec.ofNat 16 (2 * k)) =
      peekWord t (t.reg .fp + 2 + BitVec.ofNat 16 (2 * k))) →
    ∃ v, exec .ret u = .next v ∧
      (∀ r, r ∈ [Reg.ip, .r1, .r2, .r3, .r4, .r5, .r6, .r7, .r8, .fp] → v.reg r = s.reg r) ∧
      v.reg .sp = s.reg .sp + 2 + BitVec.ofNat 16 (2 * n.toNat) ∧
      v.fsize = s.fsize - 2 - BitVec.ofNat 16 (2 * n.toNat) ∧
      ∀ r, r ∈ [Reg.acc, .mb, .im] → v.reg r = u.reg r

/-- Every instruction keeps `fp - sp = fsize`, unless its destination register is `sp` or `fp`; a step too (R38: derived
by the spec). -/
def Obligations.StackInvariantIsKept : Prop :=
  (∀ i s t, StackInv s → destReg i ≠ some .sp → destReg i ≠ some .fp → exec i s = .next t → StackInv t) ∧
    ∀ s t i u, StackInv s → fetchInstr s = .ok (i, u) → destReg i ≠ some .sp → destReg i ≠ some .fp →
      step s = .next t → StackInv t

/-! ## System -/

/-- `hlt` sets the status to Halted and changes nothing else; `ip` stays after the `hlt` byte; the encoding (R230; the
spec's decision D25). -/
def Obligations.HaltOnlySetsTheStatus : Prop :=
  EncodedAs .hlt [0xFF] ∧ ∀ s, ∃ t, exec .hlt s = .next t ∧ t.status = .halted ∧ (∀ r, t.reg r = s.reg r) ∧ t.fsize = s.fsize ∧
    t.inHandler = s.inHandler ∧ t.devices = s.devices ∧ t.draws = s.draws ∧ t.params = s.params

/-- A masked interrupt is dropped: the whole state is as it was after the fetch, so `ip` is at the next instruction
(R231, R247; conflict C5; the spec's decision D16). -/
def Obligations.MaskedInterruptIsDropped : Prop :=
  ∀ s L, (s.reg .im).getLsbD (L.toNat % 16) = false → exec (.intLit L) s = .next s

/-- The interrupt number is the low 4 bits of the literal; it is enabled by that bit of `im`, its vector is at
VECTOR_BASE + 2n modulo 2^16, and nothing else of the literal matters (R30, R231, R246, R247; the spec's decision D16).
-/
def Obligations.InterruptNumberIsTheLowFourBits : Prop :=
  (∀ L, interruptNumber L = L.toNat % 16) ∧
    (∀ s n, interruptEnabled n s = (s.reg .im).getLsbD n) ∧
    (∀ s n, (vectorAddr n s).toNat = (s.params.vectorBase.toNat + 2 * n) % 65536) ∧
    (∀ L s, exec (.intLit L) s =
      if (s.reg .im).getLsbD (L.toNat % 16) then conclude .intLit s (takeInterrupt (L.toNat % 16) s) else .next s) ∧
    ∀ s L M, L.toNat % 16 = M.toNat % 16 → exec (.intLit L) s = exec (.intLit M) s

/-- Trap entry outside a handler: `ip` gets the vector, 22 bytes go on the stack, `sp` and `fp` point below them,
`fsize` is 0, the in-handler flag is set, and no other register and no byte outside the eleven slots changes; the
encoding (R231, R249; the spec's decisions D12, D16, D19). -/
def Obligations.InterruptEntry : Prop :=
  (∀ L, EncodedAs (.intLit L) [0xFD, hiByte L, loByte L]) ∧
    ∀ s L v, stateWf s = true → s.inHandler = false → (s.reg .im).getLsbD (L.toNat % 16) = true →
    peekWord s (s.params.vectorBase + BitVec.ofNat 16 (2 * (L.toNat % 16))) = some v → slotsServed s (s.reg .sp) 11 →
    ∃ t, exec (.intLit L) s = .next t ∧
      (∀ r, t.reg r = if r = .ip then v else if r = .sp ∨ r = .fp then s.reg .sp - 22 else s.reg r) ∧
      t.fsize = 0 ∧ t.inHandler = true ∧ t.status = s.status ∧ t.draws = s.draws ∧ t.params = s.params ∧
      (∀ d, peripheralEvents t d = peripheralEvents s d) ∧
      ∀ d k L', OutsideSlots s (s.reg .sp) 11 d k L' → deviceByte t d k L' = deviceByte s d k L'

/-- The frame after trap entry on the default platform: the frame of a call, above it the argument count 0, and every
byte outside those 22 as it was (R211, R231, R249; the spec's decision D12). -/
def Obligations.InterruptFrameLayout : Prop :=
  ∀ s L t, Flat s → stateWf s = true → s.inHandler = false → (s.reg .im).getLsbD (L.toNat % 16) = true →
    slotsServed s (s.reg .sp) 11 → exec (.intLit L) s = .next t →
    peekWord t (t.reg .fp + 2) = some (s.fsize + 22) ∧ peekWord t (t.reg .fp + 4) = some (s.reg .ip) ∧
      peekWord t (t.reg .fp + 6) = some (s.reg .r8) ∧ peekWord t (t.reg .fp + 8) = some (s.reg .r7) ∧
      peekWord t (t.reg .fp + 10) = some (s.reg .r6) ∧ peekWord t (t.reg .fp + 12) = some (s.reg .r5) ∧
      peekWord t (t.reg .fp + 14) = some (s.reg .r4) ∧ peekWord t (t.reg .fp + 16) = some (s.reg .r3) ∧
      peekWord t (t.reg .fp + 18) = some (s.reg .r2) ∧ peekWord t (t.reg .fp + 20) = some (s.reg .r1) ∧
      peekWord t (t.reg .fp + 22) = some 0 ∧
      ∀ B : Word, (B - (t.reg .fp + 2)).toNat ≥ 22 → peek t B = peek s B

/-- Trap entry inside a handler only jumps to the vector (R231, R249; the spec's decision D17). -/
def Obligations.NestedInterruptOnlyJumps : Prop :=
  ∀ s L v, s.inHandler = true → (s.reg .im).getLsbD (L.toNat % 16) = true →
    peekWord s (s.params.vectorBase + BitVec.ofNat 16 (2 * (L.toNat % 16))) = some v →
    ∃ t, exec (.intLit L) s = .next t ∧ OnlyReg s t .ip v

/-- A refused vector read ends the instruction before anything is pushed (R231, R248; the spec's decision D19). -/
def Obligations.RefusedVectorReadFaults : Prop :=
  ∀ s L e, (s.reg .im).getLsbD (L.toNat % 16) = true →
    memRead .word (s.params.vectorBase + BitVec.ofNat 16 (2 * (L.toNat % 16))) s = .error e →
    exec (.intLit L) s = .fault (.memoryFault (s.reg .ip - 3)
      (s.params.vectorBase + BitVec.ofNat 16 (2 * (L.toNat % 16))) .word .read)

/-- `rti` right after an accepted interrupt undoes the entry on the default platform: every register, `fsize` and the
in-handler flag are as before the `int`, and so is memory outside the 22 bytes pushed (R249, R251; the spec's decision
D12). -/
def Obligations.ReturnFromInterruptUndoesTheEntry : Prop :=
  ∀ s t L, Flat s → stateWf s = true → StackInv s → s.inHandler = false → (s.reg .im).getLsbD (L.toNat % 16) = true →
    slotsServed s (s.reg .sp) 11 → exec (.intLit L) s = .next t →
    ∃ u, exec .rti t = .next u ∧ u.reg .ip = s.reg .ip ∧ u.regs = s.regs ∧ u.fsize = s.fsize ∧
      u.inHandler = false ∧ u.status = s.status ∧
      ∀ B : Word, (B - (s.reg .sp - 20)).toNat ≥ 22 → peek u B = peek s B

/-! ## What instructions leave unchanged, over the whole machine -/

/-- An instruction changes no register but its destination and those its rule writes implicitly: a jump `ip`, push and
pop `sp`, call and trap entry `ip`, `sp`, `fp`, return those PopState restores (R21, R22, R26, R30, R180, R202, R203).
-/
def Obligations.RegistersChangeOnlyAsNamed : Prop :=
  ∀ i s t r, exec i s = .next t → destReg i ≠ some r → r ∉ implicitRegs i → t.reg r = s.reg r

/-- Only the stack instructions change `fsize` (R32); only an accepted interrupt sets the in-handler flag and only `rti`
clears it (R33); only `hlt` changes the status (R34); no instruction changes a parameter (R53). -/
def Obligations.HiddenStateChangesOnlyAsNamed : Prop :=
  ∀ i s t, exec i s = .next t →
    (usesStack i = false → t.fsize = s.fsize) ∧
    (∀ L, i = .intLit L → t.inHandler = (s.inHandler || (s.reg .im).getLsbD (L.toNat % 16))) ∧
    (i = .rti → t.inHandler = false) ∧ ((∀ L, i ≠ .intLit L) → i ≠ .rti → t.inHandler = s.inHandler) ∧
    (t.status = if i = .hlt then .halted else s.status) ∧ t.params = s.params

/-- Only the two stores, push, call and trap entry change a device: everything else, `ret`, `rti`, loads, jumps and
arithmetic included, leaves every byte of memory and every recorded event as it was (R63, R137). -/
def Obligations.OnlyStoringInstructionsChangeMemory : Prop :=
  ∀ i s t, canStore i = false → exec i s = .next t → t.devices = s.devices

/-- A step keeps every memory in its one canonical form (entry 14), keeps the parameters, and keeps the devices those of
the platform (R37, R53). -/
def Obligations.StepKeepsTheInvariants : Prop :=
  ∀ s t, step s = .next t →
    (stateWf s = true → stateWf t = true) ∧ (shapesKept s → shapesKept t) ∧ t.params = s.params

/-! ## The host -/

/-- Loading an image of at most 65,536 bytes after reset, at the defaults, succeeds: address `k` holds byte `k`, and what
the image does not cover holds 0; a longer image cannot be loaded (R281; the spec's decisions D31, D36). -/
def Obligations.LoadPlacesTheImageAtZero : Prop :=
  (∀ image : List Byte, image.length ≤ 65536 →
      ∃ s, hostLoad image State.reset = some s ∧ (∀ r, s.reg r = State.reset.reg r) ∧ s.status = .running ∧
        ∀ A : Word, peek s A = some (image.getD A.toNat 0)) ∧
    ∀ image : List Byte, 65536 < image.length → ∀ s, hostLoad image s = none
end

