-- ==== Sys2Proof/Laws/Memory.lean ====
section
/-! SUPPORT. Storage laws: a read after a write, and every write keeps the canonical form. -/

namespace Sys2Proof.Machine

theorem memWf_iff (size : Nat) (m : Memory) :
    memWf size m = true ↔
      m.Pairwise (fun x y => x.1 < y.1) ∧ (∀ c ∈ m, c.2 ≠ unlistedByte) ∧ (∀ c ∈ m, c.1 < size) := by
  simp [memWf, memSorted, memNoDefault, memInside, and_assoc, List.all_eq_true]

@[simp] theorem memWf_nil (size : Nat) : memWf size [] = true := by simp [memWf_iff]

/-- A key below every listed key reads as the unlisted byte. -/
theorem readByte_of_lt {m : Memory} {k : Nat} (h : ∀ c ∈ m, k < c.1) : readByte m k = unlistedByte := by
  induction m with
  | nil => rfl
  | cons c m ih =>
    have hc := h c (by simp)
    simp only [readByte, if_neg (Nat.ne_of_lt hc)]
    exact ih fun d hd => h d (by simp [hd])

theorem readByte_consByte (k j : Nat) (v : Byte) {m : Memory} (h : ∀ c ∈ m, k < c.1) :
    readByte (consByte k v m) j = if j = k then v else readByte m j := by
  unfold consByte
  by_cases hv : v = unlistedByte
  · by_cases hj : j = k
    · subst hj; simp [hv, readByte_of_lt h]
    · simp [hv, hj]
  · simp [hv, readByte]

/-- Reading a byte after writing one, in a memory whose keys rise. -/
theorem readByte_writeByte {m : Memory} (hm : m.Pairwise fun x y => x.1 < y.1) (k j : Nat) (v : Byte) :
    readByte (writeByte m k v) j = if j = k then v else readByte m j := by
  induction m with
  | nil => exact readByte_consByte k j v (by simp)
  | cons c m ih =>
    obtain ⟨a, b⟩ := c
    have hr := List.pairwise_cons.mp hm
    by_cases hlt : k < a
    · rw [writeByte, if_pos hlt, readByte_consByte]
      intro c hc
      rcases List.mem_cons.mp hc with rfl | hc
      · exact hlt
      · exact Nat.lt_trans hlt (hr.1 c hc)
    · by_cases hk : k = a
      · subst hk
        rw [writeByte, if_neg hlt, if_pos rfl, readByte_consByte k j v hr.1]
        by_cases hj : j = k <;> simp [hj, readByte]
      · rw [writeByte, if_neg hlt, if_neg hk]
        simp only [readByte, ih hr.2]
        by_cases hj : j = a
        · subst hj; simp [Ne.symm hk]
        · simp [hj]

/-- A written key, or one that was listed. -/
theorem mem_writeByte {m : Memory} {k : Nat} {v : Byte} {c : Host.Cell} (h : c ∈ writeByte m k v) :
    (c = (k, v) ∧ v ≠ unlistedByte) ∨ c ∈ m := by
  have cons : ∀ l : Memory, c ∈ consByte k v l → (c = (k, v) ∧ v ≠ unlistedByte) ∨ c ∈ l := by
    intro l hl
    by_cases hv : v = unlistedByte
    · simp only [consByte, if_pos hv] at hl; exact .inr hl
    · simp only [consByte, if_neg hv, List.mem_cons] at hl
      exact hl.imp (fun h => ⟨h, hv⟩) id
  induction m with
  | nil => exact cons [] h
  | cons d m ih =>
    obtain ⟨a, b⟩ := d
    by_cases hlt : k < a
    · rw [writeByte, if_pos hlt] at h; exact cons _ h
    · by_cases hk : k = a
      · rw [writeByte, if_neg hlt, if_pos hk] at h
        exact (cons m h).imp id fun h => by simp [h]
      · rw [writeByte, if_neg hlt, if_neg hk] at h
        rcases List.mem_cons.mp h with h | h
        · exact .inr (by simp [h])
        · exact (ih h).imp id fun h => by simp [h]

/-- Writing keeps the keys rising. -/
theorem sorted_writeByte {m : Memory} (hm : m.Pairwise fun x y => x.1 < y.1) (k : Nat) (v : Byte) :
    (writeByte m k v).Pairwise fun x y => x.1 < y.1 := by
  have cons : ∀ l : Memory, (∀ c ∈ l, k < c.1) → l.Pairwise (fun x y => x.1 < y.1) →
      (consByte k v l).Pairwise fun x y => x.1 < y.1 := by
    intro l hl hs
    unfold consByte
    split
    · exact hs
    · exact List.pairwise_cons.mpr ⟨hl, hs⟩
  induction m with
  | nil => exact cons [] (by simp) .nil
  | cons c m ih =>
    obtain ⟨a, b⟩ := c
    have hr := List.pairwise_cons.mp hm
    by_cases hlt : k < a
    · rw [writeByte, if_pos hlt]
      refine cons _ (fun c hc => ?_) hm
      rcases List.mem_cons.mp hc with rfl | hc
      · exact hlt
      · exact Nat.lt_trans hlt (hr.1 c hc)
    · by_cases hk : k = a
      · subst hk; rw [writeByte, if_neg hlt, if_pos rfl]; exact cons m hr.1 hr.2
      · rw [writeByte, if_neg hlt, if_neg hk]
        refine List.pairwise_cons.mpr ⟨fun c hc => ?_, ih hr.2⟩
        rcases mem_writeByte hc with ⟨rfl, _⟩ | hc
        · exact Nat.lt_of_le_of_ne (Nat.le_of_not_lt hlt) (Ne.symm hk)
        · exact hr.1 c hc

/-- Writing inside the storage keeps the canonical form. -/
theorem memWf_writeByte {size : Nat} {m : Memory} (hm : memWf size m = true) {k : Nat} (hk : k < size) (v : Byte) :
    memWf size (writeByte m k v) = true := by
  rw [memWf_iff] at hm ⊢
  refine ⟨sorted_writeByte hm.1 k v, fun c hc => ?_, fun c hc => ?_⟩
  · rcases mem_writeByte hc with ⟨rfl, hv⟩ | hc
    · exact hv
    · exact hm.2.1 c hc
  · rcases mem_writeByte hc with ⟨rfl, _⟩ | hc
    · exact hk
    · exact hm.2.2 c hc

/-- A storage write keeps the canonical form. -/
theorem memWf_storageWrite {size : Nat} {m m' : Memory} {w : Width} {L v : Word} (hm : memWf size m = true)
    (h : storageWrite size m w L v = some m') : memWf size m' = true := by
  cases w <;> simp only [storageWrite] at h <;> split at h <;> cases h
  · exact memWf_writeByte hm ‹_› _
  · exact memWf_writeByte (memWf_writeByte hm (by omega) _) ‹_› _

/-- Two canonical memories that read alike everywhere are equal: equal memories are equal data. -/
theorem memory_ext {size : Nat} {m n : Memory} (hm : memWf size m = true) (hn : memWf size n = true)
    (h : ∀ k, readByte m k = readByte n k) : m = n := by
  rw [memWf_iff] at hm hn
  obtain ⟨sm, dm, -⟩ := hm
  obtain ⟨sn, dn, -⟩ := hn
  induction m generalizing n with
  | nil =>
    cases n with
    | nil => rfl
    | cons c n =>
      have := h c.1
      simp only [readByte, if_true] at this
      exact absurd this.symm (dn c (by simp))
  | cons c m ih =>
    have pm := List.pairwise_cons.mp sm
    cases n with
    | nil =>
      have := h c.1
      simp only [readByte, if_true] at this
      exact absurd this (dm c (by simp))
    | cons d n =>
      have pn := List.pairwise_cons.mp sn
      have key : c.1 = d.1 := by
        rcases Nat.lt_trichotomy c.1 d.1 with hlt | heq | hgt
        · have := h c.1
          rw [readByte, if_pos rfl, readByte_of_lt (m := d :: n) (fun e he => ?_)] at this
          · exact absurd this (dm c (by simp))
          · rcases List.mem_cons.mp he with rfl | he
            · exact hlt
            · exact Nat.lt_trans hlt (pn.1 e he)
        · exact heq
        · have := h d.1
          rw [readByte_of_lt (m := c :: m) (fun e he => ?_), readByte, if_pos rfl] at this
          · exact absurd this.symm (dn d (by simp))
          · rcases List.mem_cons.mp he with rfl | he
            · exact hgt
            · exact Nat.lt_trans hgt (pm.1 e he)
      have val : c.2 = d.2 := by
        have := h c.1
        simpa [readByte, key] using this
      have tail : m = n := by
        refine ih (fun k => ?_) pm.2 (fun e he => dm e (by simp [he])) pn.2 (fun e he => dn e (by simp [he]))
        by_cases hk : k = c.1
        · subst hk
          rw [readByte_of_lt pm.1, readByte_of_lt fun e he => key ▸ pn.1 e he]
        · have := h k
          rwa [readByte, if_neg hk, readByte, if_neg (key ▸ hk)] at this
      obtain ⟨a, b⟩ := c
      obtain ⟨a', b'⟩ := d
      simp_all

end Sys2Proof.Machine
end

