-- ==== Sys2Proof/Laws/State.lean ====
section
/-! SUPPORT. The small lemmas of State: what each update leaves each field at, so that no proof unfolds an update. -/

namespace Sys2Proof.Machine

@[simp] theorem Regs.get_set_same (x : Regs) (r : Reg) (v : Word) : (x.set r v).get r = v := by cases r <;> rfl

theorem Regs.get_set (x : Regs) (r q : Reg) (v : Word) : (x.set r v).get q = if q = r then v else x.get q := by
  cases r <;> cases q <;> rfl

theorem Regs.ext_get {x y : Regs} (h : ∀ r, x.get r = y.get r) : x = y := by
  cases x; cases y
  simp only [Regs.mk.injEq]
  exact ⟨h .ip, h .acc, h .r1, h .r2, h .r3, h .r4, h .r5, h .r6, h .r7, h .r8, h .sp, h .fp, h .mb, h .im⟩

/-- Reading a register after writing one. -/
theorem State.reg_setReg (s : State) (r q : Reg) (v : Word) :
    (s.setReg r v).reg q = if q = r then v else s.reg q := Regs.get_set s.regs r q v

@[simp] theorem State.reg_setReg_same (s : State) (r : Reg) (v : Word) : (s.setReg r v).reg r = v :=
  Regs.get_set_same s.regs r v

@[simp] theorem State.reg_setReg_ne (s : State) {r q : Reg} (v : Word) (h : q ≠ r) :
    (s.setReg r v).reg q = s.reg q := by simp [State.reg_setReg, h]

/-! ### setReg -/

@[simp] theorem State.regs_setReg (s : State) (r : Reg) (v : Word) : (s.setReg r v).regs = s.regs.set r v := rfl
@[simp] theorem State.fsize_setReg (s : State) (r : Reg) (v : Word) : (s.setReg r v).fsize = s.fsize := rfl
@[simp] theorem State.inHandler_setReg (s : State) (r : Reg) (v : Word) : (s.setReg r v).inHandler = s.inHandler := rfl
@[simp] theorem State.status_setReg (s : State) (r : Reg) (v : Word) : (s.setReg r v).status = s.status := rfl
@[simp] theorem State.devices_setReg (s : State) (r : Reg) (v : Word) : (s.setReg r v).devices = s.devices := rfl
@[simp] theorem State.draws_setReg (s : State) (r : Reg) (v : Word) : (s.setReg r v).draws = s.draws := rfl
@[simp] theorem State.params_setReg (s : State) (r : Reg) (v : Word) : (s.setReg r v).params = s.params := rfl

/-! ### setFsize -/

@[simp] theorem State.reg_setFsize (s : State) (v : Word) (q : Reg) : (s.setFsize v).reg q = s.reg q := rfl
@[simp] theorem State.regs_setFsize (s : State) (v : Word) : (s.setFsize v).regs = s.regs := rfl
@[simp] theorem State.fsize_setFsize (s : State) (v : Word) : (s.setFsize v).fsize = v := rfl
@[simp] theorem State.inHandler_setFsize (s : State) (v : Word) : (s.setFsize v).inHandler = s.inHandler := rfl
@[simp] theorem State.status_setFsize (s : State) (v : Word) : (s.setFsize v).status = s.status := rfl
@[simp] theorem State.devices_setFsize (s : State) (v : Word) : (s.setFsize v).devices = s.devices := rfl
@[simp] theorem State.draws_setFsize (s : State) (v : Word) : (s.setFsize v).draws = s.draws := rfl
@[simp] theorem State.params_setFsize (s : State) (v : Word) : (s.setFsize v).params = s.params := rfl

/-! ### setInHandler -/

@[simp] theorem State.reg_setInHandler (s : State) (b : Bool) (q : Reg) : (s.setInHandler b).reg q = s.reg q := rfl
@[simp] theorem State.regs_setInHandler (s : State) (b : Bool) : (s.setInHandler b).regs = s.regs := rfl
@[simp] theorem State.fsize_setInHandler (s : State) (b : Bool) : (s.setInHandler b).fsize = s.fsize := rfl
@[simp] theorem State.inHandler_setInHandler (s : State) (b : Bool) : (s.setInHandler b).inHandler = b := rfl
@[simp] theorem State.status_setInHandler (s : State) (b : Bool) : (s.setInHandler b).status = s.status := rfl
@[simp] theorem State.devices_setInHandler (s : State) (b : Bool) : (s.setInHandler b).devices = s.devices := rfl
@[simp] theorem State.draws_setInHandler (s : State) (b : Bool) : (s.setInHandler b).draws = s.draws := rfl
@[simp] theorem State.params_setInHandler (s : State) (b : Bool) : (s.setInHandler b).params = s.params := rfl

/-! ### setStatus -/

@[simp] theorem State.reg_setStatus (s : State) (u : Status) (q : Reg) : (s.setStatus u).reg q = s.reg q := rfl
@[simp] theorem State.regs_setStatus (s : State) (u : Status) : (s.setStatus u).regs = s.regs := rfl
@[simp] theorem State.fsize_setStatus (s : State) (u : Status) : (s.setStatus u).fsize = s.fsize := rfl
@[simp] theorem State.inHandler_setStatus (s : State) (u : Status) : (s.setStatus u).inHandler = s.inHandler := rfl
@[simp] theorem State.status_setStatus (s : State) (u : Status) : (s.setStatus u).status = u := rfl
@[simp] theorem State.devices_setStatus (s : State) (u : Status) : (s.setStatus u).devices = s.devices := rfl
@[simp] theorem State.draws_setStatus (s : State) (u : Status) : (s.setStatus u).draws = s.draws := rfl
@[simp] theorem State.params_setStatus (s : State) (u : Status) : (s.setStatus u).params = s.params := rfl

/-! ### setDevices -/

@[simp] theorem State.reg_setDevices (s : State) (ds : List Device) (q : Reg) : (s.setDevices ds).reg q = s.reg q := rfl
@[simp] theorem State.regs_setDevices (s : State) (ds : List Device) : (s.setDevices ds).regs = s.regs := rfl
@[simp] theorem State.fsize_setDevices (s : State) (ds : List Device) : (s.setDevices ds).fsize = s.fsize := rfl
@[simp] theorem State.inHandler_setDevices (s : State) (ds : List Device) : (s.setDevices ds).inHandler = s.inHandler := rfl
@[simp] theorem State.status_setDevices (s : State) (ds : List Device) : (s.setDevices ds).status = s.status := rfl
@[simp] theorem State.devices_setDevices (s : State) (ds : List Device) : (s.setDevices ds).devices = ds := rfl
@[simp] theorem State.draws_setDevices (s : State) (ds : List Device) : (s.setDevices ds).draws = s.draws := rfl
@[simp] theorem State.params_setDevices (s : State) (ds : List Device) : (s.setDevices ds).params = s.params := rfl

/-! ### setDraws -/

@[simp] theorem State.reg_setDraws (s : State) (n : Nat) (q : Reg) : (s.setDraws n).reg q = s.reg q := rfl
@[simp] theorem State.regs_setDraws (s : State) (n : Nat) : (s.setDraws n).regs = s.regs := rfl
@[simp] theorem State.fsize_setDraws (s : State) (n : Nat) : (s.setDraws n).fsize = s.fsize := rfl
@[simp] theorem State.inHandler_setDraws (s : State) (n : Nat) : (s.setDraws n).inHandler = s.inHandler := rfl
@[simp] theorem State.status_setDraws (s : State) (n : Nat) : (s.setDraws n).status = s.status := rfl
@[simp] theorem State.devices_setDraws (s : State) (n : Nat) : (s.setDraws n).devices = s.devices := rfl
@[simp] theorem State.draws_setDraws (s : State) (n : Nat) : (s.setDraws n).draws = n := rfl
@[simp] theorem State.params_setDraws (s : State) (n : Nat) : (s.setDraws n).params = s.params := rfl

/-- Two states with the same registers, hidden state, status, devices, draws and parameters are equal. -/
theorem State.ext_fields {s t : State} (hr : ∀ r, s.reg r = t.reg r) (hf : s.fsize = t.fsize)
    (hi : s.inHandler = t.inHandler) (hs : s.status = t.status) (hd : s.devices = t.devices) (hn : s.draws = t.draws)
    (hp : s.params = t.params) : s = t := by
  have h : s.regs = t.regs := Regs.ext_get hr
  cases s; cases t
  simp_all

/-- The registers right after reset. -/
theorem State.reg_resetOf (p : Params) (r : Reg) :
    (State.resetOf p).reg r = match r with
      | .sp => p.stackTop | .fp => p.stackTop | .im => p.imReset | _ => 0 := by cases r <;> rfl

end Sys2Proof.Machine
end

