-- ==== Sys2Proof/Laws/Access.lean ====
section
/-! SUPPORT. What one access through the mapper can do: one lemma per shared operation, which later proofs cite instead
of unfolding it. -/

namespace Sys2Proof.Machine

/-! ## The mapper does not look at the registers, but for `mb` -/

theorem route_congr {s t : State} (hp : t.params = s.params) (hd : t.devices = s.devices) (A : Word) :
    route t A = route s A := by simp [route, hp, hd]

theorem peekWord_congr {s t : State} (hp : t.params = s.params) (hd : t.devices = s.devices)
    (hm : t.reg .mb = s.reg .mb) (A : Word) : peekWord t A = peekWord s A := by
  simp [peekWord, route_congr hp hd, hm]

theorem peek_congr {s t : State} (hp : t.params = s.params) (hd : t.devices = s.devices)
    (hm : t.reg .mb = s.reg .mb) (A : Word) : peek t A = peek s A := by
  simp [peek, route_congr hp hd, hm]

theorem location_congr {s t : State} (hp : t.params = s.params) (hd : t.devices = s.devices)
    (hm : t.reg .mb = s.reg .mb) (A : Word) : location t A = location s A := by
  simp [location, route_congr hp hd, hm]

/-! ## Reads -/

/-- A read changes nothing but the model's counter of peripheral accesses. -/
theorem memRead_ok {w : Width} {A v : Word} {s t : State} (h : memRead w A s = .ok (v, t)) :
    ∃ n, t = s.setDraws n := by
  unfold memRead at h
  split at h
  · cases h
  · split at h
    · cases h
    · cases h; exact ⟨_, rfl⟩

/-- A refused read is a MemoryFault of that address, width and direction. -/
theorem memRead_error {w : Width} {A : Word} {s : State} {e : MemError} (h : memRead w A s = .error e) :
    e = ⟨A, w, .read⟩ := by
  unfold memRead at h
  split at h
  · cases h; rfl
  · split at h
    · cases h; rfl
    · cases h

/-- A device with storage reads as its storage does, and the access leaves the state as it was. -/
theorem memRead_of_storage {s : State} {A : Word} {r : Region} {d : Device} {size : Nat} {m : Memory} (w : Width)
    (hr : route s A = some (r, d)) (hd : deviceStorage d (s.reg .mb) = some (size, m)) :
    memRead w A s = match storageRead size m w (localAddr r A) with
      | none => .error ⟨A, w, .read⟩
      | some v => .ok (v, s) := by
  cases d with
  | ram n b =>
    cases hd
    simp only [memRead, hr, deviceRead, drawsAfter]
    cases storageRead size m w (localAddr r A) <;> rfl
  | banked n bs =>
    simp only [deviceStorage] at hd
    split at hd
    · cases hd
    · rename_i b hb
      cases hd
      simp only [memRead, hr, deviceRead, hb, drawsAfter]
      cases storageRead size m w (localAddr r A) <;> rfl
  | peripheral ev => cases hd

/-- What can be inspected as a word is what a 2-byte read answers, without any effect. -/
theorem memRead_word_of_peekWord {s : State} {A v : Word} (h : peekWord s A = some v) :
    memRead .word A s = .ok (v, s) := by
  unfold peekWord at h
  split at h
  · cases h
  · rename_i r d hr
    split at h
    · cases h
    · rename_i size m hd
      rw [memRead_of_storage .word hr hd, h]

/-- What can be inspected as a byte is what a 1-byte read answers, without any effect. -/
theorem memRead_byte_of_peek {s : State} {A : Word} {b : Byte} (h : peek s A = some b) :
    memRead .byte A s = .ok (b.setWidth 16, s) := by
  unfold peek at h
  split at h
  · cases h
  · rename_i r d hr
    split at h
    · cases h
    · rename_i size m hd
      split at h
      · rename_i hL
        cases h
        rw [memRead_of_storage .byte hr hd]
        simp [storageRead, hL]
      · cases h

/-! ## Writes -/

theorem deviceShape_deviceWrite {d d' : Device} {mb : Word} {n : Nat} {w : Width} {L v : Word}
    (h : deviceWrite d mb n w L v = some d') : deviceShape d' = deviceShape d := by
  cases d with
  | ram size m =>
    simp only [deviceWrite, Option.map_eq_some_iff] at h
    obtain ⟨m', -, rfl⟩ := h
    rfl
  | banked size banks =>
    simp only [deviceWrite] at h
    split at h
    · cases h
    · simp only [Option.map_eq_some_iff] at h
      obtain ⟨m', -, rfl⟩ := h
      simp only [deviceShape, Device.banked.injEq, true_and]
      apply List.ext_getElem
      · simp
      · intro i h₁ h₂
        simp only [List.getElem_map]
  | peripheral ev =>
    simp only [deviceWrite] at h
    split at h <;> cases h
    rfl

theorem deviceWf_deviceWrite {d d' : Device} {mb : Word} {n : Nat} {w : Width} {L v : Word}
    (hd : deviceWf d = true) (h : deviceWrite d mb n w L v = some d') : deviceWf d' = true := by
  cases d with
  | ram size m =>
    simp only [deviceWrite, Option.map_eq_some_iff] at h
    obtain ⟨m', hm, rfl⟩ := h
    exact memWf_storageWrite hd hm
  | banked size banks =>
    simp only [deviceWrite] at h
    split at h
    · cases h
    · rename_i m hm
      simp only [Option.map_eq_some_iff] at h
      obtain ⟨m', hw, rfl⟩ := h
      simp only [deviceWf, Bool.and_eq_true, decide_eq_true_eq, List.all_eq_true] at hd ⊢
      refine ⟨fun hnil => hd.1 ?_, fun x hx => ?_⟩
      · have := congrArg List.length hnil
        simpa using this
      · rcases List.mem_or_eq_of_mem_set hx with hx | rfl
        · exact hd.2 x hx
        · exact memWf_storageWrite (hd.2 m (List.mem_of_getElem? hm)) hw
  | peripheral ev =>
    simp only [deviceWrite] at h
    split at h <;> cases h
    rfl

theorem route_some {s : State} {A : Word} {r : Region} {d : Device} (h : route s A = some (r, d)) :
    s.devices[r.device]? = some d := by
  unfold route at h
  split at h
  · cases h
  · split at h
    · cases h
    · cases h; assumption

/-- A write changes only the devices, of which it keeps the shapes and the canonical form, and the model's counter. -/
theorem memWrite_ok {w : Width} {A v : Word} {s t : State} (h : memWrite w A v s = .ok t) :
    ∃ ds n, t = (s.setDevices ds).setDraws n ∧ ds.map deviceShape = s.devices.map deviceShape ∧
      (stateWf s = true → ds.all deviceWf = true) := by
  unfold memWrite at h
  split at h
  · cases h
  · rename_i r d hr
    split at h
    · cases h
    · rename_i d' hd
      cases h
      have hg := route_some hr
      refine ⟨_, _, rfl, ?_, fun hwf => ?_⟩
      · apply List.ext_getElem?
        intro i
        rw [List.getElem?_map, List.getElem?_map, List.getElem?_set]
        split
        · rename_i hi
          subst hi
          have : r.device < s.devices.length := (List.getElem?_eq_some_iff.mp hg).1
          rw [if_pos this, hg, Option.map_some, Option.map_some, deviceShape_deviceWrite hd]
        · rfl
      · simp only [stateWf, List.all_eq_true] at hwf ⊢
        intro x hx
        rcases List.mem_or_eq_of_mem_set hx with hx | rfl
        · exact hwf x hx
        · exact deviceWf_deviceWrite (hwf d (List.mem_of_getElem? hg)) hd

/-- A refused write is a MemoryFault of that address, width and direction. -/
theorem memWrite_error {w : Width} {A v : Word} {s : State} {e : MemError} (h : memWrite w A v s = .error e) :
    e = ⟨A, w, .write⟩ := by
  unfold memWrite at h
  split at h
  · cases h; rfl
  · split at h
    · cases h; rfl
    · cases h

/-! ## What a served store leaves in memory -/

/-- Where a word is served, by what, and that both its bytes are inside. -/
theorem wordServed_storage {s : State} {A : Word} (h : wordServed s A = true) :
    ∃ r d size m, route s A = some (r, d) ∧ deviceStorage d (s.reg .mb) = some (size, m) ∧
      (localAddr r A).toNat + 1 < size := by
  unfold wordServed peekWord at h
  split at h
  · cases h
  · rename_i r d hr
    split at h
    · cases h
    · rename_i size m hd
      refine ⟨r, d, size, m, hr, hd, Classical.byContradiction fun hc => ?_⟩
      simp [storageRead, hc] at h

theorem wordServed_of_storage {s : State} {A : Word} {r : Region} {d : Device} {size : Nat} {m : Memory}
    (hr : route s A = some (r, d)) (hd : deviceStorage d (s.reg .mb) = some (size, m))
    (hL : (localAddr r A).toNat + 1 < size) : wordServed s A = true := by
  simp [wordServed, peekWord, hr, hd, storageRead, hL]

/-- The size of the storage that serves an access depends only on the shape of the device. -/
theorem deviceStorage_shape {d d' : Device} {mb : Word} {size : Nat} {m : Memory}
    (hs : deviceShape d' = deviceShape d) (hd : deviceStorage d mb = some (size, m)) :
    ∃ m', deviceStorage d' mb = some (size, m') := by
  cases d with
  | ram n b =>
    cases hd
    cases d' <;> simp only [deviceShape, Device.ram.injEq, reduceCtorEq] at hs
    obtain ⟨rfl, -⟩ := hs
    exact ⟨_, rfl⟩
  | banked n bs =>
    simp only [deviceStorage] at hd
    split at hd
    · cases hd
    · rename_i b hb
      cases hd
      cases d' <;> simp only [deviceShape, Device.banked.injEq, reduceCtorEq] at hs
      obtain ⟨rfl, hl⟩ := hs
      have hlen := congrArg List.length hl
      simp only [List.length_map] at hlen
      have hi := (List.getElem?_eq_some_iff.mp hb).1
      simp only [bankIndex] at hi
      rename_i bs'
      have hi' : bankIndex mb bs' < bs'.length := by simp only [bankIndex, hlen]; exact hi
      exact ⟨bs'[bankIndex mb bs'], by simp only [deviceStorage, List.getElem?_eq_getElem hi']⟩
  | peripheral ev => cases hd

/-- Whether a word is served depends only on the parameters, the device shapes and `mb`. -/
theorem wordServed_of_shapes {s t : State} (hp : t.params = s.params)
    (hs : t.devices.map deviceShape = s.devices.map deviceShape) (hm : t.reg .mb = s.reg .mb) {A : Word}
    (h : wordServed s A = true) : wordServed t A = true := by
  obtain ⟨r, d, size, m, hr, hd, hL⟩ := wordServed_storage h
  have hg := route_some hr
  have hs' : (t.devices.map deviceShape)[r.device]? = (s.devices.map deviceShape)[r.device]? := by rw [hs]
  rw [List.getElem?_map, List.getElem?_map, hg, Option.map_some] at hs'
  obtain ⟨d', hd', he⟩ := Option.map_eq_some_iff.mp hs'
  have hr' : route t A = some (r, d') := by
    unfold route at hr ⊢
    rw [hp]
    split at hr
    · cases hr
    · rename_i r' hf
      split at hr
      · cases hr
      · rename_i d'' hd''
        cases hr
        simp only [hd']
  obtain ⟨m', hm'⟩ := deviceStorage_shape he (hm ▸ hd)
  exact wordServed_of_storage hr' hm' hL

theorem location_of_storage {s : State} {A : Word} {r : Region} {d : Device} {size : Nat} {m : Memory}
    (hr : route s A = some (r, d)) (hd : deviceStorage d (s.reg .mb) = some (size, m)) :
    location s A = some (r.device, (match d with | .banked _ bs => bankIndex (s.reg .mb) bs | _ => 0),
      (localAddr r A).toNat) := by
  cases d with
  | ram n b => simp [location, hr]
  | banked n bs => simp [location, hr]
  | peripheral ev => cases hd

/-- The devices after a store to a device with storage. -/
theorem memWrite_of_storage {s : State} {A v : Word} {r : Region} {d : Device} {size : Nat} {m : Memory}
    (hr : route s A = some (r, d)) (hd : deviceStorage d (s.reg .mb) = some (size, m))
    (hL : (localAddr r A).toNat + 1 < size) :
    ∃ d', memWrite .word A v s = .ok (s.setDevices (s.devices.set r.device d')) ∧
      deviceStorage d' (s.reg .mb) = some (size, writeByte (writeByte m (localAddr r A).toNat (hiByte v))
        ((localAddr r A).toNat + 1) (loByte v)) ∧
      (match d with
        | .ram _ _ => d' = .ram size (writeByte (writeByte m (localAddr r A).toNat (hiByte v))
            ((localAddr r A).toNat + 1) (loByte v))
        | .banked _ bs => bs[bankIndex (s.reg .mb) bs]? = some m ∧
            d' = .banked size (bs.set (bankIndex (s.reg .mb) bs) (writeByte (writeByte m (localAddr r A).toNat
              (hiByte v)) ((localAddr r A).toNat + 1) (loByte v)))
        | .peripheral _ => False) := by
  cases d with
  | ram n b =>
    cases hd
    refine ⟨_, ?_, ?_, rfl⟩
    · simp only [memWrite, hr, deviceWrite, storageWrite, hL, if_true, Option.map_some, drawsAfter]; rfl
    · rfl
  | banked n bs =>
    simp only [deviceStorage] at hd
    split at hd
    · cases hd
    · rename_i b hb
      cases hd
      refine ⟨_, ?_, ?_, hb, rfl⟩
      · simp only [memWrite, hr, deviceWrite, hb, storageWrite, hL, if_true, Option.map_some, drawsAfter]; rfl
      · have hi := (List.getElem?_eq_some_iff.mp hb).1
        simp only [bankIndex] at hi ⊢
        simp only [deviceStorage, bankIndex, List.length_set, List.getElem?_set, hi, if_true]
  | peripheral ev => cases hd

/-- A 2-byte write completes where the word is served, and changes only the devices. -/
theorem memWrite_word_of_served {s : State} {A : Word} (v : Word) (h : wordServed s A = true) :
    ∃ ds, memWrite .word A v s = .ok (s.setDevices ds) := by
  obtain ⟨r, d, size, m, hr, hd, hL⟩ := wordServed_storage h
  obtain ⟨d', hw, -, -⟩ := memWrite_of_storage (v := v) hr hd hL
  exact ⟨_, hw⟩

theorem bigEndian_bytes (v : Word) : bigEndian (hiByte v) (loByte v) = v := by
  simp only [bigEndian, hiByte, loByte]
  apply BitVec.eq_of_getLsbD_eq
  intro i hi
  simp only [BitVec.getLsbD_append, BitVec.getLsbD_extractLsb']
  by_cases h : i < 8
  · simp [h]
  · simp only [h, decide_false, Bool.false_and]
    have h1 : 8 + (i - 8) = i := by omega
    have h2 : i - 8 < 8 := by omega
    simp [h1, h2]

theorem deviceWf_storage {d : Device} {mb : Word} {size : Nat} {m : Memory} (hd : deviceWf d = true)
    (h : deviceStorage d mb = some (size, m)) : memWf size m = true := by
  cases d with
  | ram n b => cases h; exact hd
  | banked n bs =>
    simp only [deviceStorage] at h
    split at h
    · cases h
    · rename_i b hb
      cases h
      simp only [deviceWf, Bool.and_eq_true, List.all_eq_true] at hd
      exact hd.2 m (List.mem_of_getElem? hb)
  | peripheral ev => cases h

/-- Everything a served 2-byte store does: it completes, changes only the devices, and changes memory as `MemStored`
says. -/
theorem memWrite_stored {s : State} {A : Word} (v : Word) (hwf : stateWf s = true) (h : wordServed s A = true) :
    ∃ ds, memWrite .word A v s = .ok (s.setDevices ds) ∧ MemStored s (s.setDevices ds) A v := by
  obtain ⟨r, d, size, m, hr, hd, hL⟩ := wordServed_storage h
  obtain ⟨d', hw, hd', hform⟩ := memWrite_of_storage (v := v) hr hd hL
  have hg := route_some hr
  have hlt := (List.getElem?_eq_some_iff.mp hg).1
  have hm : memWf size m = true := by
    refine deviceWf_storage ?_ hd
    simp only [stateWf, List.all_eq_true] at hwf
    exact hwf d (List.mem_of_getElem? hg)
  have hsort := (memWf_iff size m).mp hm |>.1
  have read : ∀ j, readByte (writeByte (writeByte m (localAddr r A).toNat (hiByte v)) ((localAddr r A).toNat + 1)
      (loByte v)) j = if j = (localAddr r A).toNat + 1 then loByte v
        else if j = (localAddr r A).toNat then hiByte v else readByte m j := by
    intro j
    rw [readByte_writeByte (sorted_writeByte hsort _ _), readByte_writeByte hsort]
  refine ⟨_, hw, ?_, ?_, ?_⟩
  · have hr' : route (s.setDevices (s.devices.set r.device d')) A = some (r, d') := by
      unfold route at hr ⊢
      split at hr
      · cases hr
      · rename_i r' hf
        split at hr
        · cases hr
        · cases hr
          simp [hf, hlt]
    simp [peekWord, hr', hd', storageRead, hL, read, bigEndian_bytes]
  · intro dv k L hout
    have hloc := location_of_storage hr hd
    have hne := hout _ _ _ hloc
    simp only [deviceByte, State.devices_setDevices, List.getElem?_set]
    by_cases hdv : r.device = dv
    · subst hdv
      simp only [if_pos, hlt, hg]
      cases d with
      | ram n b =>
        cases hd
        subst hform
        by_cases hk : k = 0
        · subst hk
          have h1 : L ≠ (localAddr r A).toNat := fun he => hne ⟨rfl, rfl, .inl he⟩
          have h2 : L ≠ (localAddr r A).toNat + 1 := fun he => hne ⟨rfl, rfl, .inr he⟩
          simp only [read, h1, h2, if_false]
        · simp [hk]
      | banked n bs =>
        obtain ⟨hb, rfl⟩ := hform
        have hn : n = size := by
          simp only [deviceStorage, hb] at hd
          cases hd; rfl
        subst hn
        simp only [List.getElem?_set]
        by_cases hk : bankIndex (s.reg .mb) bs = k
        · subst hk
          have h1 : L ≠ (localAddr r A).toNat := fun he => hne ⟨rfl, rfl, .inl he⟩
          have h2 : L ≠ (localAddr r A).toNat + 1 := fun he => hne ⟨rfl, rfl, .inr he⟩
          have hi := (List.getElem?_eq_some_iff.mp hb).1
          simp only [if_pos, hi, hb, read, h1, h2, if_false]
        · simp only [if_neg hk]
      | peripheral ev => cases hd
    · simp only [if_neg hdv]
  · intro dv
    simp only [peripheralEvents, State.devices_setDevices, List.getElem?_set]
    by_cases hdv : r.device = dv
    · subst hdv
      simp only [if_pos, hlt, hg]
      cases d with
      | ram n b => subst hform; rfl
      | banked n bs => obtain ⟨-, rfl⟩ := hform; rfl
      | peripheral ev => cases hd
    · simp only [if_neg hdv]

end Sys2Proof.Machine
end

