-- ==== Sys2Proof/Laws/Stack.lean ====
section
/-! SUPPORT. What the stack primitives, call, return and interrupt entry can do: one lemma each that says everything a
completed operation changes, and one that says where it completes. -/

namespace Sys2Proof.Machine

/-! ## What every operation keeps -/

/-- From `s` to `t` the parameters, the device shapes and the canonical form are kept. -/
structure Keeps (s t : State) : Prop where
  params : t.params = s.params
  shapes : t.devices.map deviceShape = s.devices.map deviceShape
  wf     : stateWf s = true → stateWf t = true

theorem Keeps.refl (s : State) : Keeps s s := ⟨rfl, rfl, id⟩

theorem Keeps.trans {s t u : State} (h : Keeps s t) (k : Keeps t u) : Keeps s u :=
  ⟨k.params.trans h.params, k.shapes.trans h.shapes, fun w => k.wf (h.wf w)⟩

/-- An update of registers, hidden state or status keeps everything memory rests on. -/
theorem Keeps.of_same {s t : State} (hp : t.params = s.params) (hd : t.devices = s.devices) : Keeps s t :=
  ⟨hp, by rw [hd], by unfold stateWf; rw [hd]; exact id⟩

theorem memRead_keeps {w : Width} {A v : Word} {s t : State} (h : memRead w A s = .ok (v, t)) : Keeps s t := by
  obtain ⟨n, rfl⟩ := memRead_ok h
  exact .of_same rfl rfl

theorem memWrite_keeps {w : Width} {A v : Word} {s t : State} (h : memWrite w A v s = .ok t) : Keeps s t := by
  obtain ⟨ds, n, rfl, hs, hw⟩ := memWrite_ok h
  exact ⟨rfl, hs, hw⟩

/-! ## push and pop (R200, R201) -/

/-- Everything a completed push does. -/
theorem push_ok {v : Word} {s t : State} (h : push v s = .ok t) :
    ∃ u, memWrite .word (s.reg .sp) v s = .ok u ∧
      t = (u.setReg .sp (s.reg .sp - 2)).setFsize (s.fsize + 2) := by
  unfold push at h
  split at h
  · cases h
  · rename_i u hu; cases h; exact ⟨u, hu, rfl⟩

/-- Everything a completed pop does. -/
theorem pop_ok {v : Word} {s t : State} (h : pop s = .ok (v, t)) :
    ∃ u, memRead .word (s.reg .sp + 2) s = .ok (v, u) ∧
      t = (u.setReg .sp (s.reg .sp + 2)).setFsize (s.fsize - 2) := by
  unfold pop at h
  split at h
  · cases h
  · rename_i u hu; cases h; exact ⟨_, hu, rfl⟩

theorem push_keeps {v : Word} {s t : State} (h : push v s = .ok t) : Keeps s t := by
  obtain ⟨u, hu, rfl⟩ := push_ok h
  exact (memWrite_keeps hu).trans (.of_same rfl rfl)

theorem pop_keeps {v : Word} {s t : State} (h : pop s = .ok (v, t)) : Keeps s t := by
  obtain ⟨u, hu, rfl⟩ := pop_ok h
  exact (memRead_keeps hu).trans (.of_same rfl rfl)

/-- What a push leaves of the registers and of the hidden state. -/
theorem push_frame {v : Word} {s t : State} (h : push v s = .ok t) :
    (∀ r, t.reg r = if r = .sp then s.reg .sp - 2 else s.reg r) ∧ t.fsize = s.fsize + 2 ∧
      t.inHandler = s.inHandler ∧ t.status = s.status := by
  obtain ⟨u, hu, rfl⟩ := push_ok h
  obtain ⟨ds, n, rfl, -, -⟩ := memWrite_ok hu
  exact ⟨fun r => by rw [State.reg_setFsize, State.reg_setReg]; simp, rfl, rfl, rfl⟩

/-- What a pop leaves of the registers and of the hidden state. -/
theorem pop_frame {v : Word} {s t : State} (h : pop s = .ok (v, t)) :
    (∀ r, t.reg r = if r = .sp then s.reg .sp + 2 else s.reg r) ∧ t.fsize = s.fsize - 2 ∧
      t.inHandler = s.inHandler ∧ t.status = s.status ∧ t.devices = s.devices := by
  obtain ⟨u, hu, rfl⟩ := pop_ok h
  obtain ⟨n, rfl⟩ := memRead_ok hu
  exact ⟨fun r => by rw [State.reg_setFsize, State.reg_setReg]; simp, rfl, rfl, rfl, rfl⟩

/-- A push completes where the slot at `sp` is served. -/
theorem push_of_served {s : State} (v : Word) (h : wordServed s (s.reg .sp) = true) : ∃ t, push v s = .ok t := by
  obtain ⟨ds, hw⟩ := memWrite_word_of_served v h
  exact ⟨_, by simp only [push, hw]; rfl⟩

/-- A pop completes where the word above `sp` is served, and answers that word. -/
theorem pop_of_peekWord {s : State} {v : Word} (h : peekWord s (s.reg .sp + 2) = some v) :
    pop s = .ok (v, (s.setReg .sp (s.reg .sp + 2)).setFsize (s.fsize - 2)) := by
  simp only [pop, memRead_word_of_peekWord h]

/-! ## The primitives over lists of registers -/

theorem popReg_ok {r : Reg} {s t : State} (h : popReg r s = .ok t) :
    ∃ v u, pop s = .ok (v, u) ∧ t = u.setReg r v := by
  unfold popReg at h
  split at h
  · cases h
  · rename_i v u hu; cases h; exact ⟨v, u, hu, rfl⟩

theorem popReg_keeps {r : Reg} {s t : State} (h : popReg r s = .ok t) : Keeps s t := by
  obtain ⟨v, u, hu, rfl⟩ := popReg_ok h
  exact (pop_keeps hu).trans (.of_same rfl rfl)

theorem pushRegs_keeps {rs : List Reg} {s t : State} (h : pushRegs rs s = .ok t) : Keeps s t := by
  induction rs generalizing s with
  | nil => cases h; exact .refl _
  | cons r rs ih =>
    unfold pushRegs at h
    split at h
    · cases h
    · rename_i u hu; exact (push_keeps hu).trans (ih h)

theorem popRegs_keeps {rs : List Reg} {s t : State} (h : popRegs rs s = .ok t) : Keeps s t := by
  induction rs generalizing s with
  | nil => cases h; exact .refl _
  | cons r rs ih =>
    unfold popRegs at h
    split at h
    · cases h
    · rename_i u hu; exact (popReg_keeps hu).trans (ih h)

theorem popMany_keeps {n : Nat} {s t : State} (h : popMany n s = .ok t) : Keeps s t := by
  induction n generalizing s with
  | zero => cases h; exact .refl _
  | succ n ih =>
    unfold popMany at h
    split at h
    · cases h
    · rename_i v u hu; exact (pop_keeps hu).trans (ih h)

/-- Everything pushing a list of registers without `sp` leaves of the registers and of the hidden state. -/
theorem pushRegs_frame {rs : List Reg} {s t : State} (h : pushRegs rs s = .ok t) :
    (∀ r, r ≠ .sp → t.reg r = s.reg r) ∧ t.reg .sp = s.reg .sp - BitVec.ofNat 16 (2 * rs.length) ∧
      t.fsize = s.fsize + BitVec.ofNat 16 (2 * rs.length) ∧ t.inHandler = s.inHandler ∧ t.status = s.status := by
  induction rs generalizing s with
  | nil => cases h; exact ⟨fun _ _ => rfl, by simp, by simp, rfl, rfl⟩
  | cons r rs ih =>
    unfold pushRegs at h
    split at h
    · cases h
    · rename_i u hu
      obtain ⟨hr, hf, hi, hs⟩ := push_frame hu
      obtain ⟨kr, ks, kf, ki, kt⟩ := ih h
      refine ⟨fun q hq => by rw [kr q hq, hr q, if_neg hq], ?_, ?_, ki.trans hi, kt.trans hs⟩
      · rw [ks, hr .sp, if_pos rfl, List.length_cons, Nat.mul_add, BitVec.ofNat_add]
        generalize BitVec.ofNat 16 (2 * rs.length) = x
        grind
      · rw [kf, hf, List.length_cons, Nat.mul_add, BitVec.ofNat_add]
        generalize BitVec.ofNat 16 (2 * rs.length) = x
        grind

/-- Everything popping and discarding words leaves of the registers and of the hidden state. -/
theorem popMany_frame {n : Nat} {s t : State} (h : popMany n s = .ok t) :
    (∀ r, r ≠ .sp → t.reg r = s.reg r) ∧ t.reg .sp = s.reg .sp + BitVec.ofNat 16 (2 * n) ∧
      t.fsize = s.fsize - BitVec.ofNat 16 (2 * n) ∧ t.inHandler = s.inHandler ∧ t.status = s.status ∧
      t.devices = s.devices := by
  induction n generalizing s with
  | zero => cases h; exact ⟨fun _ _ => rfl, by simp, by simp, rfl, rfl, rfl⟩
  | succ n ih =>
    unfold popMany at h
    split at h
    · cases h
    · rename_i v u hu
      obtain ⟨hr, hf, hi, hs, hd⟩ := pop_frame hu
      obtain ⟨kr, ks, kf, ki, kt, kd⟩ := ih h
      refine ⟨fun q hq => by rw [kr q hq, hr q, if_neg hq], ?_, ?_, ki.trans hi, kt.trans hs, kd.trans hd⟩
      · rw [ks, hr .sp, if_pos rfl, Nat.mul_add, BitVec.ofNat_add]
        generalize BitVec.ofNat 16 (2 * n) = x
        grind
      · rw [kf, hf, Nat.mul_add, BitVec.ofNat_add]
        generalize BitVec.ofNat 16 (2 * n) = x
        grind

/-- Everything popping into a list of registers without `sp` leaves of the other registers and of the hidden state. -/
theorem popRegs_frame {rs : List Reg} (hsp : Reg.sp ∉ rs) {s t : State} (h : popRegs rs s = .ok t) :
    (∀ r, r ≠ .sp → r ∉ rs → t.reg r = s.reg r) ∧ t.reg .sp = s.reg .sp + BitVec.ofNat 16 (2 * rs.length) ∧
      t.fsize = s.fsize - BitVec.ofNat 16 (2 * rs.length) ∧ t.inHandler = s.inHandler ∧ t.status = s.status ∧
      t.devices = s.devices := by
  induction rs generalizing s with
  | nil => cases h; exact ⟨fun _ _ _ => rfl, by simp, by simp, rfl, rfl, rfl⟩
  | cons r rs ih =>
    unfold popRegs at h
    split at h
    · cases h
    · rename_i u hu
      obtain ⟨v, w, hw, rfl⟩ := popReg_ok hu
      obtain ⟨hr, hf, hi, hs, hd⟩ := pop_frame hw
      obtain ⟨kr, ks, kf, ki, kt, kd⟩ := ih (fun hm => hsp (by simp [hm])) h
      have hne : Reg.sp ≠ r := fun he => hsp (by simp [he])
      refine ⟨fun q hq hm => ?_, ?_, ?_, ki.trans hi, kt.trans hs, kd.trans hd⟩
      · simp only [List.mem_cons, not_or] at hm
        rw [kr q hq hm.2, State.reg_setReg, if_neg hm.1, hr q, if_neg hq]
      · rw [ks, State.reg_setReg, if_neg hne, hr .sp, if_pos rfl, List.length_cons, Nat.mul_add, BitVec.ofNat_add]
        generalize BitVec.ofNat 16 (2 * rs.length) = x
        grind
      · rw [kf, State.fsize_setReg, hf, List.length_cons, Nat.mul_add, BitVec.ofNat_add]
        generalize BitVec.ofNat 16 (2 * rs.length) = x
        grind

/-! ## PushState and PopState (R202, R203) -/

theorem pushState_ok {s t : State} (h : pushState s = .ok t) :
    ∃ u v, pushRegs savedRegs s = .ok u ∧ push (u.fsize + 2) u = .ok v ∧
      t = (v.setReg .fp (v.reg .sp)).setFsize 0 := by
  unfold pushState at h
  split at h
  · cases h
  · rename_i u hu
    split at h
    · cases h
    · rename_i v hv; cases h; exact ⟨u, v, hu, hv, rfl⟩

theorem pushState_keeps {s t : State} (h : pushState s = .ok t) : Keeps s t := by
  obtain ⟨u, v, hu, hv, rfl⟩ := pushState_ok h
  exact ((pushRegs_keeps hu).trans (push_keeps hv)).trans (.of_same rfl rfl)

/-- Everything PushState leaves of the registers and of the hidden state. -/
theorem pushState_frame {s t : State} (h : pushState s = .ok t) :
    (∀ r, r ≠ .sp → r ≠ .fp → t.reg r = s.reg r) ∧ t.reg .sp = s.reg .sp - 20 ∧ t.reg .fp = s.reg .sp - 20 ∧
      t.fsize = 0 ∧ t.inHandler = s.inHandler ∧ t.status = s.status := by
  obtain ⟨u, v, hu, hv, rfl⟩ := pushState_ok h
  obtain ⟨hr, hsp, hf, hi, hs⟩ := pushRegs_frame hu
  obtain ⟨kr, kf, ki, kt⟩ := push_frame hv
  have hv : v.reg .sp = s.reg .sp - 20 := by
    rw [kr .sp, if_pos rfl, hsp]
    simp only [savedRegs, List.length_cons, List.length_nil]
    grind
  refine ⟨fun r h₁ h₂ => ?_, ?_, ?_, rfl, ki.trans hi, kt.trans hs⟩
  · rw [State.reg_setFsize, State.reg_setReg, if_neg h₂, kr r, if_neg h₁, hr r h₁]
  · rw [State.reg_setFsize, State.reg_setReg, if_neg (by decide), hv]
  · rw [State.reg_setFsize, State.reg_setReg, if_pos rfl, hv]

theorem popState_ok {s t : State} (h : popState s = .ok t) :
    ∃ S n u v w x, pop (s.setReg .sp (s.reg .fp)) = .ok (S, u) ∧
      popRegs savedRegs.reverse (u.setFsize (S - 2)) = .ok v ∧ pop v = .ok (n, w) ∧ popMany n.toNat w = .ok x ∧
      t = x.setReg .fp (s.reg .fp + S) := by
  unfold popState at h
  split at h
  · cases h
  · rename_i S u hu
    unfold popFrame at h
    split at h
    · cases h
    · rename_i v hv
      split at h
      · cases h
      · rename_i n w hw
        split at h
        · cases h
        · rename_i x hx; cases h; exact ⟨S, n, u, v, w, x, hu, hv, hw, hx, rfl⟩

theorem popState_keeps {s t : State} (h : popState s = .ok t) : Keeps s t := by
  obtain ⟨S, n, u, v, w, x, hu, hv, hw, hx, rfl⟩ := popState_ok h
  have k₁ : Keeps s u := (Keeps.of_same (s := s) (t := s.setReg .sp (s.reg .fp)) rfl rfl).trans (pop_keeps hu)
  have k₂ : Keeps u v := (Keeps.of_same (s := u) (t := u.setFsize (S - 2)) rfl rfl).trans (popRegs_keeps hv)
  exact ((k₁.trans k₂).trans (pop_keeps hw)).trans ((popMany_keeps hx).trans (.of_same rfl rfl))

/-- Everything PopState leaves of the registers that are not restored, of `sp`, `fp` and of the hidden state: `S` is the
saved frame size and `n` the argument count it read. -/
theorem popState_frame {s t : State} (h : popState s = .ok t) :
    ∃ S n : Word, (∀ r, r ≠ .sp → r ≠ .fp → r ∉ savedRegs → t.reg r = s.reg r) ∧
      t.reg .sp = s.reg .fp + 22 + BitVec.ofNat 16 (2 * n.toNat) ∧
      t.fsize = S - 22 - BitVec.ofNat 16 (2 * n.toNat) ∧ t.reg .fp = s.reg .fp + S ∧
      t.inHandler = s.inHandler ∧ t.status = s.status ∧ t.devices = s.devices := by
  obtain ⟨S, n, u, v, w, x, hu, hv, hw, hx, rfl⟩ := popState_ok h
  obtain ⟨ar, -, ai, as, ad⟩ := pop_frame hu
  obtain ⟨br, bsp, bf, bi, bs, bd⟩ := popRegs_frame (by decide) hv
  obtain ⟨cr, cf, ci, cs, cd⟩ := pop_frame hw
  obtain ⟨dr, dsp, df, di, dss, dd⟩ := popMany_frame hx
  refine ⟨S, n, fun r h₁ h₂ h₃ => ?_, ?_, ?_, by simp, ?_, ?_, ?_⟩
  · rw [State.reg_setReg, if_neg h₂, dr r h₁, cr r, if_neg h₁, br r h₁ (by simpa using h₃), State.reg_setFsize, ar r,
      if_neg h₁, State.reg_setReg, if_neg h₁]
  · rw [State.reg_setReg, if_neg (by decide), dsp, cr .sp, if_pos rfl, bsp, State.reg_setFsize, ar .sp, if_pos rfl,
      State.reg_setReg_same]
    generalize BitVec.ofNat 16 (2 * n.toNat) = y
    simp only [savedRegs, List.length_reverse, List.length_cons, List.length_nil]
    grind
  · rw [State.fsize_setReg, df, cf, bf, State.fsize_setFsize]
    generalize BitVec.ofNat 16 (2 * n.toNat) = y
    simp only [savedRegs, List.length_reverse, List.length_cons, List.length_nil]
    grind
  · simp only [State.inHandler_setReg, di, ci, bi, State.inHandler_setFsize, ai]
  · simp only [State.status_setReg, dss, cs, bs, State.status_setFsize, as]
  · simp only [State.devices_setReg, dd, cd, bd, State.devices_setFsize, ad]

/-! ## Calls and interrupts -/

theorem callTo_ok {A : Word} {s t : State} (h : callTo A s = .ok t) :
    ∃ u, pushState s = .ok u ∧ t = u.setReg .ip A := by
  unfold callTo at h
  split at h
  · cases h
  · rename_i u hu; cases h; exact ⟨u, hu, rfl⟩

theorem callTo_keeps {A : Word} {s t : State} (h : callTo A s = .ok t) : Keeps s t := by
  obtain ⟨u, hu, rfl⟩ := callTo_ok h
  exact (pushState_keeps hu).trans (.of_same rfl rfl)

theorem saveForInterrupt_ok {s t : State} (h : saveForInterrupt s = .ok t) :
    (s.inHandler = true ∧ t = s) ∨ (s.inHandler = false ∧ ∃ u, push 0 s = .ok u ∧ pushState u = .ok t) := by
  unfold saveForInterrupt at h
  split at h
  · rename_i hi; cases h; exact .inl ⟨hi, rfl⟩
  · rename_i hi
    split at h
    · cases h
    · rename_i u hu; exact .inr ⟨hi, u, hu, h⟩

theorem saveForInterrupt_keeps {s t : State} (h : saveForInterrupt s = .ok t) : Keeps s t := by
  rcases saveForInterrupt_ok h with ⟨-, rfl⟩ | ⟨-, u, hu, hv⟩
  · exact .refl _
  · exact (push_keeps hu).trans (pushState_keeps hv)

theorem takeInterrupt_ok {n : Nat} {s t : State} (h : takeInterrupt n s = .ok t) :
    ∃ v u w, memRead .word (vectorAddr n s) s = .ok (v, u) ∧ saveForInterrupt u = .ok w ∧
      t = (w.setInHandler true).setReg .ip v := by
  unfold takeInterrupt at h
  split at h
  · cases h
  · rename_i v u hu
    split at h
    · cases h
    · rename_i w hw; cases h; exact ⟨v, u, w, hu, hw, rfl⟩

theorem takeInterrupt_keeps {n : Nat} {s t : State} (h : takeInterrupt n s = .ok t) : Keeps s t := by
  obtain ⟨v, u, w, hu, hw, rfl⟩ := takeInterrupt_ok h
  exact ((memRead_keeps hu).trans (saveForInterrupt_keeps hw)).trans (.of_same rfl rfl)

theorem returnFromInterrupt_keeps {s t : State} (h : returnFromInterrupt s = .ok t) : Keeps s t := by
  unfold returnFromInterrupt at h
  exact (Keeps.of_same (s := s) (t := s.setInHandler false) rfl rfl).trans (popState_keeps h)

/-! ## The fetch -/

theorem fetch8_ok {s t : State} {b : Byte} (h : fetch8 s = .ok (b, t)) :
    ∃ n, t = (s.setDraws n).setReg .ip (s.reg .ip + 1) := by
  unfold fetch8 at h
  split at h
  · cases h
  · rename_i v u hu
    cases h
    obtain ⟨n, rfl⟩ := memRead_ok hu
    exact ⟨n, rfl⟩

theorem fetch16_ok {s t : State} {v : Word} (h : fetch16 s = .ok (v, t)) :
    ∃ n, t = (s.setDraws n).setReg .ip (s.reg .ip + 2) := by
  unfold fetch16 at h
  split at h
  · cases h
  · rename_i v u hu
    cases h
    obtain ⟨n, rfl⟩ := memRead_ok hu
    exact ⟨n, rfl⟩

/-- Fetching the fields of a layout changes only the model's counter and `ip`, which moves past the fields. -/
theorem readFields_ok {ks : List FieldKind} {f g : Fields} {s t : State}
    (h : readFields fetch8 fetch16 ks f s = .ok (g, t)) :
    ∃ n, t = (s.setDraws n).setReg .ip (s.reg .ip + BitVec.ofNat 16 (ks.map FieldKind.width).sum) := by
  induction ks generalizing f s with
  | nil => cases h; exact ⟨t.draws, by cases t; simp [State.setDraws, State.setReg, State.reg, Regs.set, Regs.get]⟩
  | cons k ks ih =>
    have step1 : ∀ {u : State} {f' : Fields} {n : Nat} (c : Nat),
        u = (s.setDraws n).setReg .ip (s.reg .ip + BitVec.ofNat 16 c) → FieldKind.width k = c →
        readFields fetch8 fetch16 ks f' u = .ok (g, t) →
        ∃ n, t = (s.setDraws n).setReg .ip (s.reg .ip + BitVec.ofNat 16 ((k :: ks).map FieldKind.width).sum) := by
      intro u f' n c hu hc hrest
      obtain ⟨m, hm⟩ := ih hrest
      refine ⟨m, ?_⟩
      rw [hm, hu, List.map_cons, List.sum_cons, hc, BitVec.ofNat_add, ← BitVec.add_assoc]
      simp [State.setDraws, State.setReg, State.reg, Regs.set, Regs.get]
    cases k <;> simp only [readFields] at h <;> split at h <;> try cases h
    · rename_i v u hu; obtain ⟨n, hn⟩ := fetch16_ok hu; exact step1 2 hn rfl h
    · rename_i v u hu; obtain ⟨n, hn⟩ := fetch16_ok hu; exact step1 2 hn rfl h
    · rename_i v u hu; obtain ⟨n, hn⟩ := fetch8_ok hu; exact step1 1 hn rfl h
    · rename_i v u hu; obtain ⟨n, hn⟩ := fetch8_ok hu; exact step1 1 hn rfl h

theorem op_instrOf (o : Op) (L A : Word) (ra rb : Reg) : (instrOf o L A ra rb).op = o := by cases o <;> rfl

/-- Everything a completed fetch and decode does: it changes only the model's counter and `ip`, which moves past the
instruction (spec/10_state.md R24). -/
theorem fetchInstr_ok {s t : State} {i : Instr} (h : fetchInstr s = .ok (i, t)) :
    ∃ n, t = (s.setDraws n).setReg .ip (s.reg .ip + BitVec.ofNat 16 i.op.size) := by
  unfold fetchInstr at h
  split at h
  · cases h
  · rename_i op s₁ h₁
    split at h
    · cases h
    · rename_i o ho
      split at h
      · cases h
      · rename_i f s₂ h₂
        split at h
        · cases h
        · rename_i ra rb hr
          cases h
          obtain ⟨n, rfl⟩ := fetch8_ok h₁
          obtain ⟨m, rfl⟩ := readFields_ok h₂
          refine ⟨m, ?_⟩
          rw [op_instrOf, Op.size, Format.size, BitVec.ofNat_add, ← BitVec.add_assoc]
          simp [State.setDraws, State.setReg, State.reg, Regs.set, Regs.get]

theorem fetchInstr_keeps {s t : State} {i : Instr} (h : fetchInstr s = .ok (i, t)) : Keeps s t := by
  obtain ⟨n, rfl⟩ := fetchInstr_ok h
  exact .of_same rfl rfl

/-! ## The end of an instruction -/

theorem conclude_next {o : Op} {s t : State} {r : Except MemError State} (h : conclude o s r = .next t) :
    r = .ok t := by
  cases r <;> simp_all [conclude]

theorem loadReg_ok {A : Word} {r : Reg} {s t : State} (h : loadReg A r s = .ok t) :
    ∃ v n, memRead .word A s = .ok (v, s.setDraws n) ∧ t = (s.setDraws n).setReg r v := by
  unfold loadReg at h
  split at h
  · cases h
  · rename_i v u hu
    cases h
    obtain ⟨n, rfl⟩ := memRead_ok hu
    exact ⟨v, n, hu, rfl⟩

end Sys2Proof.Machine
end

