-- ==== Sys2Proof/Laws/Flat.lean ====
section
/-! SUPPORT. The default platform: every access lands in the one RAM at its own address, so memory can be read and
written through addresses alone. -/

namespace Sys2Proof.Machine

theorem word_toNat_lt (A : Word) : A.toNat < 65536 := A.isLt

/-- On the default platform every address is served by the one RAM, at itself. -/
theorem flat_route {s : State} {m : Memory} (hp : s.params.regions = defaultRegions)
    (hd : s.devices = [.ram 65536 m]) (A : Word) :
    route s A = some (⟨0, 0x0000, 0xFFFF, false⟩, .ram 65536 m) := by
  have hf : findRegion defaultRegions A = some ⟨0, 0x0000, 0xFFFF, false⟩ := by
    have hA := word_toNat_lt A
    have hi : (0xFFFF : Word).toNat = 65535 := rfl
    have h : inRegion A ⟨0, 0x0000, 0xFFFF, false⟩ = true :=
      decide_eq_true ⟨Nat.zero_le _, by rw [hi]; omega⟩
    rw [findRegion, defaultRegions, List.find?_cons, h]
  simp only [route, hp, hf, hd]
  rfl

theorem flat_peek {s : State} {m : Memory} (hp : s.params.regions = defaultRegions)
    (hd : s.devices = [.ram 65536 m]) (A : Word) : peek s A = some (readByte m A.toNat) := by
  have hA := word_toNat_lt A
  simp [peek, flat_route hp hd, deviceStorage, localAddr, hA]

theorem flat_peekWord {s : State} {m : Memory} (hp : s.params.regions = defaultRegions)
    (hd : s.devices = [.ram 65536 m]) (A : Word) :
    peekWord s A = if A.toNat + 1 < 65536 then
      some (bigEndian (readByte m A.toNat) (readByte m (A.toNat + 1))) else none := by
  simp [peekWord, flat_route hp hd, deviceStorage, localAddr, storageRead]

/-- On the default platform a word is served at every address but 0xFFFF. -/
theorem flat_wordServed {s : State} (h : Flat s) (A : Word) : wordServed s A = true ↔ A ≠ 0xFFFF := by
  obtain ⟨hp, m, hd⟩ := h
  have hA := word_toNat_lt A
  have hi : (0xFFFF : Word).toNat = 65535 := rfl
  rw [wordServed, flat_peekWord hp hd]
  constructor
  · intro hs he
    subst he
    cases hs
  · intro hne
    have : A.toNat ≠ 65535 := fun he => hne (BitVec.eq_of_toNat_eq (he.trans hi.symm))
    rw [if_pos (by omega)]
    rfl

/-- A write that completes on the default platform leaves the default platform. -/
theorem flat_memWrite {s t : State} {w : Width} {A v : Word} (h : Flat s) (hw : memWrite w A v s = .ok t) :
    Flat t := by
  obtain ⟨hp, m, hd⟩ := h
  have hroute := flat_route hp hd A
  cases w <;> simp only [memWrite, hroute, deviceWrite, storageWrite] at hw <;> split at hw
  all_goals first | (cases hw; done) | skip
  all_goals
    rename_i d' hd'
    split at hd'
    · simp only [Option.map_some, Option.some.injEq] at hd'
      subst hd'
      cases hw
      exact ⟨hp, _, by simp only [State.devices_setDraws, State.devices_setDevices, hd, List.set_cons_zero]; rfl⟩
    · cases hd'

/-- A word stored on the default platform, as later reads of bytes see it. -/
theorem flat_store {s t : State} {A v : Word} (h : Flat s) (hwf : stateWf s = true)
    (hw : memWrite .word A v s = .ok t) (B : Word) :
    A ≠ 0xFFFF ∧ peek t B = if B = A then some (hiByte v) else if B = A + 1 then some (loByte v) else peek s B := by
  obtain ⟨hp, m, hd⟩ := h
  have hm : memWf 65536 m = true := by simpa [stateWf, hd, deviceWf] using hwf
  have hsort := ((memWf_iff _ _).mp hm).1
  have hroute := flat_route hp hd A
  simp only [memWrite, hroute, deviceWrite, storageWrite, localAddr] at hw
  split at hw
  · cases hw
  · rename_i d' hd'
    by_cases hL : A.toNat + 1 < 65536
    · simp only [Bool.false_eq_true, if_false, hL, if_true, Option.map_some, Option.some.injEq] at hd'
      subst hd'
      cases hw
      have hA1 : (A + 1).toNat = A.toNat + 1 := by
        have h1 : (1 : Word).toNat = 1 := rfl
        rw [BitVec.toNat_add, h1]
        omega
      refine ⟨fun he => ?_, ?_⟩
      · subst he
        exact absurd hL (by decide)
      · have hd₂ : s.devices.set 0 (.ram 65536 (writeByte (writeByte m A.toNat (hiByte v)) (A.toNat + 1) (loByte v))) =
            [.ram 65536 (writeByte (writeByte m A.toNat (hiByte v)) (A.toNat + 1) (loByte v))] := by rw [hd]; rfl
        rw [flat_peek (s := (s.setDevices (s.devices.set 0 _)).setDraws _) hp hd₂, flat_peek hp hd, readByte_writeByte (sorted_writeByte hsort _ _), readByte_writeByte hsort]
        have e1 : B = A ↔ B.toNat = A.toNat := BitVec.toNat_inj.symm
        have e2 : B = A + 1 ↔ B.toNat = A.toNat + 1 := by rw [← hA1]; exact BitVec.toNat_inj.symm
        by_cases h1 : B = A
        · have h1' := e1.mp h1
          rw [if_pos h1, if_neg (by omega), if_pos h1']
        · rw [if_neg h1]
          have h1' : ¬ B.toNat = A.toNat := fun h => h1 (e1.mpr h)
          by_cases h2 : B = A + 1
          · rw [if_pos h2, if_pos (e2.mp h2)]
          · rw [if_neg h2, if_neg fun h => h2 (e2.mpr h), if_neg h1']
    · simp [hL] at hd'

/-- On the default platform a word is the two bytes at its address and the next. -/
theorem flat_peekWord_bytes {s : State} (h : Flat s) {A : Word} (hA : A ≠ 0xFFFF) {a b : Byte}
    (h₁ : peek s A = some a) (h₂ : peek s (A + 1) = some b) : peekWord s A = some (bigEndian a b) := by
  obtain ⟨hp, m, hd⟩ := h
  have hlt := word_toNat_lt A
  have hi : (0xFFFF : Word).toNat = 65535 := rfl
  have hne : A.toNat ≠ 65535 := fun he => hA (BitVec.eq_of_toNat_eq (he.trans hi.symm))
  rw [flat_peek hp hd, Option.some.injEq] at h₁ h₂
  have hA1 : (A + 1).toNat = A.toNat + 1 := by
    have h1 : (1 : Word).toNat = 1 := rfl
    rw [BitVec.toNat_add, h1]
    omega
  rw [flat_peekWord hp hd, if_pos (by omega), h₁, ← hA1, h₂]

/-- On the default platform words read alike where their bytes do. -/
theorem flat_peekWord_congr {s t : State} (hs : Flat s) (ht : Flat t) {A : Word} (h₁ : peek t A = peek s A)
    (h₂ : peek t (A + 1) = peek s (A + 1)) : peekWord t A = peekWord s A := by
  by_cases hA : A = 0xFFFF
  · have n1 : ¬ wordServed s A = true := fun h => (flat_wordServed hs A).mp h hA
    have n2 : ¬ wordServed t A = true := fun h => (flat_wordServed ht A).mp h hA
    simp only [wordServed, Bool.not_eq_true, Option.isSome_eq_false_iff, Option.isNone_iff_eq_none] at n1 n2
    rw [n1, n2]
  · obtain ⟨hp, m, hd⟩ := hs
    have h1 := flat_peek hp hd A
    have h2 := flat_peek hp hd (A + 1)
    rw [flat_peekWord_bytes ht hA (h₁.trans h1) (h₂.trans h2), flat_peekWord_bytes ⟨hp, m, hd⟩ hA h1 h2]

end Sys2Proof.Machine
end

