-- ==== Sys2Proof/Laws/Words.lean ====
section
/-! SUPPORT. The stack as a list of words: pushing registers is pushing their values, what pushing a list of words
completes with and leaves, and what popping known words gives. Calls, returns and interrupt entry are read off these. -/

namespace Sys2Proof.Machine

/-- Push the words of a list in its order. -/
def pushWords : List Word → State → Except MemError State
  | [], s => .ok s
  | v :: vs, s =>
    match push v s with
    | .error e => .error e
    | .ok s' => pushWords vs s'

theorem pushWords_append (vs ws : List Word) (s : State) :
    pushWords (vs ++ ws) s = match pushWords vs s with
      | .error e => .error e
      | .ok t => pushWords ws t := by
  induction vs generalizing s with
  | nil => rfl
  | cons v vs ih =>
    simp only [List.cons_append, pushWords]
    cases push v s with
    | error e => rfl
    | ok t => exact ih t

/-- Pushing registers other than `sp` pushes the values they hold at the start. -/
theorem pushRegs_eq {rs : List Reg} (hsp : Reg.sp ∉ rs) (s : State) : pushRegs rs s = pushWords (rs.map s.reg) s := by
  induction rs generalizing s with
  | nil => rfl
  | cons r rs ih =>
    simp only [pushRegs, List.map_cons, pushWords]
    cases h : push (s.reg r) s with
    | error e => rfl
    | ok t =>
      have hrs : Reg.sp ∉ rs := fun hm => hsp (by simp [hm])
      have hmap : rs.map t.reg = rs.map s.reg := by
        refine List.map_congr_left fun q hq => ?_
        rw [(push_frame h).1 q, if_neg fun he : q = Reg.sp => hrs (he ▸ hq)]
      simp only [ih hrs t, hmap]

/-- The words PushState pushes, the first pushed first (R202). -/
def frameWords (s : State) : List Word := savedRegs.map s.reg ++ [s.fsize + 20]

/-- PushState pushes the frame words, then puts `fp` on them and empties the frame (R202). -/
theorem pushState_eq (s : State) :
    pushState s = match pushWords (frameWords s) s with
      | .error e => .error e
      | .ok t => .ok ((t.setReg .fp (t.reg .sp)).setFsize 0) := by
  have hr := pushRegs_eq (rs := savedRegs) (by decide) s
  simp only [pushState, frameWords, pushWords_append, ← hr]
  cases h : pushRegs savedRegs s with
  | error e => rfl
  | ok t =>
    have hf : t.fsize + 2 = s.fsize + 20 := by
      rw [(pushRegs_frame h).2.2.1]
      simp only [savedRegs, List.length_cons, List.length_nil]
      grind
    simp only [hf, pushWords]
    cases push (s.fsize + 20) t <;> rfl

/-! ## Pushing a list of words -/

theorem pushWords_keeps {vs : List Word} {s t : State} (h : pushWords vs s = .ok t) : Keeps s t := by
  induction vs generalizing s with
  | nil => cases h; exact .refl _
  | cons v vs ih =>
    unfold pushWords at h
    split at h
    · cases h
    · rename_i u hu; exact (push_keeps hu).trans (ih h)

/-- Everything pushing a list of words leaves of the registers and of the hidden state. -/
theorem pushWords_frame {vs : List Word} {s t : State} (h : pushWords vs s = .ok t) :
    (∀ r, r ≠ .sp → t.reg r = s.reg r) ∧ t.reg .sp = s.reg .sp - BitVec.ofNat 16 (2 * vs.length) ∧
      t.fsize = s.fsize + BitVec.ofNat 16 (2 * vs.length) ∧ t.inHandler = s.inHandler ∧ t.status = s.status := by
  induction vs generalizing s with
  | nil => cases h; exact ⟨fun _ _ => rfl, by simp, by simp, rfl, rfl⟩
  | cons v vs ih =>
    unfold pushWords at h
    split at h
    · cases h
    · rename_i u hu
      obtain ⟨hr, hf, hi, hs⟩ := push_frame hu
      obtain ⟨kr, ks, kf, ki, kt⟩ := ih h
      refine ⟨fun q hq => by rw [kr q hq, hr q, if_neg hq], ?_, ?_, ki.trans hi, kt.trans hs⟩
      · rw [ks, hr .sp, if_pos rfl, List.length_cons, Nat.mul_add, BitVec.ofNat_add]
        generalize BitVec.ofNat 16 (2 * vs.length) = x
        grind
      · rw [kf, hf, List.length_cons, Nat.mul_add, BitVec.ofNat_add]
        generalize BitVec.ofNat 16 (2 * vs.length) = x
        grind

/-- A place outside a store in one state is outside it in a state with the same parameters, `mb` and device shapes. -/
theorem location_shapes {s t : State} (hp : t.params = s.params)
    (hs : t.devices.map deviceShape = s.devices.map deviceShape) (hm : t.reg .mb = s.reg .mb) (A : Word) :
    location t A = location s A := by
  unfold location route
  rw [hp]
  cases findRegion s.params.regions A with
  | none => rfl
  | some r =>
    have hd : (t.devices.map deviceShape)[r.device]? = (s.devices.map deviceShape)[r.device]? := by rw [hs]
    rw [List.getElem?_map, List.getElem?_map] at hd
    simp only []
    cases h1 : s.devices[r.device]? with
    | none => rw [h1] at hd; cases h2 : t.devices[r.device]? with
      | none => rfl
      | some d => rw [h2] at hd; cases hd
    | some d =>
      rw [h1] at hd
      cases h2 : t.devices[r.device]? with
      | none => rw [h2] at hd; cases hd
      | some e =>
        rw [h2, Option.map_some, Option.map_some, Option.some.injEq] at hd
        cases d <;> cases e <;> simp only [deviceShape, reduceCtorEq] at hd <;> try rfl
        simp only [Device.banked.injEq] at hd
        have hl := congrArg List.length hd.2
        simp only [List.length_map] at hl
        simp only [bankIndex, hl, hm]

/-- Everything a push into a served slot does. -/
theorem push_stored {s : State} (v : Word) (hwf : stateWf s = true) (h : wordServed s (s.reg .sp) = true) :
    ∃ ds, push v s = .ok (((s.setDevices ds).setReg .sp (s.reg .sp - 2)).setFsize (s.fsize + 2)) ∧
      MemStored s (s.setDevices ds) (s.reg .sp) v := by
  obtain ⟨ds, hw, hm⟩ := memWrite_stored v hwf h
  exact ⟨ds, by simp only [push, hw], hm⟩

/-- Pushing a list of words completes where its slots are served, touches no peripheral, and changes no byte outside the
slots. -/
theorem pushWords_of_served {vs : List Word} {s : State} (hwf : stateWf s = true)
    (h : slotsServed s (s.reg .sp) vs.length) :
    ∃ t, pushWords vs s = .ok t ∧ t.draws = s.draws ∧ (∀ d, peripheralEvents t d = peripheralEvents s d) ∧
      ∀ d k L, OutsideSlots s (s.reg .sp) vs.length d k L → deviceByte t d k L = deviceByte s d k L := by
  induction vs generalizing s with
  | nil => exact ⟨s, rfl, rfl, fun _ => rfl, fun _ _ _ _ => rfl⟩
  | cons v vs ih =>
    have h0 := h 0 (by simp)
    simp only [Nat.mul_zero, BitVec.sub_zero] at h0
    obtain ⟨ds, hp, hm⟩ := push_stored v hwf h0
    have hk := push_keeps hp
    have hmb := (push_frame hp).1 .mb
    have hsp := (push_frame hp).1 .sp
    rw [if_neg (by decide)] at hmb
    rw [if_pos rfl] at hsp
    generalize hu : ((s.setDevices ds).setReg .sp (s.reg .sp - 2)).setFsize (s.fsize + 2) = u at hp hk hmb hsp
    have hb : ∀ d k L, deviceByte u d k L = deviceByte (s.setDevices ds) d k L := fun d k L => by rw [← hu]; rfl
    have slot : ∀ j, u.reg .sp - BitVec.ofNat 16 (2 * j) = s.reg .sp - BitVec.ofNat 16 (2 * (j + 1)) := by
      intro j
      rw [hsp, Nat.mul_add, BitVec.ofNat_add]
      generalize BitVec.ofNat 16 (2 * j) = x
      grind
    have hev : ∀ d, peripheralEvents u d = peripheralEvents s d := fun d => by rw [← hm.2.2 d, ← hu]; rfl
    obtain ⟨t, ht, hd, he, ho⟩ := ih (hk.wf hwf) (s := u) fun j hj => by
      rw [slot]
      exact wordServed_of_shapes hk.params hk.shapes hmb (h (j + 1) (by simpa using hj))
    refine ⟨t, by simp only [pushWords, hp, ht], hd.trans (by rw [← hu]; rfl),
      fun d => (he d).trans (hev d), fun d k L hout => ?_⟩
    rw [ho d k L fun j hj => ?_, hb]
    · have := hout 0 (by simp)
      simp only [Nat.mul_zero, BitVec.sub_zero] at this
      exact hm.2.1 d k L this
    · rw [slot]
      have := hout (j + 1) (by simpa using hj)
      intro d' k' L' hl
      exact this d' k' L' (by rwa [location_shapes hk.params hk.shapes hmb] at hl)

/-- On the default platform: what the pushed slots hold, and every other byte as it was. -/
theorem flat_pushWords {vs : List Word} {s t : State} (hf : Flat s) (hwf : stateWf s = true)
    (hlen : vs.length ≤ 32767) (h : pushWords vs s = .ok t) :
    Flat t ∧ (∀ k (hk : k < vs.length), peekWord t (s.reg .sp - BitVec.ofNat 16 (2 * k)) = some vs[k]) ∧
      ∀ B : Word, (s.reg .sp + 1 - B).toNat ≥ 2 * vs.length → peek t B = peek s B := by
  induction vs generalizing s with
  | nil => cases h; exact ⟨hf, fun k hk => absurd hk (by simp), fun _ _ => rfl⟩
  | cons v vs ih =>
    unfold pushWords at h
    split at h
    · cases h
    · rename_i u hu
      obtain ⟨w, hw, rfl⟩ := push_ok hu
      have hfw := flat_memWrite hf hw
      have hfu : Flat ((w.setReg .sp (s.reg .sp - 2)).setFsize (s.fsize + 2)) := hfw
      have hst := fun B => flat_store hf hwf hw B
      have hne := (hst 0).1
      have hpu : ∀ B, peek ((w.setReg .sp (s.reg .sp - 2)).setFsize (s.fsize + 2)) B = peek w B := fun B => by
        obtain ⟨hp, m, hd⟩ := hfw
        rw [flat_peek hp hd, flat_peek (s := (w.setReg .sp (s.reg .sp - 2)).setFsize (s.fsize + 2)) hp hd]
      obtain ⟨hft, hword, hbyte⟩ := ih hfu ((push_keeps hu).wf hwf) (by simp only [List.length_cons] at hlen; omega) h
      simp only [State.reg_setFsize, State.reg_setReg_same] at hword hbyte
      have hx : ∀ B : Word, (s.reg .sp + 1 - B).toNat ≥ 2 * (vs.length + 1) →
          (s.reg .sp - 2 + 1 - B).toNat ≥ 2 * vs.length := by
        intro B hB
        have e : s.reg .sp - 2 + 1 - B = (s.reg .sp + 1 - B) - 2 := by grind
        have e2 : (2 : Word).toNat = 2 := rfl
        rw [e, BitVec.toNat_sub, e2]
        have := (s.reg .sp + 1 - B).isLt
        omega
      have hlast : ∀ B : Word, B = s.reg .sp ∨ B = s.reg .sp + 1 →
          (s.reg .sp - 2 + 1 - B).toNat ≥ 2 * vs.length := by
        intro B hB
        simp only [List.length_cons] at hlen
        have e : (s.reg .sp - 2 + 1 - s.reg .sp).toNat = 65535 := by
          have : s.reg .sp - 2 + 1 - s.reg .sp = 0xFFFF := by grind
          rw [this]; rfl
        have e' : (s.reg .sp - 2 + 1 - (s.reg .sp + 1)).toNat = 65534 := by
          have : s.reg .sp - 2 + 1 - (s.reg .sp + 1) = 0xFFFE := by grind
          rw [this]; rfl
        rcases hB with rfl | rfl
        · omega
        · omega
      refine ⟨hft, fun k hk => ?_, fun B hB => ?_⟩
      · cases k with
        | zero =>
          simp only [Nat.mul_zero, BitVec.sub_zero, List.getElem_cons_zero]
          have h1 : peek t (s.reg .sp) = some (hiByte v) := by
            rw [hbyte _ (hlast _ (.inl rfl)), hpu, (hst _).2, if_pos rfl]
          have h2 : peek t (s.reg .sp + 1) = some (loByte v) := by
            rw [hbyte _ (hlast _ (.inr rfl)), hpu, (hst _).2, if_neg (by grind), if_pos rfl]
          rw [flat_peekWord_bytes hft hne h1 h2, bigEndian_bytes]
        | succ k =>
          have := hword k (by simpa using hk)
          rw [List.getElem_cons_succ, ← this, Nat.mul_add, BitVec.ofNat_add]
          congr 1
          generalize BitVec.ofNat 16 (2 * k) = x
          grind
      · simp only [List.length_cons] at hB
        rw [hbyte B (hx B hB), hpu, (hst B).2]
        have h1 : B ≠ s.reg .sp := by
          rintro rfl
          have : (s.reg .sp + 1 - s.reg .sp) = 1 := by grind
          rw [this] at hB
          have e : (1 : Word).toNat = 1 := rfl
          omega
        have h2 : B ≠ s.reg .sp + 1 := by
          rintro rfl
          rw [BitVec.sub_self] at hB
          have e : (0#16).toNat = 0 := rfl
          omega
        rw [if_neg h1, if_neg h2]

/-! ## Popping known words -/

/-- Where a run of words above `sp` is served, popping into a list of registers without `sp` and `mb` gives the words. -/
theorem popRegs_of_words {rs : List Reg} (hsp : Reg.sp ∉ rs) (hmb : Reg.mb ∉ rs) (hnd : rs.Nodup) {s : State}
    {w : Nat → Word} (h : ∀ k < rs.length, peekWord s (s.reg .sp + 2 + BitVec.ofNat 16 (2 * k)) = some (w k)) :
    ∃ t, popRegs rs s = .ok t ∧ (∀ q, q ≠ .sp → q ∉ rs → t.reg q = s.reg q) ∧
      (∀ k (hk : k < rs.length), t.reg rs[k] = w k) ∧ t.draws = s.draws ∧ t.params = s.params := by
  induction rs generalizing s w with
  | nil => exact ⟨s, rfl, fun _ _ _ => rfl, fun k hk => absurd hk (by simp), rfl, rfl⟩
  | cons r rs ih =>
    have h0 := h 0 (by simp)
    simp only [Nat.mul_zero, BitVec.ofNat_eq_ofNat, BitVec.add_zero] at h0
    have hpop := pop_of_peekWord h0
    simp only [List.mem_cons, not_or] at hsp hmb
    rw [List.nodup_cons] at hnd
    obtain ⟨t, ht, hq, hk, hd, hp⟩ := ih hsp.2 hmb.2 hnd.2
      (s := ((s.setReg .sp (s.reg .sp + 2)).setFsize (s.fsize - 2)).setReg r (w 0)) (w := fun k => w (k + 1))
      fun k hk => by
        rw [← h (k + 1) (by simpa using hk), State.reg_setReg_ne _ _ hsp.1, State.reg_setFsize,
          State.reg_setReg_same, Nat.mul_add, BitVec.ofNat_add]
        have e : s.reg .sp + 2 + 2 + BitVec.ofNat 16 (2 * k) =
            s.reg .sp + 2 + (BitVec.ofNat 16 (2 * k) + BitVec.ofNat 16 (2 * 1)) := by
          generalize BitVec.ofNat 16 (2 * k) = x
          grind
        rw [e]
        apply peekWord_congr (s := s) <;> try rfl
        rw [State.reg_setReg_ne _ _ hmb.1, State.reg_setFsize, State.reg_setReg_ne _ _ (by decide)]
    refine ⟨t, by simp only [popRegs, popReg, hpop, ht], fun q h1 h2 => ?_, fun k hk' => ?_, hd, hp⟩
    · simp only [List.mem_cons, not_or] at h2
      rw [hq q h1 h2.2, State.reg_setReg_ne _ _ h2.1, State.reg_setFsize, State.reg_setReg_ne _ _ h1]
    · cases k with
      | zero =>
        rw [List.getElem_cons_zero, hq r (fun he => hsp.1 he.symm) hnd.1, State.reg_setReg_same]
      | succ k => exact hk k (by simpa using hk')

/-- Where `n` words above `sp` are served, popping `n` words completes. -/
theorem popMany_of_words {n : Nat} {s : State}
    (h : ∀ k < n, wordServed s (s.reg .sp + 2 + BitVec.ofNat 16 (2 * k)) = true) :
    ∃ t, popMany n s = .ok t ∧ t.draws = s.draws ∧ t.params = s.params := by
  induction n generalizing s with
  | zero => exact ⟨s, rfl, rfl, rfl⟩
  | succ n ih =>
    have h0 := h 0 (by omega)
    simp only [Nat.mul_zero, BitVec.ofNat_eq_ofNat, BitVec.add_zero] at h0
    obtain ⟨v, hv⟩ := Option.isSome_iff_exists.mp h0
    have hpop := pop_of_peekWord hv
    obtain ⟨t, ht, hd, hp⟩ := ih (s := (s.setReg .sp (s.reg .sp + 2)).setFsize (s.fsize - 2)) fun k hk => by
      have := h (k + 1) (by omega)
      rw [Nat.mul_add, BitVec.ofNat_add] at this
      have e : s.reg .sp + 2 + 2 + BitVec.ofNat 16 (2 * k) =
          s.reg .sp + 2 + (BitVec.ofNat 16 (2 * k) + BitVec.ofNat 16 (2 * 1)) := by
        generalize BitVec.ofNat 16 (2 * k) = x
        grind
      rw [State.reg_setFsize, State.reg_setReg_same, e, wordServed]
      rw [wordServed] at this
      rw [← this]
      congr 1
    exact ⟨t, by simp only [popMany, hpop, ht], hd, hp⟩

/-- PopState completes where the frame's eleven words and the arguments they count are served, and restores what the
words say (R203). -/
theorem popState_of_words {s : State} {w : Nat → Word}
    (h : ∀ k < 11, peekWord s (s.reg .fp + 2 + BitVec.ofNat 16 (2 * k)) = some (w k))
    (ha : ∀ k < (w 10).toNat, wordServed s (s.reg .fp + 24 + BitVec.ofNat 16 (2 * k)) = true) :
    ∃ t, popState s = .ok t ∧
      t.reg .ip = w 1 ∧ t.reg .r8 = w 2 ∧ t.reg .r7 = w 3 ∧ t.reg .r6 = w 4 ∧ t.reg .r5 = w 5 ∧ t.reg .r4 = w 6 ∧
      t.reg .r3 = w 7 ∧ t.reg .r2 = w 8 ∧ t.reg .r1 = w 9 ∧
      t.reg .sp = s.reg .fp + 22 + BitVec.ofNat 16 (2 * (w 10).toNat) ∧ t.reg .fp = s.reg .fp + w 0 ∧
      t.fsize = w 0 - 22 - BitVec.ofNat 16 (2 * (w 10).toNat) ∧
      t.reg .acc = s.reg .acc ∧ t.reg .mb = s.reg .mb ∧ t.reg .im = s.reg .im ∧ t.inHandler = s.inHandler ∧
      t.status = s.status ∧ t.devices = s.devices ∧ t.draws = s.draws ∧ t.params = s.params := by
  have h0 := h 0 (by omega)
  simp only [Nat.mul_zero, BitVec.ofNat_eq_ofNat, BitVec.add_zero] at h0
  have hpop := pop_of_peekWord (s := s.setReg .sp (s.reg .fp)) (v := w 0) (by
    rw [State.reg_setReg_same, ← h0]; exact peekWord_congr rfl rfl rfl _)
  simp only [State.reg_setReg_same] at hpop
  generalize hu : (((s.setReg .sp (s.reg .fp)).setReg .sp (s.reg .fp + 2)).setFsize
    ((s.setReg .sp (s.reg .fp)).fsize - 2)) = u at hpop
  have hup : u.params = s.params := by rw [← hu]; rfl
  have hud : u.devices = s.devices := by rw [← hu]; rfl
  have hudr : u.draws = s.draws := by rw [← hu]; rfl
  have hui : u.inHandler = s.inHandler := by rw [← hu]; rfl
  have hus : u.status = s.status := by rw [← hu]; rfl
  have hur : ∀ q, q ≠ .sp → u.reg q = s.reg q := fun q hq => by
    rw [← hu, State.reg_setFsize, State.reg_setReg_ne _ _ hq, State.reg_setReg_ne _ _ hq]
  have husp : u.reg .sp = s.reg .fp + 2 := by rw [← hu, State.reg_setFsize, State.reg_setReg_same]
  obtain ⟨v, hv, hvr, hvk, hvd, hvp⟩ := popRegs_of_words (rs := savedRegs.reverse) (by decide) (by decide) (by decide)
    (s := u.setFsize (w 0 - 2)) (w := fun k => w (k + 1)) fun k hk => by
      rw [← h (k + 1) (by simp [savedRegs] at hk; omega), State.reg_setFsize, husp]
      have e : s.reg .fp + 2 + 2 + BitVec.ofNat 16 (2 * k) = s.reg .fp + 2 + BitVec.ofNat 16 (2 * (k + 1)) := by
        rw [Nat.mul_add, BitVec.ofNat_add]
        generalize BitVec.ofNat 16 (2 * k) = x
        grind
      rw [e]
      exact peekWord_congr hup hud (hur .mb (by decide)) _
  obtain ⟨-, bsp, bf, bi, bs, bd⟩ := popRegs_frame (by decide) hv
  have hvsp : v.reg .sp = s.reg .fp + 20 := by
    rw [bsp, State.reg_setFsize, husp]
    simp only [savedRegs, List.length_reverse, List.length_cons, List.length_nil]
    grind
  have hvmb : v.reg .mb = s.reg .mb := by
    rw [hvr .mb (by decide) (by decide), State.reg_setFsize, hur .mb (by decide)]
  have h10 := h 10 (by omega)
  have hpop2 := pop_of_peekWord (s := v) (v := w 10) (by
    rw [hvsp, ← h10]
    have e : s.reg .fp + 20 + 2 = s.reg .fp + 2 + BitVec.ofNat 16 (2 * 10) := by grind
    rw [e]
    exact peekWord_congr (hvp.trans hup) (bd.trans hud) hvmb _)
  generalize hx : (v.setReg .sp (v.reg .sp + 2)).setFsize (v.fsize - 2) = x at hpop2
  obtain ⟨cr, cf, ci, cs, cd⟩ := pop_frame hpop2
  have hxsp : x.reg .sp = s.reg .fp + 22 := by rw [cr .sp, if_pos rfl, hvsp]; grind
  have hxp : x.params = s.params := by rw [← hx]; exact hvp.trans hup
  have hxd : x.draws = s.draws := by rw [← hx]; exact hvd.trans hudr
  obtain ⟨y, hy, hyd, hyp⟩ := popMany_of_words (n := (w 10).toNat) (s := x) fun k hk => by
    have := ha k hk
    rw [hxsp]
    have e : s.reg .fp + 22 + 2 + BitVec.ofNat 16 (2 * k) = s.reg .fp + 24 + BitVec.ofNat 16 (2 * k) := by
      generalize BitVec.ofNat 16 (2 * k) = z
      grind
    rw [e]
    rw [wordServed] at this ⊢
    rw [peekWord_congr hxp (cd.trans (bd.trans hud)) (by rw [cr .mb, if_neg (by decide), hvmb])]
    exact this
  obtain ⟨dr, dsp, df, di, dss, dd⟩ := popMany_frame hy
  have saved : ∀ k (hk : k < savedRegs.reverse.length), (y.setReg .fp (s.reg .fp + w 0)).reg savedRegs.reverse[k] =
      w (k + 1) := by
    intro k hk
    have hm : savedRegs.reverse[k] ∈ savedRegs.reverse := List.getElem_mem hk
    have h1 : savedRegs.reverse[k] ≠ .sp := fun he => absurd (he ▸ hm) (by decide)
    have h2 : savedRegs.reverse[k] ≠ .fp := fun he => absurd (he ▸ hm) (by decide)
    rw [State.reg_setReg_ne _ _ h2, dr _ h1, cr, if_neg h1, hvk k hk]
  have other : ∀ q, q ≠ .sp → q ≠ .fp → q ∉ savedRegs.reverse →
      (y.setReg .fp (s.reg .fp + w 0)).reg q = s.reg q := by
    intro q h1 h2 h3
    rw [State.reg_setReg_ne _ _ h2, dr _ h1, cr, if_neg h1, hvr q h1 h3, State.reg_setFsize, hur q h1]
  refine ⟨y.setReg .fp (s.reg .fp + w 0), by simp only [popState, hpop, popFrame, hv, hpop2, hy], saved 0 (by decide),
    saved 1 (by decide), saved 2 (by decide), saved 3 (by decide), saved 4 (by decide), saved 5 (by decide),
    saved 6 (by decide), saved 7 (by decide), saved 8 (by decide), ?_, State.reg_setReg_same _ _ _, ?_,
    other .acc (by decide) (by decide) (by decide), other .mb (by decide) (by decide) (by decide),
    other .im (by decide) (by decide) (by decide), ?_, ?_, ?_, hyd.trans hxd, hyp.trans hxp⟩
  · rw [State.reg_setReg_ne _ _ (by decide), dsp, hxsp]
  · rw [State.fsize_setReg, df, cf, bf, State.fsize_setFsize]
    simp only [savedRegs, List.length_reverse, List.length_cons, List.length_nil]
    generalize BitVec.ofNat 16 (2 * (w 10).toNat) = z
    grind
  · rw [State.inHandler_setReg, di, ci, bi, State.inHandler_setFsize, hui]
  · rw [State.status_setReg, dss, cs, bs, State.status_setFsize, hus]
  · rw [State.devices_setReg, dd, cd, bd, State.devices_setFsize, hud]

end Sys2Proof.Machine
end

