-- ==== Sys2Proof/Laws/Exec.lean ====
section
/-! SUPPORT. Everything an instruction that completes can do, said once: eleven kinds of effect, and a proof that every
completed instruction has the effect of its kind. What instructions leave unchanged is read off it. -/

namespace Sys2Proof.Machine

/-- The kinds of effect of a completed instruction, from `s` to `t`. -/
inductive Effect (s t : State) : Instr → Prop where
  /-- Writes its destination register; a load may draw from a peripheral. -/
  | register (i : Instr) (R : Reg) (v : Word) (n : Nat) (hd : destReg i = some R) (hu : usesStack i = false)
      (hi : ∀ L, i ≠ .intLit L) (hr : i ≠ .rti) (hh : i ≠ .hlt) (ht : t = (s.setDraws n).setReg R v) : Effect s t i
  /-- A jump writes `ip`. -/
  | jump (i : Instr) (v : Word) (hip : implicitRegs i = [.ip]) (hd : destReg i = none) (hu : usesStack i = false)
      (ht : t = s.setReg .ip v) : Effect s t i
  /-- A store writes one word of memory. -/
  | store (i : Instr) (A v : Word) (hc : canStore i = true) (hd : destReg i = none) (hu : usesStack i = false)
      (ht : memWrite .word A v s = .ok t) : Effect s t i
  | push (i : Instr) (v : Word) (hi : (∃ L, i = .pshLit L) ∨ ∃ R, i = .pshReg R) (ht : push v s = .ok t) : Effect s t i
  | pop (R : Reg) (ht : popReg R s = .ok t) : Effect s t (.popReg R)
  | call (i : Instr) (A : Word) (hi : (∃ L, i = .calLit L) ∨ ∃ R, i = .calReg R) (ht : callTo A s = .ok t) : Effect s t i
  | ret (ht : popState s = .ok t) : Effect s t .ret
  | rti (ht : returnFromInterrupt s = .ok t) : Effect s t .rti
  | halt (ht : t = s.setStatus .halted) : Effect s t .hlt
  | masked (L : Word) (hm : interruptEnabled (interruptNumber L) s = false) (ht : t = s) : Effect s t (.intLit L)
  | interrupt (L : Word) (hm : interruptEnabled (interruptNumber L) s = true)
      (ht : takeInterrupt (interruptNumber L) s = .ok t) : Effect s t (.intLit L)

/-- A jump is a write of `ip`, which a jump not taken leaves as it was. -/
theorem jumpIf_eq (c : Bool) (A : Word) (s : State) : jumpIf c A s = s.setReg .ip (if c then A else s.reg .ip) := by
  cases c <;> rfl

/-- Everything a completed instruction can do. -/
theorem exec_next {i : Instr} {s t : State} (h : exec i s = .next t) : Effect s t i := by
  have reg : ∀ {i : Instr} {R : Reg} {v : Word}, destReg i = some R → usesStack i = false → (∀ L, i ≠ .intLit L) →
      i ≠ .rti → i ≠ .hlt → (.next (s.setReg R v) : Host.Outcome State Fault Refusal) = .next t → Effect s t i :=
    fun hd hu hi hr hh ht => .register _ _ _ s.draws hd hu hi hr hh (Host.Outcome.next.inj ht).symm
  have load : ∀ {i : Instr} {R : Reg} {A : Word} {o : Op}, destReg i = some R → usesStack i = false →
      (∀ L, i ≠ .intLit L) → i ≠ .rti → i ≠ .hlt → conclude o s (loadReg A R s) = .next t → Effect s t i := by
    intro i R A o hd hu hi hr hh ht
    obtain ⟨v, n, -, rfl⟩ := loadReg_ok (conclude_next ht)
    exact .register _ R v n hd hu hi hr hh rfl
  have jump : ∀ {i : Instr} {c : Bool} {A : Word}, implicitRegs i = [.ip] → destReg i = none → usesStack i = false →
      (.next (jumpIf c A s) : Host.Outcome State Fault Refusal) = .next t → Effect s t i :=
    fun hip hd hu ht => .jump _ _ hip hd hu ((Host.Outcome.next.inj ht).symm.trans (jumpIf_eq _ _ s))
  cases i with
  | movLitReg L R => exact reg rfl rfl nofun nofun nofun h
  | movRegReg Ra Rb => exact reg rfl rfl nofun nofun nofun h
  | movRegMem R A => exact .store _ A _ rfl rfl rfl (conclude_next h)
  | movMemReg A R => exact load rfl rfl nofun nofun nofun h
  | movLitMem L A => exact .store _ A L rfl rfl rfl (conclude_next h)
  | movRegPtrReg Ra Rb => exact load rfl rfl nofun nofun nofun h
  | movLitOffReg L Ra Rb => exact load rfl rfl nofun nofun nofun h
  | addRegReg Ra Rb => exact reg rfl rfl nofun nofun nofun h
  | addLitReg L R => exact reg rfl rfl nofun nofun nofun h
  | subRegReg Ra Rb => exact reg rfl rfl nofun nofun nofun h
  | subLitReg L R => exact reg rfl rfl nofun nofun nofun h
  | mulRegReg Ra Rb => exact reg rfl rfl nofun nofun nofun h
  | mulLitReg L R => exact reg rfl rfl nofun nofun nofun h
  | incReg R => exact reg rfl rfl nofun nofun nofun h
  | decReg R => exact reg rfl rfl nofun nofun nofun h
  | lsfRegReg Ra Rb => exact reg rfl rfl nofun nofun nofun h
  | lsfLitReg L R => exact reg rfl rfl nofun nofun nofun h
  | rsfRegReg Ra Rb => exact reg rfl rfl nofun nofun nofun h
  | rsfLitReg L R => exact reg rfl rfl nofun nofun nofun h
  | andRegReg Ra Rb => exact reg rfl rfl nofun nofun nofun h
  | andLitReg L R => exact reg rfl rfl nofun nofun nofun h
  | orRegReg Ra Rb => exact reg rfl rfl nofun nofun nofun h
  | orLitReg L R => exact reg rfl rfl nofun nofun nofun h
  | xorRegReg Ra Rb => exact reg rfl rfl nofun nofun nofun h
  | xorLitReg L R => exact reg rfl rfl nofun nofun nofun h
  | notReg R => exact reg rfl rfl nofun nofun nofun h
  | jeqReg R A => exact jump rfl rfl rfl h
  | jeqLit L A => exact jump rfl rfl rfl h
  | jneReg R A => exact jump rfl rfl rfl h
  | jneLit L A => exact jump rfl rfl rfl h
  | jltReg R A => exact jump rfl rfl rfl h
  | jltLit L A => exact jump rfl rfl rfl h
  | jgtReg R A => exact jump rfl rfl rfl h
  | jgtLit L A => exact jump rfl rfl rfl h
  | jleReg R A => exact jump rfl rfl rfl h
  | jleLit L A => exact jump rfl rfl rfl h
  | jgeReg R A => exact jump rfl rfl rfl h
  | jgeLit L A => exact jump rfl rfl rfl h
  | pshLit L => exact .push _ L (.inl ⟨L, rfl⟩) (conclude_next h)
  | pshReg R => exact .push _ _ (.inr ⟨R, rfl⟩) (conclude_next h)
  | popReg R => exact .pop R (conclude_next h)
  | calLit L => exact .call _ L (.inl ⟨L, rfl⟩) (conclude_next h)
  | calReg R => exact .call _ _ (.inr ⟨R, rfl⟩) (conclude_next h)
  | ret => exact .ret (conclude_next h)
  | hlt => exact .halt (Host.Outcome.next.inj h).symm
  | intLit L =>
    simp only [exec, execIntLit] at h
    split at h
    · rename_i hm; exact .masked L hm (Host.Outcome.next.inj h).symm
    · rename_i hm; exact .interrupt L hm (conclude_next h)
  | rti => exact .rti (conclude_next h)

/-- Every completed instruction keeps the parameters, the device shapes and the canonical form. -/
theorem exec_keeps {i : Instr} {s t : State} (h : exec i s = .next t) : Keeps s t := by
  cases exec_next h with
  | register _ R v n _ _ _ _ _ ht => subst ht; exact .of_same rfl rfl
  | jump _ v _ _ _ ht => subst ht; exact .of_same rfl rfl
  | store _ A v _ _ _ ht => exact memWrite_keeps ht
  | push _ v _ ht => exact push_keeps ht
  | pop R ht => exact popReg_keeps ht
  | call _ A _ ht => exact callTo_keeps ht
  | ret ht => exact popState_keeps ht
  | rti ht => exact returnFromInterrupt_keeps ht
  | halt ht => subst ht; exact .of_same rfl rfl
  | masked L _ ht => subst ht; exact .refl _
  | interrupt L _ ht => exact takeInterrupt_keeps ht

/-- What interrupt entry leaves of the registers and of the hidden state: either a fresh frame, or, inside a handler, the
old one. -/
theorem takeInterrupt_frame {n : Nat} {s t : State} (h : takeInterrupt n s = .ok t) :
    (∀ r, r ≠ .ip → r ≠ .sp → r ≠ .fp → t.reg r = s.reg r) ∧ t.inHandler = true ∧ t.status = s.status ∧
      ((s.inHandler = false ∧ t.fsize = 0 ∧ t.reg .sp = s.reg .sp - 22 ∧ t.reg .fp = s.reg .sp - 22) ∨
        (s.inHandler = true ∧ t.fsize = s.fsize ∧ t.reg .sp = s.reg .sp ∧ t.reg .fp = s.reg .fp)) := by
  unfold takeInterrupt at h
  split at h
  · cases h
  · rename_i v s₁ hv
    obtain ⟨m, rfl⟩ := memRead_ok hv
    split at h
    · cases h
    · rename_i u hu
      cases h
      rcases saveForInterrupt_ok hu with ⟨hi, rfl⟩ | ⟨hi, p, hp, hs⟩
      · exact ⟨fun r a _ _ => State.reg_setReg_ne _ _ a, rfl, rfl, .inr ⟨hi, rfl, rfl, rfl⟩⟩
      · obtain ⟨pr, pf, pi, ps⟩ := push_frame hp
        obtain ⟨fr, fsp, ffp, ff, fi, fs⟩ := pushState_frame hs
        rw [pr, if_pos rfl] at fsp ffp
        refine ⟨fun r a b c => (State.reg_setReg_ne _ _ a).trans ((fr r b c).trans ?_), rfl, fs.trans ps,
          .inl ⟨hi, ff, fsp.trans ?_, ffp.trans ?_⟩⟩
        · rw [pr, if_neg b]; rfl
        · rw [State.reg_setDraws]; grind
        · rw [State.reg_setDraws]; grind

end Sys2Proof.Machine
end

