-- ==== Sys2Proof/Laws/PerInstr.lean ====
section
/-! SUPPORT. Statements about every instruction as syntax, one lemma per constructor. Family EncodedSize: whatever opcode
map lists an instruction, its encoding is as long as its descriptor says, 1 to 5 bytes (spec/30_encoding.md R90, R98). -/

namespace Sys2Proof.Laws.EncodedSize

/-- The encoding of the instruction has the size its descriptor gives, from 1 to 5. -/
def Statement (i : Instr) : Prop :=
  ∀ t bs, encode t i = some bs → bs.length = i.op.size ∧ 1 ≤ i.op.size ∧ i.op.size ≤ 5

/-- The field bytes of a format are as many as its layout says. -/
theorem length_fieldBytes (f : Fields) (ks : List FieldKind) :
    (ks.map (fieldBytes f)).flatten.length = (ks.map FieldKind.width).sum := by
  induction ks with
  | nil => rfl
  | cons k ks ih => cases k <;> simp [fieldBytes, FieldKind.width, ih] <;> omega

/-- The size of every descriptor is 1 to 5. -/
theorem size_range (o : Op) : 1 ≤ o.size ∧ o.size ≤ 5 := by cases o <;> decide

/-- The general fact the lemmas below instantiate. -/
theorem of_encode (i : Instr) : Statement i := by
  intro t bs h
  unfold encode at h
  split at h
  · cases h
  · cases h
    refine ⟨?_, size_range i.op⟩
    rw [List.length_cons, length_fieldBytes, Op.size, Format.size, Nat.add_comm]

theorem movLitReg (L : Word) (R : Reg) : Statement (.movLitReg L R) := of_encode _
theorem movRegReg (Ra Rb : Reg) : Statement (.movRegReg Ra Rb) := of_encode _
theorem movRegMem (R : Reg) (A : Word) : Statement (.movRegMem R A) := of_encode _
theorem movMemReg (A : Word) (R : Reg) : Statement (.movMemReg A R) := of_encode _
theorem movLitMem (L A : Word) : Statement (.movLitMem L A) := of_encode _
theorem movRegPtrReg (Ra Rb : Reg) : Statement (.movRegPtrReg Ra Rb) := of_encode _
theorem movLitOffReg (L : Word) (Ra Rb : Reg) : Statement (.movLitOffReg L Ra Rb) := of_encode _
theorem addRegReg (Ra Rb : Reg) : Statement (.addRegReg Ra Rb) := of_encode _
theorem addLitReg (L : Word) (R : Reg) : Statement (.addLitReg L R) := of_encode _
theorem subRegReg (Ra Rb : Reg) : Statement (.subRegReg Ra Rb) := of_encode _
theorem subLitReg (L : Word) (R : Reg) : Statement (.subLitReg L R) := of_encode _
theorem mulRegReg (Ra Rb : Reg) : Statement (.mulRegReg Ra Rb) := of_encode _
theorem mulLitReg (L : Word) (R : Reg) : Statement (.mulLitReg L R) := of_encode _
theorem incReg (R : Reg) : Statement (.incReg R) := of_encode _
theorem decReg (R : Reg) : Statement (.decReg R) := of_encode _
theorem lsfRegReg (Ra Rb : Reg) : Statement (.lsfRegReg Ra Rb) := of_encode _
theorem lsfLitReg (L : Word) (R : Reg) : Statement (.lsfLitReg L R) := of_encode _
theorem rsfRegReg (Ra Rb : Reg) : Statement (.rsfRegReg Ra Rb) := of_encode _
theorem rsfLitReg (L : Word) (R : Reg) : Statement (.rsfLitReg L R) := of_encode _
theorem andRegReg (Ra Rb : Reg) : Statement (.andRegReg Ra Rb) := of_encode _
theorem andLitReg (L : Word) (R : Reg) : Statement (.andLitReg L R) := of_encode _
theorem orRegReg (Ra Rb : Reg) : Statement (.orRegReg Ra Rb) := of_encode _
theorem orLitReg (L : Word) (R : Reg) : Statement (.orLitReg L R) := of_encode _
theorem xorRegReg (Ra Rb : Reg) : Statement (.xorRegReg Ra Rb) := of_encode _
theorem xorLitReg (L : Word) (R : Reg) : Statement (.xorLitReg L R) := of_encode _
theorem notReg (R : Reg) : Statement (.notReg R) := of_encode _
theorem jeqReg (R : Reg) (A : Word) : Statement (.jeqReg R A) := of_encode _
theorem jeqLit (L A : Word) : Statement (.jeqLit L A) := of_encode _
theorem jneReg (R : Reg) (A : Word) : Statement (.jneReg R A) := of_encode _
theorem jneLit (L A : Word) : Statement (.jneLit L A) := of_encode _
theorem jltReg (R : Reg) (A : Word) : Statement (.jltReg R A) := of_encode _
theorem jltLit (L A : Word) : Statement (.jltLit L A) := of_encode _
theorem jgtReg (R : Reg) (A : Word) : Statement (.jgtReg R A) := of_encode _
theorem jgtLit (L A : Word) : Statement (.jgtLit L A) := of_encode _
theorem jleReg (R : Reg) (A : Word) : Statement (.jleReg R A) := of_encode _
theorem jleLit (L A : Word) : Statement (.jleLit L A) := of_encode _
theorem jgeReg (R : Reg) (A : Word) : Statement (.jgeReg R A) := of_encode _
theorem jgeLit (L A : Word) : Statement (.jgeLit L A) := of_encode _
theorem pshLit (L : Word) : Statement (.pshLit L) := of_encode _
theorem pshReg (R : Reg) : Statement (.pshReg R) := of_encode _
theorem popReg (R : Reg) : Statement (.popReg R) := of_encode _
theorem calLit (L : Word) : Statement (.calLit L) := of_encode _
theorem calReg (R : Reg) : Statement (.calReg R) := of_encode _
theorem ret : Statement (.ret) := of_encode _
theorem hlt : Statement (.hlt) := of_encode _
theorem intLit (L : Word) : Statement (.intLit L) := of_encode _
theorem rti : Statement (.rti) := of_encode _

end Sys2Proof.Laws.EncodedSize
end

