-- ==== Sys2Proof/Tests/Slice0.lean ====
section
/-! SUPPORT. Tests of the model. Every expected result comes from the spec: its examples (rules R130 to R232), its vectors
and programs (spec/95_test_vectors.md, cited by number) or its opcode table. -/

namespace Sys2Proof.Tests

open Sys2Proof.Machine

/-! ## Ill-formed terms are refused (WellFormed) -/

theorem test_default_params_wf : paramsWf defaultParams = true := by decide
theorem test_register_byte_range : regByteWf 0x0D = true ∧ regByteWf 0x0E = false := by decide
theorem test_opcode_byte_twice : opcodeBytesDistinct [(0x10, .hlt), (0x10, .ret)] = false := by decide
theorem test_descriptor_twice : opcodeOpsDistinct [(0x10, .hlt), (0x11, .hlt)] = false := by decide
theorem test_instr_not_listed : instrWf [(0x10, .hlt)] .hlt = true ∧ instrWf [(0x10, .hlt)] .ret = false := by decide
theorem test_memory_unsorted : memSorted [(2, 1), (1, 1)] = false ∧ memSorted [(1, 1), (1, 2)] = false := by decide
theorem test_memory_lists_default : memNoDefault [(1, 0)] = false := by decide
theorem test_memory_outside : memInside 4 [(4, 1)] = false := by decide
theorem test_memory_wf : memWf 4 [(1, 5), (3, 7)] = true ∧ memWf 4 [(3, 7), (1, 5)] = false := by decide
theorem test_banked_without_banks : deviceWf (.banked 4 []) = false := by decide
theorem test_banked_bad_bank : deviceWf (.banked 4 [[], [(1, 0)]]) = false := by decide
theorem test_region_without_device : regionsWf [⟨1, 0x0000, 0x00FF, false⟩] 1 = false := by decide
theorem test_peripheral_not_fresh : deviceFresh (.peripheral [⟨.word, 0, 0⟩]) = false := by decide

/-! ## Decoding: one word per constructor, written out from its rule's encoding (R91, R100) -/

/-- What the decoder reads under the default opcode map, if it reads anything. -/
def reads (bs : List Byte) : Option (Instr × List Byte) :=
  match decode defaultOpcodes bs with
  | .ok p => some p
  | .error _ => none

/-- Why the decoder refuses bytes. -/
def refuses (bs : List Byte) : Option DecodeError :=
  match decode defaultOpcodes bs with
  | .ok _ => none
  | .error e => some e

theorem test_decode_movLitReg : reads [0x10, 0x12, 0x34, 0x02] = some (.movLitReg 0x1234 .r1, []) := by decide
theorem test_decode_movRegReg : reads [0x11, 0x02, 0x03] = some (.movRegReg .r1 .r2, []) := by decide
theorem test_decode_movRegMem : reads [0x12, 0x02, 0x00, 0x50] = some (.movRegMem .r1 0x0050, []) := by decide
theorem test_decode_movMemReg : reads [0x13, 0x00, 0x50, 0x04] = some (.movMemReg 0x0050 .r3, []) := by decide
theorem test_decode_movLitMem : reads [0x1B, 0x00, 0x30, 0x10, 0x00] = some (.movLitMem 0x0030 0x1000, []) := by decide
theorem test_decode_movRegPtrReg : reads [0x1C, 0x02, 0x03] = some (.movRegPtrReg .r1 .r2, []) := by decide
theorem test_decode_movLitOffReg : reads [0x1D, 0x00, 0x18, 0x0B, 0x03] = some (.movLitOffReg 0x0018 .fp .r2, []) := by decide
theorem test_decode_addRegReg : reads [0x14, 0x02, 0x03] = some (.addRegReg .r1 .r2, []) := by decide
theorem test_decode_addLitReg : reads [0x3F, 0x00, 0x01, 0x03] = some (.addLitReg 0x0001 .r2, []) := by decide
theorem test_decode_subRegReg : reads [0x1F, 0x02, 0x03] = some (.subRegReg .r1 .r2, []) := by decide
theorem test_decode_subLitReg : reads [0x16, 0x00, 0x01, 0x02] = some (.subLitReg 0x0001 .r1, []) := by decide
theorem test_decode_mulRegReg : reads [0x21, 0x02, 0x03] = some (.mulRegReg .r1 .r2, []) := by decide
theorem test_decode_mulLitReg : reads [0x20, 0x00, 0x10, 0x02] = some (.mulLitReg 0x0010 .r1, []) := by decide
theorem test_decode_incReg : reads [0x35, 0x01] = some (.incReg .acc, []) := by decide
theorem test_decode_decReg : reads [0x36, 0x09] = some (.decReg .r8, []) := by decide
theorem test_decode_lsfRegReg : reads [0x27, 0x02, 0x03] = some (.lsfRegReg .r1 .r2, []) := by decide
theorem test_decode_lsfLitReg : reads [0x26, 0x00, 0x01, 0x02] = some (.lsfLitReg 0x0001 .r1, []) := by decide
theorem test_decode_rsfRegReg : reads [0x2B, 0x02, 0x03] = some (.rsfRegReg .r1 .r2, []) := by decide
theorem test_decode_rsfLitReg : reads [0x2A, 0x00, 0x08, 0x02] = some (.rsfLitReg 0x0008 .r1, []) := by decide
theorem test_decode_andRegReg : reads [0x2F, 0x02, 0x03] = some (.andRegReg .r1 .r2, []) := by decide
theorem test_decode_andLitReg : reads [0x2E, 0x00, 0xFF, 0x02] = some (.andLitReg 0x00FF .r1, []) := by decide
theorem test_decode_orRegReg : reads [0x31, 0x02, 0x03] = some (.orRegReg .r1 .r2, []) := by decide
theorem test_decode_orLitReg : reads [0x30, 0x00, 0x34, 0x02] = some (.orLitReg 0x0034 .r1, []) := by decide
theorem test_decode_xorRegReg : reads [0x33, 0x02, 0x03] = some (.xorRegReg .r1 .r2, []) := by decide
theorem test_decode_xorLitReg : reads [0x32, 0xFF, 0xFF, 0x02] = some (.xorLitReg 0xFFFF .r1, []) := by decide
theorem test_decode_notReg : reads [0x34, 0x02] = some (.notReg .r1, []) := by decide
theorem test_decode_jeqReg : reads [0x3E, 0x02, 0x00, 0x20] = some (.jeqReg .r1 0x0020, []) := by decide
theorem test_decode_jeqLit : reads [0x41, 0x00, 0x0A, 0x00, 0x20] = some (.jeqLit 0x000A 0x0020, []) := by decide
theorem test_decode_jneReg : reads [0x40, 0x02, 0x00, 0x20] = some (.jneReg .r1 0x0020, []) := by decide
theorem test_decode_jneLit : reads [0x15, 0x00, 0x0A, 0x00, 0x20] = some (.jneLit 0x000A 0x0020, []) := by decide
theorem test_decode_jltReg : reads [0x42, 0x02, 0x00, 0x20] = some (.jltReg .r1 0x0020, []) := by decide
theorem test_decode_jltLit : reads [0x43, 0x00, 0x00, 0x00, 0x20] = some (.jltLit 0x0000 0x0020, []) := by decide
theorem test_decode_jgtReg : reads [0x44, 0x02, 0x00, 0x20] = some (.jgtReg .r1 0x0020, []) := by decide
theorem test_decode_jgtLit : reads [0x45, 0xFF, 0xFF, 0x00, 0x20] = some (.jgtLit 0xFFFF 0x0020, []) := by decide
theorem test_decode_jleReg : reads [0x46, 0x02, 0x00, 0x20] = some (.jleReg .r1 0x0020, []) := by decide
theorem test_decode_jleLit : reads [0x47, 0x00, 0x00, 0x00, 0x20] = some (.jleLit 0x0000 0x0020, []) := by decide
theorem test_decode_jgeReg : reads [0x48, 0x02, 0x00, 0x20] = some (.jgeReg .r1 0x0020, []) := by decide
theorem test_decode_jgeLit : reads [0x49, 0x00, 0x00, 0x00, 0x20] = some (.jgeLit 0x0000 0x0020, []) := by decide
theorem test_decode_pshLit : reads [0x17, 0x51, 0x52] = some (.pshLit 0x5152, []) := by decide
theorem test_decode_pshReg : reads [0x18, 0x02] = some (.pshReg .r1, []) := by decide
theorem test_decode_popReg : reads [0x1A, 0x03] = some (.popReg .r2, []) := by decide
theorem test_decode_calLit : reads [0x5E, 0x00, 0x20] = some (.calLit 0x0020, []) := by decide
theorem test_decode_calReg : reads [0x5F, 0x06] = some (.calReg .r5, []) := by decide
theorem test_decode_ret : reads [0x60] = some (.ret, []) := by decide
theorem test_decode_hlt : reads [0xFF] = some (.hlt, []) := by decide
theorem test_decode_intLit : reads [0xFD, 0x00, 0x13] = some (.intLit 0x0013, []) := by decide
theorem test_decode_rti : reads [0xFC] = some (.rti, []) := by decide
theorem test_decode_leaves_the_rest : reads [0x35, 0x01, 0xAB] = some (.incReg .acc, [0xAB]) := by decide
theorem test_refuse_unknown : refuses [0x19, 0x00] = some (.unknownOpcode 0x19) := by decide
/-- X7: the first bad register byte. -/
theorem test_refuse_register : refuses [0x11, 0xFF, 0x0E] = some (.illegalRegister 0x11 0xFF) := by decide
theorem test_refuse_truncated : refuses [0x10, 0x12] = some .truncated := by decide
theorem test_refuse_other_map : decodeTableWord 8 0xFE = none := by decide
/-- Bit 0 of a table word is the lowest bit of its first byte: `mov $1234, r1` is the bytes 10 12 34 02. -/
theorem test_table_word : decodeTableWord 32 0x02341210 = some (.movLitReg 0x1234 .r1) := by decide
/-- Bits above the row's are zeros: `mov $0000, ip`. -/
theorem test_table_word_short : decodeTableWord 8 0x10 = some (.movLitReg 0x0000 .ip) := by decide

/-! ## One step on a small state

The vectors of spec/95_test_vectors.md: reset, with the opcode at 0x0100 and the listed registers and bytes. -/

/-- Store bytes as the host does; the state as it was where they cannot be stored. -/
def place (A : Word) (bs : List Byte) (s : State) : State :=
  match hostStore A bs s with
  | some t => t
  | none => s

/-- Reset, with registers set, `ip` at 0x0100 and code there. -/
def start (code : List Byte) (regs : List (Reg × Word)) : State :=
  place 0x0100 code (regs.foldl (fun s x => s.setReg x.1 x.2) (State.reset.setReg .ip 0x0100))

/-- What one step's next state shows, if there is one. -/
def shows {α : Type} (f : State → α) (s : State) : Option α :=
  match step s with
  | .next t => some (f t)
  | .fault _ => none
  | .refused _ => none

/-- The fault of one step, if there is one. -/
def faults (s : State) : Option Fault :=
  match step s with
  | .fault f => some f
  | .next _ => none
  | .refused _ => none

/-- Registers of a state, in the order asked for. -/
def regsOf (rs : List Reg) (s : State) : List Word := rs.map s.reg

theorem test_M1 : shows (regsOf [.r1, .ip]) (start [0x10, 0x12, 0x34, 0x02] []) = some [0x1234, 0x0104] := by decide
/-- Writing `ip` wins over the fetch advance. -/
theorem test_M2 :
    shows (regsOf [.ip]) (start [0x10, 0x02, 0x00, 0x00] []) = some [0x0200] := by decide
theorem test_M3 :
    shows (regsOf [.r2, .r1, .ip]) (start [0x11, 0x02, 0x03] [(.r1, 0xABCD)]) = some [0xABCD, 0xABCD, 0x0103] := by decide
/-- `ip` reads as the next instruction's address. -/
theorem test_M4 :
    shows (regsOf [.r1, .ip]) (start [0x11, 0x00, 0x02] []) = some [0x0103, 0x0103] := by decide
/-- M6. -/
theorem test_M6 : shows (fun t => (peek t 0x3000, peek t 0x3001, t.reg .ip)) (start [0x12, 0x02, 0x30, 0x00] [(.r1, 0xBEEF)]) =
    some (some 0xBE, some 0xEF, 0x0104) := by decide
/-- M13. -/
theorem test_M13 : faults (start [0x12, 0x02, 0xFF, 0xFF] [(.r1, 0x0001)]) =
    some (.memoryFault 0x0100 0xFFFF .word .write) := by decide
theorem test_M7 :
    shows (regsOf [.r2, .ip]) (place 0x3000 [0x12, 0x34] (start [0x13, 0x30, 0x00, 0x03] [])) = some [0x1234, 0x0104] := by decide
/-- M14. -/
theorem test_M14 : faults (start [0x13, 0xFF, 0xFF, 0x02] []) = some (.memoryFault 0x0100 0xFFFF .word .read) := by decide
/-- M8. -/
theorem test_M8 : shows (fun t => (peek t 0x3000, peek t 0x3001, t.reg .ip)) (start [0x1B, 0x00, 0xFF, 0x30, 0x00] []) =
    some (some 0x00, some 0xFF, 0x0105) := by decide
/-- M15: the last full word is writable. -/
theorem test_M15 : shows (fun t => (peek t 0xFFFE, peek t 0xFFFF)) (start [0x1B, 0x00, 0x01, 0xFF, 0xFE] []) =
    some (some 0x00, some 0x01) := by decide
theorem test_M9 :
    shows (regsOf [.r2, .r1, .ip]) (place 0x3000 [0xCA, 0xFE] (start [0x1C, 0x02, 0x03] [(.r1, 0x3000)])) = some [0xCAFE, 0x3000, 0x0103] := by decide
/-- The pointer register is also the destination. -/
theorem test_M10 :
    shows (regsOf [.r1]) (place 0x3000 [0xCA, 0xFE] (start [0x1C, 0x02, 0x02] [(.r1, 0x3000)])) = some [0xCAFE] := by decide
/-- The sum wraps. -/
theorem test_M12 :
    shows (regsOf [.r2, .ip]) (place 0x3000 [0x5A, 0xA5] (start [0x1D, 0xFF, 0xFF, 0x02, 0x03] [(.r1, 0x3001)])) = some [0x5AA5, 0x0105] := by decide
/-- M16. -/
theorem test_M16 : faults (start [0x1D, 0x12, 0x34, 0x02, 0x03] [(.r1, 0xEDCB)]) =
    some (.memoryFault 0x0100 0xFFFF .word .read) := by decide
theorem test_A2 :
    shows (regsOf [.acc, .ip]) (start [0x14, 0x02, 0x03] [(.acc, 0x5555), (.r1, 0xFFFF), (.r2, 0x0001)]) = some [0x0000, 0x0103] := by decide
/-- The old value is read. -/
theorem test_A4 :
    shows (regsOf [.acc]) (start [0x14, 0x01, 0x01] [(.acc, 0x0003)]) = some [0x0006] := by decide
theorem test_A5 :
    shows (regsOf [.acc, .r1, .ip]) (start [0x3F, 0x00, 0x10, 0x02] [(.r1, 0x0005)]) = some [0x0015, 0x0005, 0x0104] := by decide
theorem test_A6 :
    shows (regsOf [.acc]) (start [0x1F, 0x02, 0x03] [(.r1, 0x0003), (.r2, 0x0005)]) = some [0xFFFE] := by decide
theorem test_A7 :
    shows (regsOf [.acc]) (start [0x1F, 0x02, 0x02] [(.acc, 0x5555), (.r1, 0x1234)]) = some [0x0000] := by decide
theorem test_A8 :
    shows (regsOf [.acc, .r1]) (start [0x16, 0x00, 0x01, 0x02] [(.r1, 0x0000)]) = some [0xFFFF, 0x0000] := by decide
theorem test_A9 :
    shows (regsOf [.acc]) (start [0x16, 0x00, 0x01, 0x02] [(.r1, 0x0010)]) = some [0x000F] := by decide
theorem test_A10 :
    shows (regsOf [.acc]) (start [0x21, 0x02, 0x03] [(.acc, 0x5555), (.r1, 0x0100), (.r2, 0x0100)]) = some [0x0000] := by decide
theorem test_A11 :
    shows (regsOf [.acc]) (start [0x21, 0x02, 0x03] [(.r1, 0xFFFF), (.r2, 0xFFFF)]) = some [0x0001] := by decide
theorem test_A12 :
    shows (regsOf [.acc, .r1]) (start [0x20, 0x00, 0x03, 0x02] [(.r1, 0x5556)]) = some [0x0002, 0x5556] := by decide
theorem test_A14 :
    shows (regsOf [.r1, .acc, .ip]) (start [0x35, 0x02] [(.r1, 0xFFFF)]) = some [0x0000, 0x0000, 0x0102] := by decide
theorem test_A15 :
    shows (regsOf [.r1]) (start [0x36, 0x02] [(.r1, 0x0000)]) = some [0xFFFF] := by decide
/-- A17: `dec sp` leaves `fsize`. -/
theorem test_A17 : shows (fun t => (t.reg .sp, t.fsize)) (start [0x36, 0x0A] []) = some (0xFFFD, 0x0000) := by decide
theorem test_B1 :
    shows (regsOf [.r1, .acc, .ip]) (start [0x27, 0x02, 0x03] [(.r1, 0x0001), (.r2, 0x000F)]) = some [0x8000, 0x0000, 0x0103] := by decide
/-- The amount is not masked. -/
theorem test_B3 :
    shows (regsOf [.r1]) (start [0x27, 0x02, 0x03] [(.r1, 0x0001), (.r2, 0x0100)]) = some [0x0000] := by decide
theorem test_B5 :
    shows (regsOf [.acc, .r1, .ip]) (start [0x26, 0x00, 0x04, 0x02] [(.r1, 0x1234)]) = some [0x2340, 0x1234, 0x0104] := by decide
/-- Zero fill. -/
theorem test_B7 :
    shows (regsOf [.r1]) (start [0x2B, 0x02, 0x03] [(.r1, 0x8000), (.r2, 0x000F)]) = some [0x0001] := by decide
theorem test_B8 :
    shows (regsOf [.r1]) (start [0x2B, 0x02, 0x03] [(.r1, 0x8000), (.r2, 0x0011)]) = some [0x0000] := by decide
/-- Logical, not arithmetic. -/
theorem test_B9 :
    shows (regsOf [.acc]) (start [0x2A, 0x00, 0x04, 0x02] [(.r1, 0x8001)]) = some [0x0800] := by decide
theorem test_B10 :
    shows (regsOf [.r1, .r2, .acc]) (start [0x2F, 0x02, 0x03] [(.r1, 0xF0F0), (.r2, 0x3C3C)]) = some [0x3030, 0x3C3C, 0x0000] := by decide
theorem test_B11 :
    shows (regsOf [.acc, .r1]) (start [0x2E, 0x00, 0xFF, 0x02] [(.r1, 0x1234)]) = some [0x0034, 0x1234] := by decide
theorem test_B12 :
    shows (regsOf [.r1, .acc]) (start [0x31, 0x02, 0x03] [(.r1, 0xF0F0), (.r2, 0x0F0F)]) = some [0xFFFF, 0x0000] := by decide
theorem test_B13 :
    shows (regsOf [.acc, .r1]) (start [0x30, 0x80, 0x00, 0x02] [(.r1, 0x0001)]) = some [0x8001, 0x0001] := by decide
theorem test_B14 :
    shows (regsOf [.r1]) (start [0x33, 0x02, 0x02] [(.r1, 0xBEEF)]) = some [0x0000] := by decide
theorem test_B15 :
    shows (regsOf [.r1]) (start [0x33, 0x02, 0x03] [(.r1, 0xFFFF), (.r2, 0x1234)]) = some [0xEDCB] := by decide
theorem test_B16 :
    shows (regsOf [.acc]) (start [0x32, 0xFF, 0xFF, 0x02] [(.r1, 0x1234)]) = some [0xEDCB] := by decide
theorem test_B17 :
    shows (regsOf [.acc, .r1, .ip]) (start [0x34, 0x02] [(.r1, 0x0000)]) = some [0xFFFF, 0x0000, 0x0102] := by decide
theorem test_B18 :
    shows (regsOf [.acc]) (start [0x34, 0x01] [(.acc, 0x00FF)]) = some [0xFF00] := by decide
/-! The branch tables: the four columns of the register forms and the two of the literal forms, as `ip` after the step. -/

/-- `ip` after a register-form jump of opcode `b`, in each column. -/
def branchReg (b : Byte) : List (Option (List Word)) :=
  [(0x0005, 0x0005), (0x0004, 0x0005), (0x0006, 0x0005), (0xFFFF, 0x0001)].map fun x =>
    shows (regsOf [.ip]) (start [b, 0x02, 0x02, 0x00] [(.r1, x.1), (.acc, x.2)])

/-- `ip` after a literal-form jump of opcode `b`, in each column. -/
def branchLit (b : Byte) : List (Option (List Word)) :=
  [(0x00, 0x05, 0x0005), (0x00, 0x01, 0xFFFF)].map fun x =>
    shows (regsOf [.ip]) (start [b, x.1, x.2.1, 0x02, 0x00] [(.acc, x.2.2)])
theorem test_jeq_register_form : branchReg 0x3E = [some [0x0200], some [0x0104], some [0x0104], some [0x0104]] := by decide
theorem test_jne_register_form : branchReg 0x40 = [some [0x0104], some [0x0200], some [0x0200], some [0x0200]] := by decide
theorem test_jlt_register_form : branchReg 0x42 = [some [0x0104], some [0x0200], some [0x0104], some [0x0104]] := by decide
theorem test_jgt_register_form : branchReg 0x44 = [some [0x0104], some [0x0104], some [0x0200], some [0x0200]] := by decide
theorem test_jle_register_form : branchReg 0x46 = [some [0x0200], some [0x0200], some [0x0104], some [0x0104]] := by decide
theorem test_jge_register_form : branchReg 0x48 = [some [0x0200], some [0x0104], some [0x0200], some [0x0200]] := by decide
theorem test_jeq_literal_form : branchLit 0x41 = [some [0x0200], some [0x0105]] := by decide
theorem test_jne_literal_form : branchLit 0x15 = [some [0x0105], some [0x0200]] := by decide
theorem test_jlt_literal_form : branchLit 0x43 = [some [0x0105], some [0x0200]] := by decide
theorem test_jgt_literal_form : branchLit 0x45 = [some [0x0105], some [0x0105]] := by decide
theorem test_jle_literal_form : branchLit 0x47 = [some [0x0200], some [0x0200]] := by decide
theorem test_jge_literal_form : branchLit 0x49 = [some [0x0200], some [0x0105]] := by decide
/-- `ip` reads as the next instruction's address in a comparison. -/
theorem test_J2 :
    shows (regsOf [.ip]) (start [0x3E, 0x00, 0x02, 0x00] [(.acc, 0x0104)]) = some [0x0200] := by decide
/-- S1. -/
theorem test_S1 : shows (fun t => (peek t 0xFFFE, peek t 0xFFFF, t.reg .sp, t.fsize)) (start [0x17, 0x12, 0x34] []) =
    some (some 0x12, some 0x34, 0xFFFC, 0x0002) := by decide
/-- S7. -/
theorem test_S7 : faults (start [0x17, 0x00, 0x01] [(.sp, 0xFFFF)]) =
    some (.memoryFault 0x0100 0xFFFF .word .write) := by decide
/-- S3: the value of `sp` before the decrement. -/
theorem test_S3 : shows (fun t => (peekWord t 0xFFFE, t.reg .sp)) (start [0x18, 0x0A] []) = some (some 0xFFFE, 0xFFFC) := by
  decide
/-- S2. -/
theorem test_S2 : shows (fun t => (peekWord t 0xFFFE, t.fsize)) (start [0x18, 0x02] [(.r1, 0xABCD)]) =
    some (some 0xABCD, 0x0002) := by decide
/-- S4. -/
theorem test_S4 : shows (fun t => (t.reg .r1, t.reg .sp, t.fsize))
    ((place 0xFFFE [0xBE, 0xEF] (start [0x1A, 0x02] [(.sp, 0xFFFC)])).setFsize 0x0002) =
    some (0xBEEF, 0xFFFE, 0x0000) := by decide
/-- S5: the popped value overwrites the incremented `sp`. -/
theorem test_S5 : shows (fun t => t.reg .sp)
    ((place 0xFFFE [0x12, 0x34] (start [0x1A, 0x0A] [(.sp, 0xFFFC)])).setFsize 0x0002) = some 0x1234 := by decide

/-- Words of a state, at the addresses asked for. -/
def wordsOf (As : List Word) (s : State) : List (Option Word) := As.map (peekWord s)

/-- S9: the registers after the call. -/
theorem test_S9_registers : shows (fun t => (regsOf [.ip, .sp, .fp] t, t.fsize))
    (start [0x5E, 0x00, 0x40] [(.r1, 1), (.r8, 8)]) = some ([0x0040, 0xFFEA, 0xFFEA], 0x0000) := by decide
/-- S9: the frame. -/
theorem test_S9_frame : shows (wordsOf [0xFFFE, 0xFFFC, 0xFFF2, 0xFFF0, 0xFFEE, 0xFFEC])
    (start [0x5E, 0x00, 0x40] [(.r1, 1), (.r2, 2), (.r7, 7), (.r8, 8)]) =
    some [some 1, some 2, some 7, some 8, some 0x0103, some 0x0014] := by decide
/-- S10. -/
theorem test_S10 : shows (fun t => (regsOf [.ip, .sp, .fp] t, wordsOf [0xFFEE, 0xFFEC] t))
    (start [0x5F, 0x06] [(.r5, 0x0040)]) = some ([0x0040, 0xFFEA, 0xFFEA], [some 0x0102, some 0x0014]) := by decide
/-- S11: no frame. -/
theorem test_S11 : shows (fun t => (regsOf [.ip, .r1, .r8, .sp, .fp] t, t.fsize)) (start [0x60] [(.r1, 7)]) =
    some ([0, 0, 0, 0x0014, 0xFFFE], 0xFFEA) := by decide
/-- P4, the `ret`: the frame of rule R207's example, with count 1. -/
theorem test_P4_ret : shows (fun t => (regsOf [.ip, .r1, .sp, .fp] t, t.fsize))
    (place 0xFFE8 [0x00, 0x18, 0x00, 0x0D] (place 0xFFFA [0x11, 0x11, 0x00, 0x01, 0x00, 0x33]
      (start [0x60] [(.fp, 0xFFE6), (.sp, 0xFFE6)]))) = some ([0x000D, 0x1111, 0xFFFE, 0xFFFE], 0x0000) := by decide
/-- Y1. -/
theorem test_Y1 : shows (fun t => (t.status, t.reg .ip)) (start [0xFF] []) = some (.halted, 0x0101) := by decide
/-- Y3: masked, and nothing but `ip` changes. -/
theorem test_Y3 : shows id (start [0xFD, 0x00, 0x03] [(.im, 0xFFF7)]) =
    some ((start [0xFD, 0x00, 0x03] [(.im, 0xFFF7)]).setReg .ip 0x0103) := by decide
/-- Y4: the number is the low 4 bits. -/
theorem test_Y4 : shows (fun t => (regsOf [.ip, .sp, .fp] t, t.fsize, t.inHandler))
    (place 0x1006 [0x02, 0x00] (start [0xFD, 0x00, 0x13] [])) = some ([0x0200, 0xFFE8, 0xFFE8], 0x0000, true) := by decide
/-- Y8: outside a handler. -/
theorem test_Y8 : shows (fun t => (regsOf [.ip, .sp, .fp] t, t.fsize, t.inHandler)) (start [0xFC] []) =
    some ([0, 0x0014, 0xFFFE], 0xFFEA, false) := by decide
/-- P5, the `rti`. -/
theorem test_P5_rti : shows (fun t => (regsOf [.ip, .sp, .fp] t, t.fsize, t.inHandler))
    ((place 0xFFEA [0x00, 0x16, 0x00, 0x08] (start [0xFC] [(.sp, 0xFFE8), (.fp, 0xFFE8)])).setInHandler true) =
    some ([0x0008, 0xFFFE, 0xFFFE], 0x0000, false) := by decide

/-! ## Faults and decode (2.7) -/

theorem test_X3 : faults (start [0x19] []) = some (.unknownOpcode 0x0100 0x19) := by decide
theorem test_X7 : faults (start [0x11, 0xFF, 0x0E] []) = some (.illegalInstruction 0x0100 0x11 0xFF) := by decide
theorem test_X9 : faults (start [0x12, 0x0E, 0xFF, 0xFF] []) = some (.illegalInstruction 0x0100 0x12 0x0E) := by decide
theorem test_X10 : faults (place 0xFFFE [0x10] ((start [] []).setReg .ip 0xFFFE)) =
    some (.memoryFault 0xFFFE 0xFFFF .word .read) := by decide

/-- A platform with no region at 0x8000. -/
def halfMapped : State :=
  State.resetOf { defaultParams with regions := [⟨0, 0x0000, 0x7FFF, false⟩], devices := [.ram 32768 []] }

theorem test_X11 : faults (halfMapped.setReg .ip 0x8000) = some (.memoryFault 0x8000 0x8000 .byte .read) := by decide

/-! ## Platforms: banked memory (P7) and a peripheral -/

/-- The platform of P7: a banked device of two banks of 0x0100 bytes at 0x2000, remapped, before the default RAM. -/
def banked : Params := hostMap ⟨1, 0x2000, 0x20FF, true⟩ (hostAddDevice (.banked 0x0100 [[], []]) defaultParams)

theorem test_banked_wf : paramsWf banked = true := by decide
/-- P7, the store: bank 1 gets the word, bank 0 and the RAM below do not. -/
theorem test_P7_store : shows (fun t => (deviceByte t 1 1 1, deviceByte t 1 0 1, deviceByte t 0 0 0x2001))
    (place 0x0100 [0x1B, 0x00, 0x2A, 0x20, 0x00] (((State.resetOf banked).setReg .ip 0x0100).setReg .mb 1)) =
    some (some 0x2A, some 0x00, some 0x00) := by decide
/-- The bank is `mb` modulo the number of banks (R65), and a word over the bank's end faults. -/
theorem test_banked_read : peek ((State.resetOf banked).setReg .mb 3) 0x20FF = some 0 ∧
    peekWord (State.resetOf banked) 0x20FF = none := by decide

/-- A platform with a peripheral at 0x9000 to 0x90FF. -/
def withPeripheral : Params := hostMap ⟨1, 0x9000, 0x90FF, true⟩ (hostAddDevice (.peripheral []) defaultParams)

theorem test_peripheral_wf : paramsWf withPeripheral = true := by decide

/-! ## The host and the table word -/

/-- The table's first row, placed by `withFetchWord` at reset, is what the next step runs. -/
theorem test_withFetchWord : shows (regsOf [.r1, .ip]) (State.reset.withFetchWord 32 0x02341210) = some [0x1234, 0x0004] := by
  decide
/-- R281: an image is loaded at 0. -/
theorem test_load : (hostLoad [0x10, 0x00, 0x05] State.reset).map (fun s => (peek s 0, peek s 2, peek s 3)) =
    some (some 0x10, some 0x05, some 0x00) := by decide
/-- R282: a reset from Halted is R280's state. -/
theorem test_hostReset : hostReset (State.reset.setStatus .halted) = State.reset := by decide
/-- R271: no step from Halted. -/
theorem test_no_step_from_halted : step (State.reset.setStatus .halted) = .refused .stepAfterHalt := by rfl
/-- The endless loop of R275 ends a run at its bound only. -/
theorem test_run_bound : run 2 (place 0x0000 [0x3E, 0x01, 0x00, 0x00] State.reset) =
    .boundReached (place 0x0000 [0x3E, 0x01, 0x00, 0x00] State.reset) := by decide

/-! ## Witnesses: for every statement with hypotheses, a state and operands that meet all of them -/

/-- P4's state before its call: one argument and the count 1 pushed, the call at 0x000A decoded. -/
def beforeCall : State :=
  (place 0xFFFC [0x00, 0x01, 0x00, 0x33] (State.reset.setReg .sp 0xFFFA |>.setReg .ip 0x000D)).setFsize 4

/-- A platform of one byte of RAM, which holds the opcode `b`: every operand fetch is refused. -/
def oneByte (b : Byte) : State :=
  State.resetOf { defaultParams with devices := [.ram 1 (if b = 0 then [] else [(0, b)])] }

/-- The state at 0 with an opcode and operand bytes 0xFF. -/
def badRegister (b : Byte) : State := place 0x0000 [b, 0xFF, 0xFF, 0xFF, 0xFF] State.reset

/-- `FetchFaults b o` has a case at `oneByte b`. -/
def fetchFaultCase (b : Byte) (o : Op) : Bool :=
  match fetch8 (oneByte b) with
  | .error _ => false
  | .ok (c, s₁) => decide (c = b) && decide (opOfByte (oneByte b).params.opcodes b = some o) &&
    match readFields fetch8 fetch16 o.format.layout noFields s₁ with
    | .error _ => true
    | .ok _ => false

/-- `RegisterFaults b o` has a case at `badRegister b`. -/
def registerFaultCase (b : Byte) (o : Op) : Bool :=
  match fetch8 (badRegister b) with
  | .error _ => false
  | .ok (c, s₁) => decide (c = b) && decide (opOfByte (badRegister b).params.opcodes b = some o) &&
    match readFields fetch8 fetch16 o.format.layout noFields s₁ with
    | .error _ => false
    | .ok (f, _) =>
      match fieldRegs f with
      | .error _ => true
      | .ok _ => false

/-- `NoRegisterByte o` has a case: the fields are fetched at reset. -/
def fieldsFetched (o : Op) : Bool :=
  match readFields fetch8 fetch16 o.format.layout noFields State.reset with
  | .ok _ => true
  | .error _ => false

/-- The opcodes whose statements claim FetchFaults. -/
def fetchFaultOps : List (Byte × Op) :=
  [(0x10, .movLitReg), (0x11, .movRegReg), (0x12, .movRegMem), (0x1B, .movLitMem), (0x1C, .movRegPtrReg)]
  ++ [(0x14, .addRegReg), (0x3F, .addLitReg), (0x21, .mulRegReg), (0x20, .mulLitReg), (0x35, .incReg), (0x36, .decReg)]
  ++ [(0x2F, .andRegReg), (0x31, .orRegReg), (0x33, .xorRegReg), (0x2E, .andLitReg), (0x30, .orLitReg)]
  ++ [(0x32, .xorLitReg), (0x34, .notReg), (0x3E, .jeqReg), (0x41, .jeqLit), (0x40, .jneReg), (0x15, .jneLit)]

/-- Those that also claim RegisterFaults. -/
def registerFaultOps : List (Byte × Op) :=
  fetchFaultOps.filter fun x => decide (x.2 ∉ [.movLitMem, .jeqLit, .jneLit])

/-- Also the witnesses of EveryInstructionSharesItsFetchFaults. -/
theorem test_witness_fetch_faults : fetchFaultOps.all (fun x => fetchFaultCase x.1 x.2) = true := by decide
theorem test_witness_register_faults : registerFaultOps.all (fun x => registerFaultCase x.1 x.2) = true := by decide
theorem test_witness_no_register_byte : [Op.movLitMem, .jeqLit, .jneLit].all fieldsFetched = true := by decide
/-- EncodedAs: the default map lists every first byte it is claimed for. -/
theorem test_witness_encoded_as : fetchFaultOps.all (fun x => decide (byteOfOp defaultOpcodes x.2 = some x.1)) = true := by
  decide

theorem test_witness_ResetIsWellFormed : paramsWf defaultParams = true ∧ paramsWf banked = true := by decide
theorem test_witness_DecodeOfEncodeIsTheInstruction :
    opcodesWf defaultOpcodes = true ∧ instrWf defaultOpcodes (.movLitReg 0x1234 .r1) = true := by decide
theorem test_witness_EncodeOfDecodeIsTheBytes :
    opcodesWf defaultOpcodes = true ∧ decode defaultOpcodes [0x60, 0xAB] = .ok (.ret, [0xAB]) := ⟨by decide, rfl⟩
theorem test_witness_OpcodeByteAloneGivesTheLength :
    decode defaultOpcodes (0x15 :: [0x00, 0x0A, 0x00, 0x04, 0xAB]) = .ok (.jneLit 0x000A 0x0004, [0xAB]) := rfl
/-- The edges of the unrecognized ranges. -/
theorem test_witness_UnrecognizedOpcodeFaults :
    [0x0F, 0x19, 0x1E, 0x22, 0x25, 0x28, 0x29, 0x2C, 0x2D, 0x37, 0x3D, 0x4A, 0x5D, 0x61, 0xFB, 0xFE].all
      (fun b => decide (opOfByte defaultOpcodes b = none)) = true ∧
    [0x10, 0x18, 0x1A, 0x1D, 0x1F, 0x21, 0x26, 0x27, 0x2A, 0x2B, 0x2E, 0x36, 0x3E, 0x49, 0x5E, 0x60, 0xFC, 0xFD, 0xFF].all
      (fun b => decide (opOfByte defaultOpcodes b ≠ none)) = true ∧
    State.reset.status = .running ∧ (∃ s₁, fetch8 State.reset = .ok (0x00, s₁)) ∧
    opOfByte State.reset.params.opcodes 0x00 = none := ⟨by decide, by decide, rfl, ⟨_, rfl⟩, by decide⟩
/-- Both clauses, at the boundary 14. -/
theorem test_witness_FirstBadRegisterByteIsReported :
    fieldRegs ⟨0, 0, 14, 14⟩ = .error 14 ∧ fieldRegs ⟨0, 0, 13, 255⟩ = .error 255 ∧ fieldRegs ⟨0, 0, 13, 13⟩ = .ok (.im, .im) :=
  ⟨rfl, rfl, rfl⟩
theorem test_witness_StepRunsTheDecodedInstruction :
    (start [0x3E, 0x01, 0x02, 0x00] []).status = .running ∧
    decode (start [0x3E, 0x01, 0x02, 0x00] []).params.opcodes [0x3E, 0x01, 0x02, 0x00] = .ok (.jeqReg .acc 0x0200, []) ∧
    CodeAt (start [0x3E, 0x01, 0x02, 0x00] []) .jeqReg [0x3E, 0x01, 0x02, 0x00] :=
  ⟨by decide, by rfl, by decide, by decide, by decide, trivial⟩
/-- At the last place it fits: `ret` at 0xFFFF. -/
theorem test_witness_BytesInFlatMemoryAreCode :
    Flat (place 0xFFFF [0x60] (State.reset.setReg .ip 0xFFFF)) ∧
    (place 0xFFFF [0x60] (State.reset.setReg .ip 0xFFFF)).status = .running ∧
    decode (place 0xFFFF [0x60] (State.reset.setReg .ip 0xFFFF)).params.opcodes [0x60] = .ok (.ret, []) ∧
    ((place 0xFFFF [0x60] (State.reset.setReg .ip 0xFFFF)).reg .ip).toNat + Instr.ret.op.size ≤ 65536 ∧
    peek (place 0xFFFF [0x60] (State.reset.setReg .ip 0xFFFF)) 0xFFFF = some 0x60 :=
  ⟨⟨rfl, _, rfl⟩, by decide, by rfl, by decide, by decide⟩
theorem test_witness_UnmappedOpcodeFetchFaults : (halfMapped.setReg .ip 0x8000).status = .running ∧
    findRegion (halfMapped.setReg .ip 0x8000).params.regions ((halfMapped.setReg .ip 0x8000).reg .ip) = none := by decide
/-- All three outcomes, and the two statuses without a step. -/
theorem test_witness_StepEndsInOneOfThreeOutcomes :
    shows (fun t => t.status) (start [0x35, 0x02] []) = some .running ∧
    shows (fun t => t.status) (start [0xFF] []) = some .halted ∧
    faults (start [0x00] []) = some (.unknownOpcode 0x0100 0x00) ∧
    (State.reset.setStatus (.faulted (.unknownOpcode 0 0))).status ≠ .running := by decide
theorem test_witness_FaultsRecordTheOpcodeAddress :
    (start [0x00] []).status = .running ∧ faults (start [0x00] []) = some (.unknownOpcode 0x0100 0x00) := by decide
theorem test_witness_ExecutionFaultsOnlyOnWordAccesses :
    exec (.movMemReg 0xFFFF .r1) State.reset = .fault (.memoryFault 0xFFFC 0xFFFF .word .read) := by rfl
/-- A served word, at the last address that has one, and a refused one. -/
theorem test_witness_MoveToMemory : stateWf State.reset = true ∧ wordServed State.reset 0xFFFE = true ∧
    memWrite .word 0xFFFF (State.reset.reg .r1) State.reset = .error ⟨0xFFFF, .word, .write⟩ ∧
    ∃ t, memWrite .word 0xFFFE 0x0102 State.reset = .ok t := ⟨by decide, by decide, by rfl, ⟨_, rfl⟩⟩
theorem test_witness_MoveThroughPointer : peekWord State.reset (State.reset.reg .r1) = some 0 ∧
    (∃ t, memRead .word (State.reset.reg .r1) State.reset = .ok (0, t)) ∧
    memRead .word ((State.reset.setReg .r1 0xFFFF).reg .r1) (State.reset.setReg .r1 0xFFFF) =
      .error ⟨0xFFFF, .word, .read⟩ := ⟨by decide, ⟨_, rfl⟩, by rfl⟩
theorem test_witness_MoveFromMemory : peekWord State.reset 0xFFFE = some 0 ∧
    peekWord State.reset (BitVec.ofNat 16 ((0xFFFF : Word).toNat + (State.reset.reg .sp).toNat)) = some 0 ∧
    memRead .word (BitVec.ofNat 16 ((0x0001 : Word).toNat + (State.reset.reg .sp).toNat)) State.reset =
      .error ⟨0xFFFF, .word, .read⟩ := ⟨by decide, by decide, by rfl⟩
/-- The first clause on both sides, at both ends of a region, and a shadowing region. -/
theorem test_witness_FirstContainingRegionServes :
    findRegion banked.regions 0x2000 = some ⟨1, 0x2000, 0x20FF, true⟩ ∧
    findRegion banked.regions 0x20FF = some ⟨1, 0x2000, 0x20FF, true⟩ ∧
    findRegion banked.regions 0x2100 = some ⟨0, 0x0000, 0xFFFF, false⟩ ∧
    findRegion [⟨0, 0x0002, 0x0001, false⟩] 0x0001 = none ∧ localAddr ⟨1, 0x2000, 0x20FF, true⟩ 0x20FF = 0x00FF := by decide
theorem test_witness_AccessFaultsWhenUnservedOrRefused :
    memRead .byte 0x8000 halfMapped = .error ⟨0x8000, .byte, .read⟩ ∧
    memWrite .word 0x7FFF 0 halfMapped = .error ⟨0x7FFF, .word, .write⟩ := ⟨by rfl, by rfl⟩
/-- Also the last local address, which serves a byte and refuses a word. -/
theorem test_witness_BankedAccessUsesTheSelectedBank :
    route (State.resetOf banked) 0x20FF = some (⟨1, 0x2000, 0x20FF, true⟩, .banked 0x0100 [[], []]) ∧
    ([[], []] : List Memory)[((State.resetOf banked).reg .mb).toNat % ([[], []] : List Memory).length]? = some [] ∧
    (localAddr ⟨1, 0x2000, 0x20FF, true⟩ 0x20FF).toNat < 0x0100 ∧
    ¬ (localAddr ⟨1, 0x2000, 0x20FF, true⟩ 0x20FF).toNat + 1 < 0x0100 := by decide
theorem test_witness_BanksAreIndependent :
    route (State.resetOf banked) 0x2000 = some (⟨1, 0x2000, 0x20FF, true⟩, .banked 0x0100 [[], []]) ∧
    ∃ t, memWrite .word 0x2000 0x002A (State.resetOf banked) = .ok t := ⟨by decide, ⟨_, rfl⟩⟩
theorem test_witness_StorageReadsTheLastWrite : memWf 4 [(1, 5), (3, 7)] = true ∧ 3 < 4 := by decide
theorem test_witness_FlatStoreIsBigEndian : Flat State.reset ∧ stateWf State.reset = true ∧ (0xFFFE : Word) ≠ 0xFFFF :=
  ⟨⟨rfl, _, rfl⟩, by decide, by decide⟩
theorem test_witness_PeripheralReadsAreDrawsAndWritesAreEvents :
    route (State.resetOf withPeripheral) 0x90FF = some (⟨1, 0x9000, 0x90FF, true⟩, .peripheral []) := by decide
/-- Also the slot at 0x0000, from which `sp` wraps. -/
theorem test_witness_PushStoresAtTheStackPointer : stateWf State.reset = true ∧
    wordServed State.reset (State.reset.reg .sp) = true ∧
    wordServed (State.reset.setReg .sp 0) ((State.reset.setReg .sp 0).reg .sp) = true := by decide
theorem test_witness_PopLoadsAboveTheStackPointer : peekWord State.reset (State.reset.reg .sp + 2) = some 0 := by decide
theorem test_witness_RefusedStackAccessFaults :
    memWrite .word ((State.reset.setReg .sp 0xFFFF).reg .sp) 1 (State.reset.setReg .sp 0xFFFF) =
      .error ⟨0xFFFF, .word, .write⟩ ∧
    memWrite .word ((State.reset.setReg .sp 0xFFFF).reg .sp) ((State.reset.setReg .sp 0xFFFF).reg .r1)
      (State.reset.setReg .sp 0xFFFF) = .error ⟨0xFFFF, .word, .write⟩ ∧
    memRead .word ((State.reset.setReg .sp 0xFFFD).reg .sp + 2) (State.reset.setReg .sp 0xFFFD) =
      .error ⟨0xFFFF, .word, .read⟩ := ⟨by rfl, by rfl, by rfl⟩
theorem test_witness_PopReturnsTheLastPush : stateWf State.reset = true ∧
    wordServed State.reset (State.reset.reg .sp) = true ∧ (∃ t, exec (.pshLit 0x5151) State.reset = .next t) ∧
    ∃ t, exec (.pshReg .sp) State.reset = .next t := ⟨by decide, by decide, ⟨_, rfl⟩, ⟨_, rfl⟩⟩
theorem test_witness_CallEntersTheSubroutine : stateWf State.reset = true ∧ slotsServed State.reset (State.reset.reg .sp) 10 :=
  ⟨by decide, (by decide : ∀ k < 10, wordServed State.reset (State.reset.reg .sp - BitVec.ofNat 16 (2 * k)) = true)⟩
theorem test_witness_CallFrameLayout : Flat beforeCall ∧ stateWf beforeCall = true ∧
    slotsServed beforeCall (beforeCall.reg .sp) 10 ∧ (∃ t, exec (.calLit 0x0020) beforeCall = .next t) ∧
    ∃ t, exec (.calReg .sp) beforeCall = .next t :=
  ⟨⟨rfl, _, rfl⟩, by decide,
    (by decide : ∀ k < 10, wordServed beforeCall (beforeCall.reg .sp - BitVec.ofNat 16 (2 * k)) = true), ⟨_, rfl⟩,
    ⟨_, rfl⟩⟩
/-- The clause on the return address of a step, for `cal $L`. -/
theorem test_witness_CallFrameLayout_step_lit : Flat (start [0x5E, 0x02, 0x00] []) ∧
    stateWf (start [0x5E, 0x02, 0x00] []) = true ∧ (start [0x5E, 0x02, 0x00] []).status = .running ∧
    decode (start [0x5E, 0x02, 0x00] []).params.opcodes [0x5E, 0x02, 0x00] = .ok (.calLit 0x0200, []) ∧
    CodeAt (start [0x5E, 0x02, 0x00] []) .calLit [0x5E, 0x02, 0x00] ∧ ∃ t, step (start [0x5E, 0x02, 0x00] []) = .next t :=
  ⟨⟨rfl, _, rfl⟩, by decide, by decide, by rfl, ⟨by decide, by decide, trivial⟩, ⟨_, rfl⟩⟩
/-- The clause on the return address of a step, for `cal R`. -/
theorem test_witness_CallFrameLayout_step_reg : Flat (start [0x5F, 0x06] []) ∧ stateWf (start [0x5F, 0x06] []) = true ∧
    (start [0x5F, 0x06] []).status = .running ∧
    decode (start [0x5F, 0x06] []).params.opcodes [0x5F, 0x06] = .ok (.calReg .r5, []) ∧
    CodeAt (start [0x5F, 0x06] []) .calReg [0x5F, 0x06] ∧ ∃ t, step (start [0x5F, 0x06] []) = .next t :=
  ⟨⟨rfl, _, rfl⟩, by decide, by decide, by rfl, ⟨by decide, by decide, trivial⟩, ⟨_, rfl⟩⟩
/-- A frame with one argument: eleven words and the argument, all served. -/
theorem test_witness_ReturnRestoresTheFrame :
    ∀ k < 11 + ((fun j => if j = 10 then (1 : Word) else if j = 11 then 0x33 else 0) 10).toNat,
      peekWord (beforeCall.setReg .fp 0xFFE6) ((beforeCall.setReg .fp 0xFFE6).reg .fp + 2 + BitVec.ofNat 16 (2 * k)) =
        some (if k = 10 then 1 else if k = 11 then 0x33 else 0) := by decide
/-- The state `t` after the call is itself a state `u` to return from, with the same `fp` and frame words. -/
theorem test_witness_ReturnUndoesTheCall : Flat beforeCall ∧ stateWf beforeCall = true ∧ StackInv beforeCall ∧
    slotsServed beforeCall (beforeCall.reg .sp) 10 ∧ peekWord beforeCall (beforeCall.reg .sp + 2) = some 1 ∧
    (∀ k < (1 : Word).toNat, wordServed beforeCall (beforeCall.reg .sp + 4 + BitVec.ofNat 16 (2 * k)) = true) ∧
    (∃ t, exec (.calLit 0x0020) beforeCall = .next t ∧ Flat t) ∧ ∃ t, exec (.calReg .r1) beforeCall = .next t ∧ Flat t :=
  ⟨⟨rfl, _, rfl⟩, by decide, (by decide : beforeCall.reg .fp - beforeCall.reg .sp = beforeCall.fsize),
    (by decide : ∀ k < 10, wordServed beforeCall (beforeCall.reg .sp - BitVec.ofNat 16 (2 * k)) = true), by decide,
    by decide, ⟨_, rfl, ⟨rfl, _, rfl⟩⟩, ⟨_, rfl, ⟨rfl, _, rfl⟩⟩⟩
theorem test_witness_StackInvariantIsKept : StackInv beforeCall ∧ destReg (.pshLit 1) ≠ some .sp ∧
    destReg (.pshLit 1) ≠ some .fp ∧ (∃ t, exec (.pshLit 1) beforeCall = .next t) ∧
    StackInv (start [0x17, 0x00, 0x01] []) ∧ (∃ u, fetchInstr (start [0x17, 0x00, 0x01] []) = .ok (.pshLit 1, u)) ∧
    ∃ t, step (start [0x17, 0x00, 0x01] []) = .next t :=
  ⟨(by decide : beforeCall.reg .fp - beforeCall.reg .sp = beforeCall.fsize), by decide, by decide, ⟨_, rfl⟩,
    (by decide : (start [0x17, 0x00, 0x01] []).reg .fp - (start [0x17, 0x00, 0x01] []).reg .sp =
      (start [0x17, 0x00, 0x01] []).fsize), ⟨_, rfl⟩, ⟨_, rfl⟩⟩
theorem test_witness_MaskedInterruptIsDropped :
    ((State.reset.setReg .im 0xFFF7).reg .im).getLsbD ((0x0013 : Word).toNat % 16) = false := by decide
/-- Also the number 15, whose vector wraps past the top of memory. -/
theorem test_witness_InterruptNumberIsTheLowFourBits : (0x0013 : Word).toNat % 16 = (0x0003 : Word).toNat % 16 ∧
    interruptNumber 0x0013 = 3 ∧ interruptNumber 0xFFFF = 15 ∧
    vectorAddr 15 (State.resetOf { defaultParams with vectorBase := 0xFFF0 }) = 0x000E := by decide
theorem test_witness_InterruptEntry : stateWf State.reset = true ∧ State.reset.inHandler = false ∧
    (State.reset.reg .im).getLsbD ((0x000F : Word).toNat % 16) = true ∧
    peekWord State.reset (State.reset.params.vectorBase + BitVec.ofNat 16 (2 * ((0x000F : Word).toNat % 16))) = some 0 ∧
    slotsServed State.reset (State.reset.reg .sp) 11 :=
  ⟨by decide, by decide, by decide, by decide,
    (by decide : ∀ k < 11, wordServed State.reset (State.reset.reg .sp - BitVec.ofNat 16 (2 * k)) = true)⟩
theorem test_witness_InterruptFrameLayout : Flat State.reset ∧ stateWf State.reset = true ∧ StackInv State.reset ∧
    State.reset.inHandler = false ∧ (State.reset.reg .im).getLsbD ((0x0000 : Word).toNat % 16) = true ∧
    slotsServed State.reset (State.reset.reg .sp) 11 ∧ ∃ t, exec (.intLit 0x0000) State.reset = .next t :=
  ⟨⟨rfl, _, rfl⟩, by decide, (by decide : State.reset.reg .fp - State.reset.reg .sp = State.reset.fsize), by decide,
    by decide, (by decide : ∀ k < 11, wordServed State.reset (State.reset.reg .sp - BitVec.ofNat 16 (2 * k)) = true),
    ⟨_, rfl⟩⟩
/-- At P4's state, with the interrupt number 15. -/
theorem test_witness_ReturnFromInterruptUndoesTheEntry : Flat beforeCall ∧ stateWf beforeCall = true ∧ StackInv beforeCall ∧
    beforeCall.inHandler = false ∧ (beforeCall.reg .im).getLsbD ((0x000F : Word).toNat % 16) = true ∧
    slotsServed beforeCall (beforeCall.reg .sp) 11 ∧ ∃ t, exec (.intLit 0x000F) beforeCall = .next t :=
  ⟨⟨rfl, _, rfl⟩, by decide, (by decide : beforeCall.reg .fp - beforeCall.reg .sp = beforeCall.fsize), by decide,
    by decide, (by decide : ∀ k < 11, wordServed beforeCall (beforeCall.reg .sp - BitVec.ofNat 16 (2 * k)) = true),
    ⟨_, rfl⟩⟩
theorem test_witness_NestedInterruptOnlyJumps : (State.reset.setInHandler true).inHandler = true ∧
    ((State.reset.setInHandler true).reg .im).getLsbD ((0x0000 : Word).toNat % 16) = true ∧
    peekWord (State.reset.setInHandler true) ((State.reset.setInHandler true).params.vectorBase +
      BitVec.ofNat 16 (2 * ((0x0000 : Word).toNat % 16))) = some 0 := by decide
/-- A vector base whose first entry straddles the top of memory. -/
theorem test_witness_RefusedVectorReadFaults :
    ((State.resetOf { defaultParams with vectorBase := 0xFFFF }).reg .im).getLsbD ((0x0000 : Word).toNat % 16) = true ∧
    memRead .word ((State.resetOf { defaultParams with vectorBase := 0xFFFF }).params.vectorBase +
      BitVec.ofNat 16 (2 * ((0x0000 : Word).toNat % 16))) (State.resetOf { defaultParams with vectorBase := 0xFFFF }) =
      .error ⟨0xFFFF, .word, .read⟩ := ⟨by decide, by rfl⟩
theorem test_witness_RegistersChangeOnlyAsNamed : (∃ t, exec (.calLit 0x0020) beforeCall = .next t) ∧
    destReg (.calLit 0x0020) ≠ some .acc ∧ Reg.acc ∉ implicitRegs (.calLit 0x0020) := ⟨⟨_, rfl⟩, by decide, by decide⟩
theorem test_witness_HiddenStateChangesOnlyAsNamed : (∃ t, exec (.incReg .sp) State.reset = .next t) ∧
    usesStack (.incReg .sp) = false ∧ (∃ t, exec (.intLit 0x0003) State.reset = .next t) ∧
    ∃ t, exec .rti State.reset = .next t := ⟨⟨_, rfl⟩, by decide, ⟨_, rfl⟩, ⟨_, rfl⟩⟩
theorem test_witness_OnlyStoringInstructionsChangeMemory : canStore .ret = false ∧ ∃ t, exec .ret State.reset = .next t :=
  ⟨by decide, ⟨_, rfl⟩⟩
theorem test_witness_StepKeepsTheInvariants : (∃ t, step (start [0x17, 0x00, 0x01] []) = .next t) ∧
    stateWf (start [0x17, 0x00, 0x01] []) = true ∧ shapesKept (start [0x17, 0x00, 0x01] []) := ⟨⟨_, rfl⟩, by decide, rfl⟩
theorem test_witness_LoadPlacesTheImageAtZero :
    ([0x10, 0x00] : List Byte).length ≤ 65536 ∧ 65536 < (List.replicate 65537 (0x00 : Byte)).length :=
  ⟨by decide, by rw [List.length_replicate]; decide⟩

end Sys2Proof.Tests
end

section
/-! The accesses of a banked device (spec/20_memory.md R64, R65): the bank selected by `mb` serves them as a storage of
its own. -/

namespace Sys2Proof.Machine

/-- A write through a banked device is a write of the selected bank's storage; the state after it differs in that bank
alone. -/
theorem memWrite_of_bank {s : State} {A : Word} {r : Region} {size : Nat} {banks : List Memory} {m : Memory} (w : Width)
    (v : Word) (hr : route s A = some (r, .banked size banks))
    (hm : banks[bankIndex (s.reg .mb) banks]? = some m) :
    memWrite w A v s = match storageWrite size m w (localAddr r A) v with
      | none => .error ⟨A, w, .write⟩
      | some m' => .ok (s.setDevices (s.devices.set r.device
          (.banked size (banks.set (bankIndex (s.reg .mb) banks) m')))) := by
  simp only [memWrite, hr, deviceWrite, hm, drawsAfter]
  cases storageWrite size m w (localAddr r A) v <;> rfl

/-- Settles O33: each access is one of the selected bank's storage, which serves it exactly inside its bounds. -/
theorem bankedAccessUsesTheSelectedBank : Obligations.BankedAccessUsesTheSelectedBank := by
  intro s A r size banks m hr hm
  have hstorage : deviceStorage (.banked size banks) (s.reg .mb) = some (size, m) := by
    simp only [deviceStorage, bankIndex, hm]
  refine ⟨?readByte, ?readWord, fun v => ?writeByte, fun v => ?writeWord⟩
  case readByte =>
    rw [memRead_of_storage .byte hr hstorage, storageRead]
    by_cases hL : (localAddr r A).toNat < size <;> simp only [hL, if_true, if_false] <;> rfl
  case readWord =>
    rw [memRead_of_storage .word hr hstorage, storageRead]
    by_cases hL : (localAddr r A).toNat + 1 < size <;> simp only [hL, if_true, if_false] <;> rfl
  case writeByte =>
    rw [memWrite_of_bank .byte v hr hm, storageWrite]
    by_cases hL : (localAddr r A).toNat < size <;> simp only [hL, if_true, if_false] <;> rfl
  case writeWord =>
    rw [memWrite_of_bank .word v hr hm, storageWrite]
    by_cases hL : (localAddr r A).toNat + 1 < size <;> simp only [hL, if_true, if_false] <;> rfl

end Sys2Proof.Machine
end

section
/-! The decoder over a list of bytes (spec/30_encoding.md R98, R99): what a completed decode found, and how many bytes
reading its fields consumed. -/

namespace Sys2Proof

theorem length_of_takeByte {b : Byte} {bs rest : List Byte} (h : takeByte bs = .ok (b, rest)) :
    bs.length = 1 + rest.length := by
  cases bs with
  | nil => cases h
  | cons _ _ => cases h; rw [List.length_cons, Nat.add_comm]

theorem length_of_takeWord {v : Word} {bs rest : List Byte} (h : takeWord bs = .ok (v, rest)) :
    bs.length = 2 + rest.length := by
  match bs, h with
  | _ :: _ :: _, h => cases h; rw [List.length_cons, List.length_cons, Nat.add_assoc, Nat.add_comm]

/-- A completed read of a field and those after it: the field took as many bytes as it is wide. -/
theorem readFields_cons_ok {k : FieldKind} {ks : List FieldKind} {f g : Fields} {bs rest : List Byte}
    (h : readFields takeByte takeWord (k :: ks) f bs = .ok (g, rest)) :
    ∃ f' bs', bs.length = k.width + bs'.length ∧ readFields takeByte takeWord ks f' bs' = .ok (g, rest) := by
  cases k with
  | lit | addr =>
    rw [readFields] at h
    split at h
    · cases h
    · rename_i hword; exact ⟨_, _, length_of_takeWord hword, h⟩
  | ra | rb =>
    rw [readFields] at h
    split at h
    · cases h
    · rename_i hbyte; exact ⟨_, _, length_of_takeByte hbyte, h⟩

/-- Reading the fields of a layout consumes the bytes the layout counts, whatever they hold. -/
theorem length_of_readFields {ks : List FieldKind} {f g : Fields} {bs rest : List Byte}
    (h : readFields takeByte takeWord ks f bs = .ok (g, rest)) :
    bs.length = (ks.map FieldKind.width).sum + rest.length := by
  induction ks generalizing f bs with
  | nil => cases h; simp
  | cons k ks ih =>
    obtain ⟨f', bs', hlength, hrest⟩ := readFields_cons_ok h
    rw [hlength, ih hrest, List.map_cons, List.sum_cons, Nat.add_assoc]

/-- Everything a completed decode did: the first byte selects a descriptor, its fields are read from the bytes after it,
and the register bytes name registers. -/
theorem decode_cons_ok {t : Opcodes} {op : Byte} {bs rest : List Byte} {i : Instr}
    (h : decode t (op :: bs) = .ok (i, rest)) :
    ∃ o f ra rb, opOfByte t op = some o ∧ readFields takeByte takeWord o.format.layout noFields bs = .ok (f, rest) ∧
      fieldRegs f = .ok (ra, rb) ∧ i = instrOf o f.lit f.addr ra rb := by
  rw [decode] at h
  split at h
  · cases h
  · rename_i o ho
    split at h
    · cases h
    · rename_i f _ hf
      split at h
      · cases h
      · rename_i ra rb hr; cases h; exact ⟨o, f, ra, rb, ho, hf, hr, rfl⟩

/-- Settles O6: the bytes consumed are the opcode byte and the fields of the descriptor it selects. -/
theorem opcodeByteAloneGivesTheLength : Obligations.OpcodeByteAloneGivesTheLength := by
  intro t op bs i rest h
  obtain ⟨o, f, ra, rb, ho, hf, -, -⟩ := decode_cons_ok h
  have hlength : (op :: bs).length = o.size + rest.length := by
    rw [List.length_cons, length_of_readFields hf, Op.size, Format.size]; omega
  exact ⟨o, ho, hlength, Laws.EncodedSize.size_range o⟩

end Sys2Proof
end

section
/-! The faults of the fetch and the encoding, for every descriptor (spec/30_encoding.md R91, R96, R99;
spec/60_exceptions.md R241). -/

namespace Sys2Proof.Machine

theorem step_of_fetchInstr_error {s : State} {f : Fault} (hrun : s.status = .running) (h : fetchInstr s = .error f) :
    step s = .fault f := by
  simp only [step, hrun, h]

/-- A refused operand fetch, whatever the opcode byte and the descriptor it selects. -/
theorem fetchFaults (b : Byte) (o : Op) : FetchFaults b o := by
  intro s s₁ e hrun hop hbyte hfields
  apply step_of_fetchInstr_error hrun
  simp only [fetchInstr, hbyte, hop, hfields]

/-- A register byte that names no register, whatever the opcode byte and the descriptor it selects. -/
theorem registerFaults (b : Byte) (o : Op) : RegisterFaults b o := by
  intro s s₁ s₂ f x hrun hop hbyte hfields hregs
  apply step_of_fetchInstr_error hrun
  simp only [fetchInstr, hbyte, hop, hfields, hregs]

theorem commonFaults (b : Byte) (o : Op) : CommonFaults b o := ⟨fetchFaults b o, registerFaults b o⟩

/-- An instruction is encoded as its opcode byte followed by the bytes of its fields in layout order. -/
theorem encodedAs_fieldBytes (b : Byte) (i : Instr) :
    EncodedAs i (b :: (i.op.format.layout.map (fieldBytes (instrFields i))).flatten) := by
  intro t h
  simp only [encode, h]

end Sys2Proof.Machine
end

section
/-! Data movement into a register (spec/40_move.md R130, R131, R135): the write of a register alone, and the load of a
word, whatever its address is computed from. -/

namespace Sys2Proof.Machine

theorem onlyReg_setReg (s : State) (r : Reg) (v : Word) : OnlyReg s (s.setReg r v) r v :=
  ⟨fun q => State.reg_setReg s r q v, rfl, rfl, rfl, rfl, rfl, rfl⟩

/-- A load that memory or a device answers: the register is written in the state the read left. -/
theorem conclude_loadReg_of_read {A v : Word} {s t : State} (o : Op) (r : Reg) (h : memRead .word A s = .ok (v, t)) :
    conclude o s (loadReg A r s) = .next (t.setReg r v) := by
  simp only [loadReg, h, conclude]

/-- A load that is refused: the fault names the instruction's opcode and the address of the word. -/
theorem conclude_loadReg_of_refused {A : Word} {s : State} {e : MemError} (o : Op) (r : Reg)
    (h : memRead .word A s = .error e) :
    conclude o s (loadReg A r s) = .fault (.memoryFault (opcodeAddr o s) A .word .read) := by
  obtain rfl := memRead_error h
  simp only [loadReg, h, conclude, memFault]

/-- A load of a word that memory serves writes the register and nothing else. -/
theorem conclude_loadReg_of_peekWord {A v : Word} {s : State} (o : Op) (r : Reg) (h : peekWord s A = some v) :
    ∃ t, conclude o s (loadReg A r s) = .next t ∧ OnlyReg s t r v :=
  ⟨_, conclude_loadReg_of_read o r (memRead_word_of_peekWord h), onlyReg_setReg s r v⟩

/-- Settles O17: both moves are one write of the destination register. -/
theorem moveToRegister : Obligations.MoveToRegister :=
  ⟨commonFaults _ _, commonFaults _ _,
    fun L R => encodedAs_fieldBytes 0x10 (.movLitReg L R),
    fun Ra Rb => encodedAs_fieldBytes 0x11 (.movRegReg Ra Rb),
    fun L R s => ⟨s.setReg R L, rfl, onlyReg_setReg s R L⟩,
    fun Ra Rb s => ⟨s.setReg Rb (s.reg Ra), rfl, onlyReg_setReg s Rb (s.reg Ra)⟩⟩

theorem exec_movRegPtrReg (Ra Rb : Reg) (s : State) :
    exec (.movRegPtrReg Ra Rb) s = conclude .movRegPtrReg s (loadReg (s.reg Ra) Rb s) := rfl

/-- Settles O19: the instruction is the load of the word at the address in `Ra`. -/
theorem moveThroughPointer : Obligations.MoveThroughPointer := by
  refine ⟨commonFaults _ _, fun Ra Rb => encodedAs_fieldBytes 0x1C (.movRegPtrReg Ra Rb),
    fun Ra Rb s v hpeek => ?served, fun Ra Rb s v t hread => ?answered, fun Ra Rb s e hrefused => ?refused⟩
  case served =>
    rw [exec_movRegPtrReg]
    exact conclude_loadReg_of_peekWord _ Rb hpeek
  case answered =>
    rw [exec_movRegPtrReg]
    exact conclude_loadReg_of_read _ Rb hread
  case refused =>
    have hopcode : opcodeAddr .movRegPtrReg s = s.reg .ip - 3 := rfl
    rw [exec_movRegPtrReg, conclude_loadReg_of_refused _ Rb hrefused, hopcode]

end Sys2Proof.Machine
end

section
/-! Arithmetic (spec/41_arithmetic.md R140 to R149): the value of each operation as a natural, the one register each
instruction writes, and the shape the statements share. -/

namespace Sys2Proof.Machine

@[simp] theorem toNat_aluAdd (a b : Word) : (aluAdd a b).toNat = (a.toNat + b.toNat) % 65536 := BitVec.toNat_ofNat _ _

@[simp] theorem toNat_aluSub (a b : Word) : (aluSub a b).toNat = (a.toNat + 65536 - b.toNat) % 65536 :=
  BitVec.toNat_ofNat _ _

@[simp] theorem toNat_aluMul (a b : Word) : (aluMul a b).toNat = (a.toNat * b.toNat) % 65536 := BitVec.toNat_ofNat _ _

theorem toNat_aluAdd_one (a : Word) : (aluAdd a 1).toNat = (a.toNat + 1) % 65536 := toNat_aluAdd a 1

/-- Subtracting one is adding 65,535 modulo 2^16. -/
theorem toNat_aluSub_one (a : Word) : (aluSub a 1).toNat = (a.toNat + 65535) % 65536 := by
  have hone : (1 : Word).toNat = 1 := rfl
  rw [toNat_aluSub, hone, Nat.add_sub_assoc (by decide)]

theorem exec_addRegReg (Ra Rb : Reg) (s : State) :
    exec (.addRegReg Ra Rb) s = .next (s.setReg .acc (aluAdd (s.reg Ra) (s.reg Rb))) := rfl

theorem exec_addLitReg (L : Word) (R : Reg) (s : State) :
    exec (.addLitReg L R) s = .next (s.setReg .acc (aluAdd L (s.reg R))) := rfl

theorem exec_mulRegReg (Ra Rb : Reg) (s : State) :
    exec (.mulRegReg Ra Rb) s = .next (s.setReg .acc (aluMul (s.reg Ra) (s.reg Rb))) := rfl

theorem exec_mulLitReg (L : Word) (R : Reg) (s : State) :
    exec (.mulLitReg L R) s = .next (s.setReg .acc (aluMul L (s.reg R))) := rfl

theorem exec_incReg (R : Reg) (s : State) : exec (.incReg R) s = .next (s.setReg R (aluAdd (s.reg R) 1)) := rfl

theorem exec_decReg (R : Reg) (s : State) : exec (.decReg R) s = .next (s.setReg R (aluSub (s.reg R) 1)) := rfl

/-- An instruction that ends by writing one register completes, changes that register alone, and leaves there the value
written. -/
theorem onlyReg_of_exec_setReg {i : Instr} {s : State} {r : Reg} {v : Word} {n : Nat}
    (hexec : exec i s = .next (s.setReg r v)) (hvalue : v.toNat = n) :
    ∃ t v, exec i s = .next t ∧ OnlyReg s t r v ∧ v.toNat = n :=
  ⟨s.setReg r v, v, hexec, onlyReg_setReg s r v, hvalue⟩

/-- Settles O21: both forms write the sum into `acc`; the literal form writes it there and not into `R`. -/
theorem addIntoAccumulator : Obligations.AddIntoAccumulator :=
  ⟨commonFaults _ _, commonFaults _ _,
    fun Ra Rb => encodedAs_fieldBytes 0x14 (.addRegReg Ra Rb),
    fun L R => encodedAs_fieldBytes 0x3F (.addLitReg L R),
    fun Ra Rb s => onlyReg_of_exec_setReg (exec_addRegReg Ra Rb s) (toNat_aluAdd _ _),
    fun L R s => onlyReg_of_exec_setReg (exec_addLitReg L R s) (toNat_aluAdd _ _)⟩

/-- Settles O23: both forms write the low 16 bits of the product into `acc`. -/
theorem multiplyIntoAccumulator : Obligations.MultiplyIntoAccumulator :=
  ⟨commonFaults _ _, commonFaults _ _,
    fun Ra Rb => encodedAs_fieldBytes 0x21 (.mulRegReg Ra Rb),
    fun L R => encodedAs_fieldBytes 0x20 (.mulLitReg L R),
    fun Ra Rb s => onlyReg_of_exec_setReg (exec_mulRegReg Ra Rb s) (toNat_aluMul _ _),
    fun L R s => onlyReg_of_exec_setReg (exec_mulLitReg L R s) (toNat_aluMul _ _)⟩

/-- Settles O24: both write the register they read, `ip`, `sp` and `fp` like any other. -/
theorem incrementAndDecrementInPlace : Obligations.IncrementAndDecrementInPlace :=
  ⟨commonFaults _ _, commonFaults _ _,
    fun R => encodedAs_fieldBytes 0x35 (.incReg R),
    fun R => encodedAs_fieldBytes 0x36 (.decReg R),
    fun R s => onlyReg_of_exec_setReg (exec_incReg R s) (toNat_aluAdd_one _),
    fun R s => onlyReg_of_exec_setReg (exec_decReg R s) (toNat_aluSub_one _)⟩

end Sys2Proof.Machine
end

section
/-! Bitwise logic (spec/42_bitwise.md R165 to R171): each bit of each operation, the one register each instruction
writes, and the shape the statements share. -/

namespace Sys2Proof.Machine

@[simp] theorem getLsbD_aluAnd (a b : Word) (k : Nat) : (aluAnd a b).getLsbD k = (a.getLsbD k && b.getLsbD k) :=
  BitVec.getLsbD_and

@[simp] theorem getLsbD_aluOr (a b : Word) (k : Nat) : (aluOr a b).getLsbD k = (a.getLsbD k || b.getLsbD k) :=
  BitVec.getLsbD_or

@[simp] theorem getLsbD_aluXor (a b : Word) (k : Nat) : (aluXor a b).getLsbD k = (a.getLsbD k ^^ b.getLsbD k) :=
  BitVec.getLsbD_xor

/-- The bound is needed: a bit past the width reads false in a word and in its complement. -/
theorem getLsbD_aluNot (a : Word) {k : Nat} (hk : k < 16) : (aluNot a).getLsbD k = !a.getLsbD k := by
  rw [aluNot, BitVec.getLsbD_not, decide_eq_true hk, Bool.true_and]

theorem exec_andRegReg (Ra Rb : Reg) (s : State) :
    exec (.andRegReg Ra Rb) s = .next (s.setReg Ra (aluAnd (s.reg Ra) (s.reg Rb))) := rfl

theorem exec_orRegReg (Ra Rb : Reg) (s : State) :
    exec (.orRegReg Ra Rb) s = .next (s.setReg Ra (aluOr (s.reg Ra) (s.reg Rb))) := rfl

theorem exec_xorRegReg (Ra Rb : Reg) (s : State) :
    exec (.xorRegReg Ra Rb) s = .next (s.setReg Ra (aluXor (s.reg Ra) (s.reg Rb))) := rfl

theorem exec_andLitReg (L : Word) (R : Reg) (s : State) :
    exec (.andLitReg L R) s = .next (s.setReg .acc (aluAnd (s.reg R) L)) := rfl

theorem exec_orLitReg (L : Word) (R : Reg) (s : State) :
    exec (.orLitReg L R) s = .next (s.setReg .acc (aluOr (s.reg R) L)) := rfl

theorem exec_xorLitReg (L : Word) (R : Reg) (s : State) :
    exec (.xorLitReg L R) s = .next (s.setReg .acc (aluXor (s.reg R) L)) := rfl

theorem exec_notReg (R : Reg) (s : State) : exec (.notReg R) s = .next (s.setReg .acc (aluNot (s.reg R))) := rfl

/-- An instruction that ends by writing one register completes, changes that register alone, and leaves there the bits
of the value written. -/
theorem onlyReg_bits_of_exec_setReg {i : Instr} {s : State} {r : Reg} {v : Word} {bit : Nat → Bool}
    (hexec : exec i s = .next (s.setReg r v)) (hbits : ∀ k < 16, v.getLsbD k = bit k) :
    ∃ t v, exec i s = .next t ∧ OnlyReg s t r v ∧ ∀ k < 16, v.getLsbD k = bit k :=
  ⟨s.setReg r v, v, hexec, onlyReg_setReg s r v, hbits⟩

/-- Settles O26: the register forms write their result over the first source; `acc` is written only where it is `Ra`. -/
theorem logicInPlace : Obligations.LogicInPlace :=
  ⟨commonFaults _ _, commonFaults _ _, commonFaults _ _,
    fun Ra Rb => encodedAs_fieldBytes 0x2F (.andRegReg Ra Rb),
    fun Ra Rb => encodedAs_fieldBytes 0x31 (.orRegReg Ra Rb),
    fun Ra Rb => encodedAs_fieldBytes 0x33 (.xorRegReg Ra Rb),
    fun Ra Rb s => onlyReg_bits_of_exec_setReg (exec_andRegReg Ra Rb s) fun k _ => getLsbD_aluAnd _ _ k,
    fun Ra Rb s => onlyReg_bits_of_exec_setReg (exec_orRegReg Ra Rb s) fun k _ => getLsbD_aluOr _ _ k,
    fun Ra Rb s => onlyReg_bits_of_exec_setReg (exec_xorRegReg Ra Rb s) fun k _ => getLsbD_aluXor _ _ k⟩

/-- Settles O27: the literal forms write their result to `acc`; `R` is written only where it is `acc`. -/
theorem logicWithLiteralIntoAccumulator : Obligations.LogicWithLiteralIntoAccumulator :=
  ⟨commonFaults _ _, commonFaults _ _, commonFaults _ _,
    fun L R => encodedAs_fieldBytes 0x2E (.andLitReg L R),
    fun L R => encodedAs_fieldBytes 0x30 (.orLitReg L R),
    fun L R => encodedAs_fieldBytes 0x32 (.xorLitReg L R),
    fun L R s => onlyReg_bits_of_exec_setReg (exec_andLitReg L R s) fun k _ => getLsbD_aluAnd _ _ k,
    fun L R s => onlyReg_bits_of_exec_setReg (exec_orLitReg L R s) fun k _ => getLsbD_aluOr _ _ k,
    fun L R s => onlyReg_bits_of_exec_setReg (exec_xorLitReg L R s) fun k _ => getLsbD_aluXor _ _ k⟩

/-- Settles O28: `not` writes `acc`, within whose 16 bits the complement negates every bit. -/
theorem complementIntoAccumulator : Obligations.ComplementIntoAccumulator :=
  ⟨commonFaults _ _,
    fun R => encodedAs_fieldBytes 0x34 (.notReg R),
    fun R s => onlyReg_bits_of_exec_setReg (exec_notReg R s) fun _ hk => getLsbD_aluNot _ hk⟩

end Sys2Proof.Machine
end

section
/-! Conditional jumps (spec/43_branch.md R180 to R184): a layout without register bytes passes the register check, a
jump is one write of `ip`, and the two conditions on equality choose the value written. -/

namespace Sys2Proof

/-- Reading literal and address fields alone leaves both register bytes as they were. -/
theorem registerBytes_of_readFields {σ ε : Type} {rd8 : σ → Except ε (Byte × σ)} {rd16 : σ → Except ε (Word × σ)}
    {ks : List FieldKind} {f g : Fields} {s t : σ} (hra : .ra ∉ ks) (hrb : .rb ∉ ks)
    (h : readFields rd8 rd16 ks f s = .ok (g, t)) : g.ra = f.ra ∧ g.rb = f.rb := by
  induction ks generalizing f s with
  | nil => cases h; exact ⟨rfl, rfl⟩
  | cons k ks ih =>
    cases k with
    | lit | addr =>
      rw [readFields] at h
      split at h
      · cases h
      · exact (ih (List.not_mem_of_not_mem_cons hra) (List.not_mem_of_not_mem_cons hrb) h :)
    | ra => exact absurd List.mem_cons_self hra
    | rb => exact absurd List.mem_cons_self hrb

end Sys2Proof

namespace Sys2Proof.Machine

/-- Register bytes that are never fetched stay 0, which names a register. -/
theorem noRegisterByte {o : Op} (hra : .ra ∉ o.format.layout) (hrb : .rb ∉ o.format.layout) : NoRegisterByte o := by
  intro s₁ s₂ f hfields
  obtain ⟨ha, hb⟩ := registerBytes_of_readFields hra hrb hfields
  rw [fieldRegs, ha, hb]
  rfl

theorem ite_condEq (v a x y : Word) : (if condEq v a then x else y) = if v = a then x else y := by
  simp only [condEq, decide_eq_true_eq, BitVec.toNat_inj]

theorem ite_condNe (v a x y : Word) : (if condNe v a then x else y) = if v = a then y else x := by
  simp only [condNe, decide_eq_true_eq, ne_eq, BitVec.toNat_inj, ite_not]

theorem exec_jeqReg (R : Reg) (A : Word) (s : State) :
    exec (.jeqReg R A) s = .next (jumpIf (condEq (s.reg R) (s.reg .acc)) A s) := rfl

theorem exec_jeqLit (L A : Word) (s : State) :
    exec (.jeqLit L A) s = .next (jumpIf (condEq L (s.reg .acc)) A s) := rfl

theorem exec_jneReg (R : Reg) (A : Word) (s : State) :
    exec (.jneReg R A) s = .next (jumpIf (condNe (s.reg R) (s.reg .acc)) A s) := rfl

theorem exec_jneLit (L A : Word) (s : State) :
    exec (.jneLit L A) s = .next (jumpIf (condNe L (s.reg .acc)) A s) := rfl

/-- A jump completes and changes `ip` alone; a jump not taken writes back the `ip` it found. -/
theorem onlyReg_of_exec_jumpIf {i : Instr} {c : Bool} {A v : Word} {s : State}
    (hexec : exec i s = .next (jumpIf c A s)) (htarget : (if c then A else s.reg .ip) = v) :
    ∃ t, exec i s = .next t ∧ OnlyReg s t .ip v := by
  refine ⟨_, hexec, ?_⟩
  rw [jumpIf_eq, htarget]
  exact onlyReg_setReg s .ip v

/-- Settles O29: all four are `jump_if` on equality with `acc` or on its negation; the literal forms fetch no register
byte. -/
theorem jumpsOnEquality : Obligations.JumpsOnEquality :=
  ⟨commonFaults _ _, fetchFaults _ _, noRegisterByte (by decide) (by decide), commonFaults _ _,
    fetchFaults _ _, noRegisterByte (by decide) (by decide),
    fun R A => encodedAs_fieldBytes 0x3E (.jeqReg R A),
    fun L A => encodedAs_fieldBytes 0x41 (.jeqLit L A),
    fun R A => encodedAs_fieldBytes 0x40 (.jneReg R A),
    fun L A => encodedAs_fieldBytes 0x15 (.jneLit L A),
    fun R A s => onlyReg_of_exec_jumpIf (exec_jeqReg R A s) (ite_condEq _ _ _ _),
    fun L A s => onlyReg_of_exec_jumpIf (exec_jeqLit L A s) (ite_condEq _ _ _ _),
    fun R A s => onlyReg_of_exec_jumpIf (exec_jneReg R A s) (ite_condNe _ _ _ _),
    fun L A s => onlyReg_of_exec_jumpIf (exec_jneLit L A s) (ite_condNe _ _ _ _)⟩

end Sys2Proof.Machine
end

section
/-! The outcomes of a step and of a bounded run (spec/70_reset_and_hazards.md R271): `hlt` alone changes the status, no
instruction is refused, and `run` has one equation for each status and outcome. -/

namespace Sys2Proof.Machine

/-! ### What an instruction does to the status -/

theorem status_of_memWrite {w : Width} {A v : Word} {s t : State} (h : memWrite w A v s = .ok t) :
    t.status = s.status := by
  obtain ⟨ds, n, rfl, -, -⟩ := memWrite_ok h
  rfl

theorem status_of_push {v : Word} {s t : State} (h : push v s = .ok t) : t.status = s.status := by
  obtain ⟨-, -, -, hstatus⟩ := push_frame h
  exact hstatus

theorem status_of_popReg {r : Reg} {s t : State} (h : popReg r s = .ok t) : t.status = s.status := by
  obtain ⟨v, u, hpop, rfl⟩ := popReg_ok h
  obtain ⟨-, -, -, hstatus, -⟩ := pop_frame hpop
  exact hstatus

theorem status_of_callTo {A : Word} {s t : State} (h : callTo A s = .ok t) : t.status = s.status := by
  obtain ⟨u, hpush, rfl⟩ := callTo_ok h
  obtain ⟨-, -, -, -, -, hstatus⟩ := pushState_frame hpush
  exact hstatus

theorem status_of_popState {s t : State} (h : popState s = .ok t) : t.status = s.status := by
  obtain ⟨-, -, -, -, -, -, -, hstatus, -⟩ := popState_frame h
  exact hstatus

theorem status_of_returnFromInterrupt {s t : State} (h : returnFromInterrupt s = .ok t) : t.status = s.status :=
  status_of_popState (s := s.setInHandler false) h

theorem status_of_takeInterrupt {n : Nat} {s t : State} (h : takeInterrupt n s = .ok t) : t.status = s.status := by
  obtain ⟨-, -, hstatus, -⟩ := takeInterrupt_frame h
  exact hstatus

/-- Only `hlt` changes the status (spec/10_state.md R34). -/
theorem status_of_exec_next {i : Instr} {s t : State} (h : exec i s = .next t) :
    t.status = if i = .hlt then .halted else s.status := by
  cases exec_next h with
  | register _ R v n _ _ _ _ hne ht => rw [if_neg hne, ht]; rfl
  | jump _ v hip _ _ ht =>
    have hne : i ≠ .hlt := by rintro rfl; cases hip
    rw [if_neg hne, ht]; rfl
  | store _ A v hcan _ _ ht =>
    have hne : i ≠ .hlt := by rintro rfl; cases hcan
    rw [if_neg hne, status_of_memWrite ht]
  | push _ v hi ht =>
    have hne : i ≠ .hlt := by rintro rfl; rcases hi with ⟨_, ⟨⟩⟩ | ⟨_, ⟨⟩⟩
    rw [if_neg hne, status_of_push ht]
  | call _ A hi ht =>
    have hne : i ≠ .hlt := by rintro rfl; rcases hi with ⟨_, ⟨⟩⟩ | ⟨_, ⟨⟩⟩
    rw [if_neg hne, status_of_callTo ht]
  | pop R ht => exact status_of_popReg ht
  | ret ht => exact status_of_popState ht
  | rti ht => exact status_of_returnFromInterrupt ht
  | halt ht => rw [ht]; rfl
  | masked L _ ht => rw [ht]; rfl
  | interrupt L _ ht => exact status_of_takeInterrupt ht

/-! ### No instruction is refused -/

theorem conclude_ne_refused (o : Op) (s : State) (x : Except MemError State) (r : Refusal) :
    conclude o s x ≠ .refused r := by
  cases x <;> exact nofun

/-- Every instruction has a meaning: it ends in a state of its own or as its memory accesses end, and an interrupt as
its mask bit says. -/
theorem exec_ne_refused (i : Instr) (s : State) (r : Refusal) : exec i s ≠ .refused r := by
  cases i with
  | movLitReg | movRegReg | addRegReg | addLitReg | subRegReg | subLitReg | mulRegReg | mulLitReg | incReg | decReg
  | lsfRegReg | lsfLitReg | rsfRegReg | rsfLitReg | andRegReg | andLitReg | orRegReg | orLitReg | xorRegReg | xorLitReg
  | notReg | jeqReg | jeqLit | jneReg | jneLit | jltReg | jltLit | jgtReg | jgtLit | jleReg | jleLit | jgeReg | jgeLit
  | hlt => exact nofun
  | movRegMem | movMemReg | movLitMem | movRegPtrReg | movLitOffReg | pshLit | pshReg | popReg | calLit | calReg | ret
  | rti => exact conclude_ne_refused _ _ _ _
  | intLit L =>
    simp only [exec, execIntLit]
    split
    · exact nofun
    · exact conclude_ne_refused _ _ _ _

/-! ### The equations of a step and of a run -/

theorem step_of_fetchInstr_ok {s u : State} {i : Instr} (hrun : s.status = .running)
    (h : fetchInstr s = .ok (i, u)) : step s = exec i u := by
  simp only [step, hrun, h]

theorem status_of_fetchInstr {s u : State} {i : Instr} (h : fetchInstr s = .ok (i, u)) : u.status = s.status := by
  obtain ⟨n, rfl⟩ := fetchInstr_ok h
  rfl

theorem step_refused_of_not_running {s : State} (h : s.status ≠ .running) : ∃ r, step s = .refused r := by
  unfold step
  cases hs : s.status with
  | running => exact absurd hs h
  | halted => exact ⟨_, rfl⟩
  | faulted f => exact ⟨_, rfl⟩

/-- The three outcomes of a step: the status tells Continue from Halted, and the fetched instruction decides the
status. -/
theorem step_outcome {s : State} (hrun : s.status = .running) :
    (∃ t, step s = .next t ∧ t.status = .running ∧ ∀ u, fetchInstr s ≠ .ok (.hlt, u)) ∨
      (∃ t, step s = .next t ∧ t.status = .halted ∧ ∃ u, fetchInstr s = .ok (.hlt, u)) ∨
      ∃ f, step s = .fault f := by
  cases hfetch : fetchInstr s with
  | error f => exact .inr (.inr ⟨f, step_of_fetchInstr_error hrun hfetch⟩)
  | ok fetched =>
    obtain ⟨i, u⟩ := fetched
    rw [step_of_fetchInstr_ok hrun hfetch]
    cases hexec : exec i u with
    | refused r => exact absurd hexec (exec_ne_refused i u r)
    | fault f => exact .inr (.inr ⟨f, rfl⟩)
    | next t =>
      have hstatus := status_of_exec_next hexec
      rw [status_of_fetchInstr hfetch, hrun] at hstatus
      by_cases hhlt : i = .hlt
      · subst hhlt
        exact .inr (.inl ⟨t, rfl, hstatus, u, rfl⟩)
      · rw [if_neg hhlt] at hstatus
        exact .inl ⟨t, rfl, hstatus, fun _ h => hhlt (congrArg Prod.fst (Except.ok.inj h))⟩

theorem run_of_halted (k : Nat) {s : State} (h : s.status = .halted) : run k s = .halted s := by
  rw [run.eq_def]
  simp only [h]

theorem run_of_faulted (k : Nat) {s : State} {f : Fault} (h : s.status = .faulted f) : run k s = .faulted f := by
  rw [run.eq_def]
  simp only [h]

theorem run_succ_of_next (k : Nat) {s t : State} (hrun : s.status = .running) (h : step s = .next t) :
    run (k + 1) s = run k t := by
  rw [run]
  simp only [hrun, h]

theorem run_succ_of_fault (k : Nat) {s : State} {f : Fault} (hrun : s.status = .running) (h : step s = .fault f) :
    run (k + 1) s = .faulted f := by
  rw [run]
  simp only [hrun, h]

/-- Settles O14: the fetched instruction decides between Continue and Halted, only a state that is not running refuses
its step, and a run is its equations. -/
theorem stepEndsInOneOfThreeOutcomes : Obligations.StepEndsInOneOfThreeOutcomes := by
  refine ⟨fun s hrun => ?outcome, fun s => step_refused_of_not_running, fun k s t => run_succ_of_next k,
    fun k s f => run_succ_of_fault k, fun k s => run_of_halted k, fun k s f => run_of_faulted k⟩
  case outcome =>
    rcases step_outcome hrun with hcontinue | hhalted | ⟨f, hfault⟩
    · exact .inl hcontinue
    · exact .inr (.inl hhalted)
    · exact .inr (.inr ⟨f, hfault, by rw [hfault]; rfl⟩)

end Sys2Proof.Machine
end

section
/-! The encoding both ways (spec/30_encoding.md R90, R91, R96, R99): the opcode map read forwards and backwards, the
registers and their bytes, and the fields of a layout and their bytes. -/

namespace Sys2Proof

/-! ### The opcode map -/

theorem opOfByte_eq_some_iff {t : Opcodes} (ht : (t.map Prod.fst).Nodup) (b : Byte) (o : Op) :
    opOfByte t b = some o ↔ (b, o) ∈ t := by
  induction t with
  | nil => simp [opOfByte]
  | cons row t ih =>
    obtain ⟨c, p⟩ := row
    rw [List.map_cons, List.nodup_cons] at ht
    by_cases hb : b = c
    · subst hb
      have hout : (b, o) ∉ t := fun hm => ht.1 (List.mem_map.mpr ⟨_, hm, rfl⟩)
      simp [opOfByte, hout, eq_comm]
    · simp [opOfByte, hb, ih ht.2]

theorem byteOfOp_eq_some_iff {t : Opcodes} (ht : (t.map Prod.snd).Nodup) (b : Byte) (o : Op) :
    byteOfOp t o = some b ↔ (b, o) ∈ t := by
  induction t with
  | nil => simp [byteOfOp]
  | cons row t ih =>
    obtain ⟨c, p⟩ := row
    rw [List.map_cons, List.nodup_cons] at ht
    by_cases ho : o = p
    · subst ho
      have hout : (b, o) ∉ t := fun hm => ht.1 (List.mem_map.mpr ⟨_, hm, rfl⟩)
      simp [byteOfOp, hout, eq_comm]
    · simp [byteOfOp, ho, ih ht.2]

theorem opcodesWf_iff (t : Opcodes) :
    opcodesWf t = true ↔ (t.map Prod.fst).Nodup ∧ (t.map Prod.snd).Nodup := by
  simp [opcodesWf, opcodeBytesDistinct, opcodeOpsDistinct]

/-- A well-formed opcode map reads the same in both directions (R90). -/
theorem byteOfOp_iff_opOfByte {t : Opcodes} (ht : opcodesWf t = true) (b : Byte) (o : Op) :
    byteOfOp t o = some b ↔ opOfByte t b = some o := by
  obtain ⟨hbytes, hops⟩ := (opcodesWf_iff t).mp ht
  rw [byteOfOp_eq_some_iff hops, opOfByte_eq_some_iff hbytes]

theorem exists_byteOfOp {t : Opcodes} {i : Instr} (ht : opcodesWf t = true) (hi : instrWf t i = true) :
    ∃ b, byteOfOp t i.op = some b := by
  obtain ⟨-, hops⟩ := (opcodesWf_iff t).mp ht
  obtain ⟨⟨b, o⟩, hmem, ho⟩ := List.mem_map.mp (of_decide_eq_true hi)
  exact ⟨b, (byteOfOp_eq_some_iff hops b i.op).mpr (ho ▸ hmem)⟩

/-! ### Register bytes -/

@[simp] theorem Reg.ofByte_byte (r : Reg) : Reg.ofByte r.byte = some r := by cases r <;> rfl

theorem Reg.byte_of_ofByte {b : Byte} {r : Reg} (h : Reg.ofByte b = some r) : b = r.byte := by
  unfold Reg.ofByte at h
  split at h <;> cases h <;> exact BitVec.eq_of_toNat_eq ‹_›

theorem Reg.toNat_byte_lt (r : Reg) : r.byte.toNat < 14 := by cases r <;> decide

/-- A byte names no register exactly from 14 on (R96). -/
theorem Reg.ofByte_eq_none_iff (b : Byte) : Reg.ofByte b = none ↔ 14 ≤ b.toNat := by
  constructor
  · intro hnone
    have hnamed : ∀ n < 14, Reg.ofByte (BitVec.ofNat 8 n) ≠ none := by decide
    refine Nat.le_of_not_lt fun hlt => hnamed b.toNat hlt ?_
    rwa [BitVec.ofNat_toNat, BitVec.setWidth_eq]
  · intro hge
    cases hb : Reg.ofByte b with
    | none => rfl
    | some r => exact absurd (Reg.byte_of_ofByte hb ▸ hge) (Nat.not_le.mpr r.toNat_byte_lt)

@[simp] theorem fieldRegs_bytes (L A : Word) (ra rb : Reg) : fieldRegs ⟨L, A, ra.byte, rb.byte⟩ = .ok (ra, rb) := by
  simp [fieldRegs]

theorem fieldRegs_ok {f : Fields} {ra rb : Reg} (h : fieldRegs f = .ok (ra, rb)) :
    f.ra = ra.byte ∧ f.rb = rb.byte := by
  unfold fieldRegs at h
  split at h
  · cases h
  · rename_i ha
    split at h
    · cases h
    · rename_i hb; cases h; exact ⟨Reg.byte_of_ofByte ha, Reg.byte_of_ofByte hb⟩

/-- Settles O9: the check stops at the first of the two bytes that names no register. -/
theorem firstBadRegisterByteIsReported : Obligations.FirstBadRegisterByteIsReported := by
  intro f x
  cases ha : Reg.ofByte f.ra with
  | none =>
    have h14 := (Reg.ofByte_eq_none_iff f.ra).mp ha
    simp only [fieldRegs, ha, Except.error.injEq]
    constructor
    · intro h; exact .inl ⟨h14, h.symm⟩
    · rintro (⟨-, rfl⟩ | ⟨hlt, -, -⟩)
      · rfl
      · omega
  | some ra =>
    have hlt : f.ra.toNat < 14 := by
      rw [← Nat.not_le, ← Reg.ofByte_eq_none_iff, ha]; exact nofun
    cases hb : Reg.ofByte f.rb with
    | none =>
      have h14 := (Reg.ofByte_eq_none_iff f.rb).mp hb
      simp only [fieldRegs, ha, hb, Except.error.injEq]
      constructor
      · intro h; exact .inr ⟨hlt, h14, h.symm⟩
      · rintro (⟨hge, -⟩ | ⟨-, -, rfl⟩)
        · omega
        · rfl
    | some rb =>
      have hlt' : f.rb.toNat < 14 := by
        rw [← Nat.not_le, ← Reg.ofByte_eq_none_iff, hb]; exact nofun
      simp only [fieldRegs, ha, hb, reduceCtorEq, false_iff]
      omega

/-! ### The fields of a layout -/

/-- `f` with one field taken from `g`. -/
def takeField (g : Fields) (f : Fields) : FieldKind → Fields
  | .lit => { f with lit := g.lit }
  | .addr => { f with addr := g.addr }
  | .ra => { f with ra := g.ra }
  | .rb => { f with rb := g.rb }

@[simp] theorem takeByte_cons (b : Byte) (bs : List Byte) : takeByte (b :: bs) = .ok (b, bs) := rfl

@[simp] theorem takeWord_bytes (v : Word) (bs : List Byte) : takeWord (hiByte v :: loByte v :: bs) = .ok (v, bs) := by
  rw [takeWord, Machine.bigEndian_bytes]

/-- Reading the bytes of a layout's fields gives those fields and the bytes that follow. -/
theorem readFields_fieldBytes (g : Fields) (ks : List FieldKind) (f : Fields) (rest : List Byte) :
    readFields takeByte takeWord ks f ((ks.map (fieldBytes g)).flatten ++ rest) =
      .ok (ks.foldl (takeField g) f, rest) := by
  induction ks generalizing f with
  | nil => rfl
  | cons k ks ih =>
    cases k <;>
      simp only [List.map_cons, List.flatten_cons, fieldBytes, List.cons_append, List.nil_append, readFields,
        takeByte_cons, takeWord_bytes, ih, List.foldl_cons, takeField]

/-- The fields an instruction leaves out of its layout are 0. -/
theorem takeField_instrFields (i : Instr) :
    i.op.format.layout.foldl (takeField (instrFields i)) noFields = instrFields i := by cases i <;> rfl

/-- The fields of an instruction pass the register check and give the instruction back. -/
theorem instrOf_instrFields (i : Instr) :
    ∃ ra rb, fieldRegs (instrFields i) = .ok (ra, rb) ∧
      instrOf i.op (instrFields i).lit (instrFields i).addr ra rb = i := by
  cases i with
  | movRegReg Ra Rb | movRegPtrReg Ra Rb | movLitOffReg _ Ra Rb | addRegReg Ra Rb | subRegReg Ra Rb | mulRegReg Ra Rb
  | lsfRegReg Ra Rb | rsfRegReg Ra Rb | andRegReg Ra Rb | orRegReg Ra Rb | xorRegReg Ra Rb =>
    exact ⟨Ra, Rb, fieldRegs_bytes _ _ Ra Rb, rfl⟩
  | movLitReg _ R | movRegMem R _ | movMemReg _ R | addLitReg _ R | subLitReg _ R | mulLitReg _ R | incReg R | decReg R
  | lsfLitReg _ R | rsfLitReg _ R | andLitReg _ R | orLitReg _ R | xorLitReg _ R | notReg R | jeqReg R _ | jneReg R _
  | jltReg R _ | jgtReg R _ | jleReg R _ | jgeReg R _ | pshReg R | popReg R | calReg R =>
    exact ⟨R, .ip, fieldRegs_bytes _ _ R .ip, rfl⟩
  | movLitMem | jeqLit | jneLit | jltLit | jgtLit | jleLit | jgeLit | pshLit | calLit | ret | hlt | intLit | rti =>
    exact ⟨.ip, .ip, rfl, rfl⟩

theorem encode_of_byteOfOp {t : Opcodes} {i : Instr} {b : Byte} (h : byteOfOp t i.op = some b) :
    encode t i = some (b :: (i.op.format.layout.map (fieldBytes (instrFields i))).flatten) := by
  rw [encode, h]

/-- Settles O4: the opcode byte selects the descriptor back, its layout reads the fields back, and the fields are the
instruction. -/
theorem decodeOfEncodeIsTheInstruction : Obligations.DecodeOfEncodeIsTheInstruction := by
  intro t i ht hi
  obtain ⟨b, hb⟩ := exists_byteOfOp ht hi
  refine ⟨_, encode_of_byteOfOp hb, fun rest => ?_⟩
  obtain ⟨ra, rb, hregs, hinstr⟩ := instrOf_instrFields i
  simp only [List.cons_append, decode, (byteOfOp_iff_opOfByte ht b i.op).mp hb, readFields_fieldBytes,
    takeField_instrFields, hregs, hinstr]

/-! ### The bytes of a completed read -/

theorem takeByte_ok {b : Byte} {bs rest : List Byte} (h : takeByte bs = .ok (b, rest)) : bs = b :: rest := by
  cases bs with
  | nil => cases h
  | cons _ _ => cases h; rfl

theorem hiByte_bigEndian (h l : Byte) : hiByte (bigEndian h l) = h := by
  rw [hiByte, bigEndian, BitVec.extractLsb'_append_eq_left]

theorem loByte_bigEndian (h l : Byte) : loByte (bigEndian h l) = l := by
  rw [loByte, bigEndian, BitVec.extractLsb'_append_eq_right]

theorem takeWord_ok {v : Word} {bs rest : List Byte} (h : takeWord bs = .ok (v, rest)) :
    bs = hiByte v :: loByte v :: rest := by
  match bs, h with
  | _ :: _ :: _, h => cases h; rw [hiByte_bigEndian, loByte_bigEndian]

/-- One step of a completed read: the bytes of the field it sets come first, and it leaves the other fields. -/
theorem readFields_cons_bytes {k : FieldKind} {ks : List FieldKind} {f g : Fields} {bs rest : List Byte}
    (h : readFields takeByte takeWord (k :: ks) f bs = .ok (g, rest)) :
    ∃ f' bs', bs = fieldBytes f' k ++ bs' ∧ (∀ k' ≠ k, fieldBytes f' k' = fieldBytes f k') ∧
      readFields takeByte takeWord ks f' bs' = .ok (g, rest) := by
  cases k with
  | lit | addr =>
    rw [readFields] at h
    split at h
    · cases h
    · rename_i hword
      refine ⟨_, _, takeWord_ok hword, fun k' hne => ?_, h⟩
      cases k' <;> simp [fieldBytes] at hne ⊢
  | ra | rb =>
    rw [readFields] at h
    split at h
    · cases h
    · rename_i hbyte
      refine ⟨_, _, takeByte_ok hbyte, fun k' hne => ?_, h⟩
      cases k' <;> simp [fieldBytes] at hne ⊢

/-- Reading a layout leaves the fields outside it as they were. -/
theorem fieldBytes_of_readFields {ks : List FieldKind} {f g : Fields} {bs rest : List Byte} {k : FieldKind}
    (hk : k ∉ ks) (h : readFields takeByte takeWord ks f bs = .ok (g, rest)) : fieldBytes g k = fieldBytes f k := by
  induction ks generalizing f bs with
  | nil => cases h; rfl
  | cons k' ks ih =>
    rw [List.mem_cons, not_or] at hk
    obtain ⟨f', bs', -, hother, hrest⟩ := readFields_cons_bytes h
    rw [ih hk.2 hrest, hother k hk.1]

/-- The bytes a completed read consumed are those of the fields it answers, if no field stands twice. -/
theorem bytes_of_readFields {ks : List FieldKind} (hks : ks.Nodup) {f g : Fields} {bs rest : List Byte}
    (h : readFields takeByte takeWord ks f bs = .ok (g, rest)) :
    bs = (ks.map (fieldBytes g)).flatten ++ rest := by
  induction ks generalizing f bs with
  | nil => cases h; rfl
  | cons k ks ih =>
    rw [List.nodup_cons] at hks
    obtain ⟨f', bs', rfl, -, hrest⟩ := readFields_cons_bytes h
    rw [List.map_cons, List.flatten_cons, List.append_assoc, ← ih hks.2 hrest, fieldBytes_of_readFields hks.1 hrest]

theorem nodup_layout (f : Format) : f.layout.Nodup := by cases f <;> decide

/-- The fields of a descriptor's instruction are, within its layout, those it was made of. -/
theorem fieldBytes_instrOf (o : Op) (L A : Word) (ra rb : Reg) :
    o.format.layout.map (fieldBytes (instrFields (instrOf o L A ra rb))) =
      o.format.layout.map (fieldBytes ⟨L, A, ra.byte, rb.byte⟩) := by cases o <;> rfl

/-- Settles O5: the first byte is the opcode byte of the descriptor it selects, and the bytes read are those of its
fields. -/
theorem encodeOfDecodeIsTheBytes : Obligations.EncodeOfDecodeIsTheBytes := by
  intro t bs i rest ht h
  cases bs with
  | nil => cases h
  | cons op bs =>
    obtain ⟨o, f, ra, rb, ho, hf, hregs, rfl⟩ := decode_cons_ok h
    have hop : byteOfOp t (instrOf o f.lit f.addr ra rb).op = some op := by
      rwa [Machine.op_instrOf, byteOfOp_iff_opOfByte ht]
    have hfields : f = ⟨f.lit, f.addr, ra.byte, rb.byte⟩ := by
      obtain ⟨hra, hrb⟩ := fieldRegs_ok hregs
      rw [← hra, ← hrb]
    refine ⟨_, encode_of_byteOfOp hop, ?_⟩
    rw [Machine.op_instrOf, fieldBytes_instrOf, ← hfields, List.cons_append,
      ← bytes_of_readFields (nodup_layout _) hf]

/-- Settles O7: the eight words of the default map. -/
theorem spelledWordsDecode : Obligations.SpelledWordsDecode := by
  refine ⟨?_, ?_, ?_, ?_, ?_, ?_, ?_, ?_⟩ <;> rfl

end Sys2Proof
end

section
/-! The fetch and the step (spec/70_reset_and_hazards.md R271 to R273): code that is served is decoded and run, and what
ends a step records the address of its opcode (spec/60_exceptions.md R241). -/

namespace Sys2Proof.Machine

/-! ### Opcode bytes that select nothing -/

/-- Settles O8: the ranges are checked byte by byte; the step ends at the failed selection under any map. -/
theorem unrecognizedOpcodeFaults : Obligations.UnrecognizedOpcodeFaults := by
  refine ⟨by decide, fun s s₁ b hrun hbyte hnone => ?_⟩
  apply step_of_fetchInstr_error hrun
  simp only [fetchInstr, hbyte, hnone]

/-- Settles O10: both faults are those of the fetch for any opcode byte and any descriptor. -/
theorem everyInstructionSharesItsFetchFaults : Obligations.EveryInstructionSharesItsFetchFaults := commonFaults

theorem route_eq_none_of_findRegion {s : State} {A : Word} (h : findRegion s.params.regions A = none) :
    route s A = none := by
  simp only [route, h]

/-- Settles O13: the 1-byte read at `ip` is refused, so the fetch ends with its error. -/
theorem unmappedOpcodeFetchFaults : Obligations.UnmappedOpcodeFetchFaults := by
  intro s hrun hregion
  have hread : memRead .byte (s.reg .ip) s = .error ⟨s.reg .ip, .byte, .read⟩ := by
    simp only [memRead, route_eq_none_of_findRegion hregion]
  have hfetch : fetch8 s = .error ⟨s.reg .ip, .byte, .read⟩ := by simp only [fetch8, hread]
  apply step_of_fetchInstr_error hrun
  simp only [fetchInstr, hfetch, memFault]

/-! ### Code that is served is run -/

@[simp] theorem State.setReg_setReg (s : State) (r : Reg) (v w : Word) :
    (s.setReg r v).setReg r w = s.setReg r w := by cases r <;> rfl

theorem loByte_setWidth (b : Byte) : loByte (b.setWidth 16) = b := by
  have hlt := b.isLt
  apply BitVec.eq_of_toNat_eq
  simp only [loByte, BitVec.extractLsb'_toNat, BitVec.toNat_setWidth, Nat.shiftRight_zero]
  omega

/-- A byte that memory serves at `ip` is fetched, and only `ip` moves. -/
theorem fetch8_of_peek {s : State} {A : Word} {b : Byte} (h : peek s A = some b) :
    fetch8 (s.setReg .ip A) = .ok (b, s.setReg .ip (A + 1)) := by
  have hpeek : peek (s.setReg .ip A) A = some b := by rw [← h]; exact peek_congr rfl rfl rfl A
  simp only [fetch8, State.reg_setReg_same, memRead_byte_of_peek hpeek, State.setReg_setReg, loByte_setWidth]

/-- A word that memory serves at `ip` is fetched, and only `ip` moves. -/
theorem fetch16_of_peekWord {s : State} {A v : Word} (h : peekWord s A = some v) :
    fetch16 (s.setReg .ip A) = .ok (v, s.setReg .ip (A + 2)) := by
  have hpeek : peekWord (s.setReg .ip A) A = some v := by rw [← h]; exact peekWord_congr rfl rfl rfl A
  simp only [fetch16, State.reg_setReg_same, memRead_word_of_peekWord hpeek, State.setReg_setReg]

/-- Where a layout's bytes are served from `A` on, fetching its fields reads what the decoder reads from the bytes. -/
theorem readFields_of_fieldsAt {s : State} {ks : List FieldKind} {f g : Fields} {A : Word} {code rest rest' : List Byte}
    (hcode : FieldsAt s A ks code) (h : readFields takeByte takeWord ks f (code ++ rest) = .ok (g, rest')) :
    readFields fetch8 fetch16 ks f (s.setReg .ip A) =
      .ok (g, s.setReg .ip (A + BitVec.ofNat 16 (ks.map FieldKind.width).sum)) := by
  induction ks generalizing f A code with
  | nil => cases h; simp [readFields]
  | cons k ks ih =>
    rw [List.map_cons, List.sum_cons, BitVec.ofNat_add, ← BitVec.add_assoc]
    cases k with
    | lit | addr =>
      match code, hcode with
      | hi :: lo :: code, ⟨hword, hrest⟩ =>
        simp only [List.cons_append, readFields, takeWord] at h
        simp only [readFields, fetch16_of_peekWord hword]
        exact ih hrest h
    | ra | rb =>
      match code, hcode with
      | b :: code, ⟨hbyte, hrest⟩ =>
        simp only [List.cons_append, readFields, takeByte_cons] at h
        simp only [readFields, fetch8_of_peek hbyte]
        exact ih hrest h

@[simp] theorem State.setReg_reg (s : State) (r : Reg) : s.setReg r (s.reg r) = s := by cases r <;> rfl

/-- Bytes that decode and are served at `ip` are run, whatever follows them (R272, R273). -/
theorem step_of_codeAt {s : State} {i : Instr} {code rest rest' : List Byte} (hrun : s.status = .running)
    (hdecode : decode s.params.opcodes (code ++ rest) = .ok (i, rest')) (hcode : CodeAt s i.op code) :
    step s = exec i (s.setReg .ip (s.reg .ip + BitVec.ofNat 16 i.op.size)) := by
  match code, hcode with
  | op :: code, ⟨hop, hfields⟩ =>
    obtain ⟨o, f, ra, rb, ho, hf, hregs, rfl⟩ := decode_cons_ok hdecode
    rw [op_instrOf] at hfields ⊢
    have hbyte := fetch8_of_peek hop
    rw [State.setReg_reg] at hbyte
    apply step_of_fetchInstr_ok hrun
    simp only [fetchInstr, hbyte, ho, readFields_of_fieldsAt hfields hf, hregs, Op.size, Format.size,
      BitVec.ofNat_add, ← BitVec.add_assoc]
    rfl

/-- Settles O11: the case in which nothing follows the instruction's bytes. -/
theorem stepRunsTheDecodedInstruction : Obligations.StepRunsTheDecodedInstruction := by
  intro s i bs hrun hdecode hcode
  rw [← List.append_nil bs] at hdecode
  exact step_of_codeAt hrun hdecode hcode

theorem word_add_ofNat (A : Word) (m k : Nat) :
    A + BitVec.ofNat 16 m + BitVec.ofNat 16 k = A + BitVec.ofNat 16 (k + m) := by
  rw [BitVec.ofNat_add, BitVec.add_assoc, BitVec.add_comm (BitVec.ofNat 16 m)]

/-- The bytes `code` are in memory from `A` on, modulo 2^16. -/
def BytesAt (s : State) (A : Word) (code : List Byte) : Prop :=
  ∀ k (h : k < code.length), peek s (A + BitVec.ofNat 16 k) = some code[k]

theorem bytesAt_cons {s : State} {A : Word} {b : Byte} {code : List Byte} (h : BytesAt s A (b :: code)) :
    peek s A = some b ∧ BytesAt s (A + 1) code := by
  have hhead := h 0 (Nat.zero_lt_succ _)
  rw [BitVec.add_zero] at hhead
  refine ⟨hhead, fun k hk => ?_⟩
  have htail := h (k + 1) (Nat.succ_lt_succ hk)
  rwa [← word_add_ofNat] at htail

/-- What fits below the top of memory still does after its first bytes, even when these reach the top. -/
theorem fits_after {A : Word} {m n : Nat} (h : A.toNat + (m + n) ≤ 65536) :
    (A + BitVec.ofNat 16 m).toNat + n ≤ 65536 := by
  rw [BitVec.toNat_add, BitVec.toNat_ofNat]
  omega

/-- On the default platform bytes of memory are the fields of any layout that does not run past 0xFFFF. -/
theorem flat_fieldsAt {s : State} (hflat : Flat s) {ks : List FieldKind} {A : Word} {code : List Byte}
    (hlen : code.length = (ks.map FieldKind.width).sum) (hfit : A.toNat + code.length ≤ 65536)
    (hbytes : BytesAt s A code) : FieldsAt s A ks code := by
  induction ks generalizing A code with
  | nil =>
    obtain rfl : code = [] := List.eq_nil_of_length_eq_zero hlen
    trivial
  | cons k ks ih =>
    rw [List.map_cons, List.sum_cons] at hlen
    cases k with
    | lit | addr =>
      obtain _ | ⟨hi, _ | ⟨lo, code⟩⟩ := code <;>
        simp only [List.length_nil, List.length_cons, FieldKind.width] at hlen hfit
      · omega
      · omega
      · obtain ⟨hhi, hbytes⟩ := bytesAt_cons hbytes
        obtain ⟨hlo, hbytes⟩ := bytesAt_cons hbytes
        have htwo : A + 1 + 1 = A + 2 := BitVec.add_assoc A 1 1
        have hne : A ≠ 0xFFFF := by
          rintro rfl
          have htop : (0xFFFF : Word).toNat = 65535 := rfl
          omega
        rw [htwo] at hbytes
        exact ⟨flat_peekWord_bytes hflat hne hhi hlo, ih (by omega) (fits_after (m := 2) (by omega)) hbytes⟩
    | ra | rb =>
      obtain _ | ⟨b, code⟩ := code <;> simp only [List.length_nil, List.length_cons, FieldKind.width] at hlen hfit
      · omega
      · obtain ⟨hb, hbytes⟩ := bytesAt_cons hbytes
        exact ⟨hb, ih (by omega) (fits_after (m := 1) (by omega)) hbytes⟩

theorem flat_codeAt {s : State} (hflat : Flat s) {o : Op} {code : List Byte} (hlen : code.length = o.size)
    (hfit : (s.reg .ip).toNat + o.size ≤ 65536) (hbytes : BytesAt s (s.reg .ip) code) : CodeAt s o code := by
  rw [← hlen] at hfit
  rw [Op.size, Format.size] at hlen
  cases code with
  | nil => rw [List.length_nil] at hlen; omega
  | cons op code =>
    rw [List.length_cons] at hlen hfit
    obtain ⟨hop, hbytes⟩ := bytesAt_cons hbytes
    exact ⟨hop, flat_fieldsAt hflat (by omega) (fits_after (m := 1) (by omega)) hbytes⟩

/-- Settles O12: the instruction's own bytes are code wherever they fit below the top of memory. -/
theorem bytesInFlatMemoryAreCode : Obligations.BytesInFlatMemoryAreCode := by
  intro s i rest bs hrun hflat hdecode hfit hbytes
  have hsize : i.op.size ≤ bs.length := by
    cases bs with
    | nil => cases hdecode
    | cons op bs =>
      obtain ⟨o, f, ra, rb, -, hf, -, rfl⟩ := decode_cons_ok hdecode
      rw [List.length_cons, length_of_readFields hf, op_instrOf, Op.size, Format.size]
      omega
  rw [← List.take_append_drop i.op.size bs] at hdecode
  apply step_of_codeAt hrun hdecode
  apply flat_codeAt hflat (List.length_take_of_le hsize) hfit
  intro k hk
  rw [List.length_take_of_le hsize] at hk
  rw [List.getElem_take]
  exact hbytes k (by omega) hk

/-! ### The opcode address of a fault (R241) -/

theorem faultAddr_of_fetchInstr_error {s : State} {f : Fault} (h : fetchInstr s = .error f) :
    faultAddr f = s.reg .ip := by
  unfold fetchInstr at h
  split at h
  · cases h; rfl
  · split at h
    · cases h; rfl
    · split at h
      · cases h; rfl
      · split at h
        · cases h; rfl
        · cases h

/-- Every access that can end an operation with an error is of a word. -/
def FailsOnWord {α : Type} (x : Except MemError α) : Prop := ∀ e, x = .error e → e.width = .word

theorem failsOnWord_memRead (A : Word) (s : State) : FailsOnWord (memRead .word A s) :=
  fun _ h => by rw [memRead_error h]

theorem failsOnWord_memWrite (A v : Word) (s : State) : FailsOnWord (memWrite .word A v s) :=
  fun _ h => by rw [memWrite_error h]

theorem failsOnWord_loadReg (A : Word) (r : Reg) (s : State) : FailsOnWord (loadReg A r s) := by
  intro e h
  unfold loadReg at h
  split at h <;> cases h
  exact failsOnWord_memRead A s e ‹_›

theorem failsOnWord_push (v : Word) (s : State) : FailsOnWord (push v s) := by
  intro e h
  unfold push at h
  split at h <;> cases h
  exact failsOnWord_memWrite _ v s e ‹_›

theorem failsOnWord_pop (s : State) : FailsOnWord (pop s) := by
  intro e h
  unfold pop at h
  split at h <;> cases h
  exact failsOnWord_memRead _ s e ‹_›

theorem failsOnWord_popReg (r : Reg) (s : State) : FailsOnWord (popReg r s) := by
  intro e h
  unfold popReg at h
  split at h <;> cases h
  exact failsOnWord_pop s e ‹_›

theorem failsOnWord_pushRegs (rs : List Reg) (s : State) : FailsOnWord (pushRegs rs s) := by
  intro e h
  induction rs generalizing s with
  | nil => cases h
  | cons r rs ih =>
    unfold pushRegs at h
    split at h
    · cases h; exact failsOnWord_push _ s e ‹_›
    · exact ih _ h

theorem failsOnWord_popRegs (rs : List Reg) (s : State) : FailsOnWord (popRegs rs s) := by
  intro e h
  induction rs generalizing s with
  | nil => cases h
  | cons r rs ih =>
    unfold popRegs at h
    split at h
    · cases h; exact failsOnWord_popReg r s e ‹_›
    · exact ih _ h

theorem failsOnWord_popMany (n : Nat) (s : State) : FailsOnWord (popMany n s) := by
  intro e h
  induction n generalizing s with
  | zero => cases h
  | succ n ih =>
    unfold popMany at h
    split at h
    · cases h; exact failsOnWord_pop s e ‹_›
    · exact ih _ h

theorem failsOnWord_pushState (s : State) : FailsOnWord (pushState s) := by
  intro e h
  unfold pushState at h
  split at h
  · cases h; exact failsOnWord_pushRegs savedRegs s e ‹_›
  · split at h <;> cases h
    exact failsOnWord_push _ _ e ‹_›

theorem failsOnWord_popFrame (a S : Word) (s : State) : FailsOnWord (popFrame a S s) := by
  intro e h
  unfold popFrame at h
  split at h
  · cases h; exact failsOnWord_popRegs _ s e ‹_›
  · split at h
    · cases h; exact failsOnWord_pop _ e ‹_›
    · split at h <;> cases h
      exact failsOnWord_popMany _ _ e ‹_›

theorem failsOnWord_popState (s : State) : FailsOnWord (popState s) := by
  intro e h
  unfold popState at h
  split at h
  · cases h; exact failsOnWord_pop _ e ‹_›
  · exact failsOnWord_popFrame _ _ _ e h

theorem failsOnWord_callTo (A : Word) (s : State) : FailsOnWord (callTo A s) := by
  intro e h
  unfold callTo at h
  split at h <;> cases h
  exact failsOnWord_pushState s e ‹_›

theorem failsOnWord_saveForInterrupt (s : State) : FailsOnWord (saveForInterrupt s) := by
  intro e h
  unfold saveForInterrupt at h
  split at h
  · cases h
  · split at h
    · cases h; exact failsOnWord_push 0 s e ‹_›
    · exact failsOnWord_pushState _ e h

theorem failsOnWord_takeInterrupt (n : Nat) (s : State) : FailsOnWord (takeInterrupt n s) := by
  intro e h
  unfold takeInterrupt at h
  split at h
  · cases h; exact failsOnWord_memRead _ s e ‹_›
  · split at h <;> cases h
    exact failsOnWord_saveForInterrupt _ e ‹_›

/-- An instruction that ends as word accesses end can only fault with theirs, at its own opcode. -/
theorem conclude_fault {o : Op} {s : State} {x : Except MemError State} {f : Fault} (hx : FailsOnWord x)
    (h : conclude o s x = .fault f) :
    ∃ A dir, f = .memoryFault (s.reg .ip - BitVec.ofNat 16 o.size) A .word dir := by
  cases x with
  | ok t => cases h
  | error e =>
    cases h
    refine ⟨e.addr, e.dir, ?_⟩
    rw [memFault, hx e rfl, opcodeAddr]

theorem exec_fault {i : Instr} {s : State} {f : Fault} (h : exec i s = .fault f) :
    ∃ A dir, f = .memoryFault (s.reg .ip - BitVec.ofNat 16 i.op.size) A .word dir := by
  cases i with
  | movLitReg | movRegReg | addRegReg | addLitReg | subRegReg | subLitReg | mulRegReg | mulLitReg | incReg | decReg
  | lsfRegReg | lsfLitReg | rsfRegReg | rsfLitReg | andRegReg | andLitReg | orRegReg | orLitReg | xorRegReg | xorLitReg
  | notReg | jeqReg | jeqLit | jneReg | jneLit | jltReg | jltLit | jgtReg | jgtLit | jleReg | jleLit | jgeReg | jgeLit
  | hlt => cases h
  | movRegMem | movLitMem => exact conclude_fault (failsOnWord_memWrite _ _ s) h
  | movMemReg | movRegPtrReg | movLitOffReg => exact conclude_fault (failsOnWord_loadReg _ _ s) h
  | pshLit | pshReg => exact conclude_fault (failsOnWord_push _ s) h
  | popReg R => exact conclude_fault (failsOnWord_popReg R s) h
  | calLit | calReg => exact conclude_fault (failsOnWord_callTo _ s) h
  | ret => exact conclude_fault (failsOnWord_popState s) h
  | rti => exact conclude_fault (failsOnWord_popState (s.setInHandler false)) h
  | intLit L =>
    simp only [exec, execIntLit] at h
    split at h
    · cases h
    · exact conclude_fault (failsOnWord_takeInterrupt _ s) h

/-- Settles O16: what ends an instruction is a word access, refused. -/
theorem executionFaultsOnlyOnWordAccesses : Obligations.ExecutionFaultsOnlyOnWordAccesses :=
  fun i s => ⟨exec_ne_refused i s, fun _ => exec_fault⟩

/-- Settles O15: a fault of the fetch names `ip`; a fault of the execution names the fetched `ip` less the size by which
the fetch moved it. -/
theorem faultsRecordTheOpcodeAddress : Obligations.FaultsRecordTheOpcodeAddress := by
  intro s f hrun h
  cases hfetch : fetchInstr s with
  | error g =>
    rw [step_of_fetchInstr_error hrun hfetch] at h
    cases h
    exact faultAddr_of_fetchInstr_error hfetch
  | ok fetched =>
    obtain ⟨i, u⟩ := fetched
    rw [step_of_fetchInstr_ok hrun hfetch] at h
    obtain ⟨A, dir, rfl⟩ := exec_fault h
    obtain ⟨n, rfl⟩ := fetchInstr_ok hfetch
    rw [faultAddr, State.reg_setReg_same, BitVec.add_sub_cancel]

end Sys2Proof.Machine
end

section
/-! What completed instructions and steps keep, read off the kinds of effect: the stack invariant (spec/10_state.md R38),
the registers, the hidden state and the devices an instruction does not name (R32 to R37). -/

namespace Sys2Proof.Machine

/-- A completed step completed its fetch and its instruction. -/
theorem step_next {s t : State} (h : step s = .next t) :
    ∃ i u, fetchInstr s = .ok (i, u) ∧ exec i u = .next t := by
  unfold step at h
  split at h
  · split at h
    · cases h
    · rename_i i u hfetch; exact ⟨i, u, hfetch, h⟩
  · cases h
  · cases h

/-! ### The invariants of the devices -/

theorem step_keeps {s t : State} (h : step s = .next t) : Keeps s t := by
  obtain ⟨i, u, hfetch, hexec⟩ := step_next h
  exact (fetchInstr_keeps hfetch).trans (exec_keeps hexec)

/-- Settles O58: fetch and execution both keep canonical form, shapes and parameters. -/
theorem stepKeepsTheInvariants : Obligations.StepKeepsTheInvariants := by
  intro s t h
  obtain ⟨hparams, hshapes, hwf⟩ := step_keeps h
  refine ⟨hwf, fun hkept => ?_, hparams⟩
  rw [shapesKept, hshapes, hparams]
  exact hkept

/-! ### The stack invariant (R38) -/

theorem stackInv_congr {s t : State} (hfp : t.reg .fp = s.reg .fp) (hsp : t.reg .sp = s.reg .sp)
    (hfsize : t.fsize = s.fsize) (h : StackInv s) : StackInv t := by
  rw [StackInv, hfp, hsp, hfsize]
  exact h

theorem stackInv_setReg {s : State} {r : Reg} {v : Word} (hsp : r ≠ .sp) (hfp : r ≠ .fp) (h : StackInv s) :
    StackInv (s.setReg r v) :=
  stackInv_congr (State.reg_setReg_ne s v hfp.symm) (State.reg_setReg_ne s v hsp.symm) rfl h

theorem stackInv_push {v : Word} {s t : State} (h : StackInv s) (ht : push v s = .ok t) : StackInv t := by
  obtain ⟨hreg, hfsize, -, -⟩ := push_frame ht
  rw [StackInv, hreg .fp, hreg .sp, hfsize, if_neg (by decide), if_pos rfl, ← show _ = s.fsize from h]
  grind

theorem stackInv_pop {v : Word} {s t : State} (h : StackInv s) (ht : pop s = .ok (v, t)) : StackInv t := by
  obtain ⟨hreg, hfsize, -, -, -⟩ := pop_frame ht
  rw [StackInv, hreg .fp, hreg .sp, hfsize, if_neg (by decide), if_pos rfl, ← show _ = s.fsize from h]
  grind

/-- PushState starts an empty frame, whatever was before. -/
theorem stackInv_callTo {A : Word} {s t : State} (ht : callTo A s = .ok t) : StackInv t := by
  obtain ⟨u, hpush, rfl⟩ := callTo_ok ht
  obtain ⟨-, hsp, hfp, hfsize, -, -⟩ := pushState_frame hpush
  refine stackInv_setReg (by decide) (by decide) ?_
  rw [StackInv, hsp, hfp, hfsize, BitVec.sub_self]
  rfl

/-- PopState takes `fp` and `fsize` from the same saved size, whatever was before. -/
theorem stackInv_popState {s t : State} (ht : popState s = .ok t) : StackInv t := by
  obtain ⟨S, n, -, hsp, hfsize, hfp, -, -, -⟩ := popState_frame ht
  rw [StackInv, hsp, hfp, hfsize]
  generalize BitVec.ofNat 16 (2 * n.toNat) = arguments
  grind

theorem stackInv_takeInterrupt {n : Nat} {s t : State} (h : StackInv s) (ht : takeInterrupt n s = .ok t) :
    StackInv t := by
  obtain ⟨-, -, -, ⟨-, hfsize, hsp, hfp⟩ | ⟨-, hfsize, hsp, hfp⟩⟩ := takeInterrupt_frame ht
  · rw [StackInv, hsp, hfp, hfsize, BitVec.sub_self]
    rfl
  · exact stackInv_congr hfp hsp hfsize h

theorem stackInv_exec {i : Instr} {s t : State} (h : StackInv s) (hsp : destReg i ≠ some .sp)
    (hfp : destReg i ≠ some .fp) (hexec : exec i s = .next t) : StackInv t := by
  cases exec_next hexec with
  | register _ R v n hd _ _ _ _ ht =>
    subst ht
    rw [hd] at hsp hfp
    exact stackInv_setReg (fun he => hsp (congrArg some he)) (fun he => hfp (congrArg some he))
      (stackInv_congr rfl rfl rfl h)
  | jump _ v _ _ _ ht => subst ht; exact stackInv_setReg (by decide) (by decide) h
  | store _ A v _ _ _ ht =>
    obtain ⟨ds, n, rfl, -, -⟩ := memWrite_ok ht
    exact stackInv_congr rfl rfl rfl h
  | push _ v _ ht => exact stackInv_push h ht
  | pop R ht =>
    obtain ⟨v, u, hpop, rfl⟩ := popReg_ok ht
    exact stackInv_setReg (fun he => hsp (congrArg some he)) (fun he => hfp (congrArg some he)) (stackInv_pop h hpop)
  | call _ A _ ht => exact stackInv_callTo ht
  | ret ht => exact stackInv_popState ht
  | rti ht => exact stackInv_popState (s := s.setInHandler false) ht
  | halt ht => subst ht; exact stackInv_congr rfl rfl rfl h
  | masked L _ ht => subst ht; exact h
  | interrupt L _ ht => exact stackInv_takeInterrupt h ht

theorem stackInv_fetchInstr {s u : State} {i : Instr} (h : StackInv s) (hfetch : fetchInstr s = .ok (i, u)) :
    StackInv u := by
  obtain ⟨n, rfl⟩ := fetchInstr_ok hfetch
  exact stackInv_setReg (by decide) (by decide) (stackInv_congr rfl rfl rfl h)

/-- Settles O46: pushes and pops move `sp` and `fsize` together, and PushState and PopState set all three anew. -/
theorem stackInvariantIsKept : Obligations.StackInvariantIsKept := by
  refine ⟨fun i s t h hsp hfp ht => stackInv_exec h hsp hfp ht, fun s t i u h hfetch hsp hfp ht => ?_⟩
  obtain ⟨j, w, hfetch', hexec⟩ := step_next ht
  cases hfetch.symm.trans hfetch'
  exact stackInv_exec (stackInv_fetchInstr h hfetch) hsp hfp hexec

/-! ### Registers (R21, R180, R202, R203) -/

theorem reg_of_memWrite {w : Width} {A v : Word} {s t : State} (h : memWrite w A v s = .ok t) (r : Reg) :
    t.reg r = s.reg r := by
  obtain ⟨ds, n, rfl, -, -⟩ := memWrite_ok h
  rfl

theorem reg_of_push {v : Word} {s t : State} (h : push v s = .ok t) {r : Reg} (hr : r ≠ .sp) : t.reg r = s.reg r := by
  obtain ⟨hreg, -⟩ := push_frame h
  rw [hreg, if_neg hr]

theorem reg_of_popReg {q : Reg} {s t : State} (h : popReg q s = .ok t) {r : Reg} (hq : r ≠ q) (hr : r ≠ .sp) :
    t.reg r = s.reg r := by
  obtain ⟨v, u, hpop, rfl⟩ := popReg_ok h
  obtain ⟨hreg, -⟩ := pop_frame hpop
  rw [State.reg_setReg_ne _ _ hq, hreg, if_neg hr]

theorem reg_of_callTo {A : Word} {s t : State} (h : callTo A s = .ok t) {r : Reg} (hr : r ∉ [Reg.ip, .sp, .fp]) :
    t.reg r = s.reg r := by
  simp only [List.mem_cons, List.not_mem_nil, or_false, not_or] at hr
  obtain ⟨hip, hsp, hfp⟩ := hr
  obtain ⟨u, hpush, rfl⟩ := callTo_ok h
  obtain ⟨hreg, -⟩ := pushState_frame hpush
  rw [State.reg_setReg_ne _ _ hip, hreg r hsp hfp]

theorem reg_of_popState {s t : State} (h : popState s = .ok t) {r : Reg} (hr : r ∉ implicitRegs .ret) :
    t.reg r = s.reg r := by
  obtain ⟨S, n, hreg, -⟩ := popState_frame h
  have hsaved : ∀ q ∈ savedRegs, q ∈ implicitRegs .ret := by decide
  refine hreg r ?_ ?_ fun hmem => hr (hsaved r hmem)
  · rintro rfl; exact hr (by decide)
  · rintro rfl; exact hr (by decide)

theorem reg_of_takeInterrupt {n : Nat} {s t : State} (h : takeInterrupt n s = .ok t) {r : Reg}
    (hr : r ∉ [Reg.ip, .sp, .fp]) : t.reg r = s.reg r := by
  simp only [List.mem_cons, List.not_mem_nil, or_false, not_or] at hr
  obtain ⟨hip, hsp, hfp⟩ := hr
  obtain ⟨hreg, -⟩ := takeInterrupt_frame h
  exact hreg r hip hsp hfp

/-- Settles O55: each kind of effect writes the destination or the implicit registers of its instructions. -/
theorem registersChangeOnlyAsNamed : Obligations.RegistersChangeOnlyAsNamed := by
  intro i s t r h hdest himplicit
  cases exec_next h with
  | register _ R v n hd _ _ _ _ ht =>
    subst ht
    rw [State.reg_setReg_ne _ _ fun he => hdest (hd.trans (congrArg some he.symm))]
    rfl
  | jump _ v hip _ _ ht =>
    subst ht
    rw [hip, List.mem_singleton] at himplicit
    exact State.reg_setReg_ne s v himplicit
  | store _ A v _ _ _ ht => exact reg_of_memWrite ht r
  | push _ v hi ht =>
    refine reg_of_push ht fun he => himplicit ?_
    rcases hi with ⟨L, rfl⟩ | ⟨R, rfl⟩ <;> exact he ▸ List.mem_cons_self
  | pop R ht =>
    exact reg_of_popReg ht (fun he => hdest (congrArg some he.symm)) fun he => himplicit (he ▸ List.mem_cons_self)
  | call _ A hi ht =>
    refine reg_of_callTo ht ?_
    rcases hi with ⟨L, rfl⟩ | ⟨R, rfl⟩ <;> exact himplicit
  | ret ht => exact reg_of_popState ht himplicit
  | rti ht => exact reg_of_popState (s := s.setInHandler false) ht himplicit
  | halt ht => subst ht; rfl
  | masked L _ ht => subst ht; rfl
  | interrupt L _ ht => exact reg_of_takeInterrupt ht himplicit

/-! ### Devices (R63, R137) -/

theorem devices_of_popReg {r : Reg} {s t : State} (h : popReg r s = .ok t) : t.devices = s.devices := by
  obtain ⟨v, u, hpop, rfl⟩ := popReg_ok h
  obtain ⟨-, -, -, -, hdevices⟩ := pop_frame hpop
  exact hdevices

theorem devices_of_popState {s t : State} (h : popState s = .ok t) : t.devices = s.devices := by
  obtain ⟨-, -, -, -, -, -, -, -, hdevices⟩ := popState_frame h
  exact hdevices

/-- Settles O57: the effects that write devices belong to the storing instructions. -/
theorem onlyStoringInstructionsChangeMemory : Obligations.OnlyStoringInstructionsChangeMemory := by
  intro i s t hcan h
  cases exec_next h with
  | register _ R v n _ _ _ _ _ ht => subst ht; rfl
  | jump _ v _ _ _ ht => subst ht; rfl
  | store _ A v hstore _ _ _ => cases hcan.symm.trans hstore
  | push _ v hi _ => rcases hi with ⟨L, rfl⟩ | ⟨R, rfl⟩ <;> cases hcan
  | pop R ht => exact devices_of_popReg ht
  | call _ A hi _ => rcases hi with ⟨L, rfl⟩ | ⟨R, rfl⟩ <;> cases hcan
  | ret ht => exact devices_of_popState ht
  | rti ht => exact devices_of_popState (s := s.setInHandler false) ht
  | halt ht => subst ht; rfl
  | masked L _ _ => cases hcan
  | interrupt L _ _ => cases hcan

/-! ### The hidden state (R32, R33) -/

theorem fsize_of_memWrite {w : Width} {A v : Word} {s t : State} (h : memWrite w A v s = .ok t) :
    t.fsize = s.fsize := by
  obtain ⟨ds, n, rfl, -, -⟩ := memWrite_ok h
  rfl

theorem fsize_of_exec_next {i : Instr} {s t : State} (h : exec i s = .next t) (hstack : usesStack i = false) :
    t.fsize = s.fsize := by
  cases exec_next h with
  | register _ R v n _ _ _ _ _ ht => subst ht; rfl
  | jump _ v _ _ _ ht => subst ht; rfl
  | store _ A v _ _ _ ht => exact fsize_of_memWrite ht
  | push _ v hi _ => rcases hi with ⟨L, rfl⟩ | ⟨R, rfl⟩ <;> cases hstack
  | pop R _ => cases hstack
  | call _ A hi _ => rcases hi with ⟨L, rfl⟩ | ⟨R, rfl⟩ <;> cases hstack
  | ret _ => cases hstack
  | rti _ => cases hstack
  | halt ht => subst ht; rfl
  | masked L _ _ => cases hstack
  | interrupt L _ _ => cases hstack

/-- The interrupt number is the literal modulo 16 (R231). -/
theorem interruptNumber_eq (L : Word) : interruptNumber L = L.toNat % 16 := by
  have hlow : (0x000F : Word).toNat = 2 ^ 4 - 1 := rfl
  rw [interruptNumber, BitVec.toNat_and, hlow, Nat.and_two_pow_sub_one_eq_mod]

theorem interruptEnabled_eq (L : Word) (s : State) :
    interruptEnabled (interruptNumber L) s = (s.reg .im).getLsbD (L.toNat % 16) := by
  rw [interruptEnabled, interruptNumber_eq]

/-- An interrupt is dropped or taken as the bit of `im` for its number says (R231). -/
theorem exec_intLit (L : Word) (s : State) :
    exec (.intLit L) s = if (s.reg .im).getLsbD (L.toNat % 16) then
      conclude .intLit s (takeInterrupt (L.toNat % 16) s) else .next s := by
  rw [← interruptEnabled_eq, ← interruptNumber_eq, exec, execIntLit]
  cases interruptEnabled (interruptNumber L) s <;> rfl

theorem inHandler_of_memWrite {w : Width} {A v : Word} {s t : State} (h : memWrite w A v s = .ok t) :
    t.inHandler = s.inHandler := by
  obtain ⟨ds, n, rfl, -, -⟩ := memWrite_ok h
  rfl

theorem inHandler_of_push {v : Word} {s t : State} (h : push v s = .ok t) : t.inHandler = s.inHandler := by
  obtain ⟨-, -, hflag, -⟩ := push_frame h
  exact hflag

theorem inHandler_of_popReg {r : Reg} {s t : State} (h : popReg r s = .ok t) : t.inHandler = s.inHandler := by
  obtain ⟨v, u, hpop, rfl⟩ := popReg_ok h
  obtain ⟨-, -, hflag, -⟩ := pop_frame hpop
  exact hflag

theorem inHandler_of_callTo {A : Word} {s t : State} (h : callTo A s = .ok t) : t.inHandler = s.inHandler := by
  obtain ⟨u, hpush, rfl⟩ := callTo_ok h
  obtain ⟨-, -, -, -, hflag, -⟩ := pushState_frame hpush
  exact hflag

theorem inHandler_of_popState {s t : State} (h : popState s = .ok t) : t.inHandler = s.inHandler := by
  obtain ⟨-, -, -, -, -, -, hflag, -⟩ := popState_frame h
  exact hflag

theorem inHandler_of_takeInterrupt {n : Nat} {s t : State} (h : takeInterrupt n s = .ok t) : t.inHandler = true := by
  obtain ⟨-, hflag, -⟩ := takeInterrupt_frame h
  exact hflag

/-- An accepted interrupt sets the in-handler flag and a masked one leaves it. -/
theorem inHandler_of_exec_intLit {L : Word} {s t : State} (h : exec (.intLit L) s = .next t) :
    t.inHandler = (s.inHandler || (s.reg .im).getLsbD (L.toNat % 16)) := by
  rw [exec_intLit] at h
  split at h
  · rename_i hmask
    rw [hmask, Bool.or_true, inHandler_of_takeInterrupt (conclude_next h)]
  · rename_i hmask
    cases h
    rw [Bool.not_eq_true] at hmask
    rw [hmask, Bool.or_false]

/-- Every instruction but `int` and `rti` leaves the in-handler flag. -/
theorem inHandler_of_exec_next {i : Instr} {s t : State} (h : exec i s = .next t) (hint : ∀ L, i ≠ .intLit L)
    (hrti : i ≠ .rti) : t.inHandler = s.inHandler := by
  cases exec_next h with
  | register _ R v n _ _ _ _ _ ht => subst ht; rfl
  | jump _ v _ _ _ ht => subst ht; rfl
  | store _ A v _ _ _ ht => exact inHandler_of_memWrite ht
  | push _ v _ ht => exact inHandler_of_push ht
  | pop R ht => exact inHandler_of_popReg ht
  | call _ A _ ht => exact inHandler_of_callTo ht
  | ret ht => exact inHandler_of_popState ht
  | rti _ => exact absurd rfl hrti
  | halt ht => subst ht; rfl
  | masked L _ _ => exact absurd rfl (hint L)
  | interrupt L _ _ => exact absurd rfl (hint L)

/-- Settles O56: one fact for each piece of the hidden state, and the parameters no effect touches. -/
theorem hiddenStateChangesOnlyAsNamed : Obligations.HiddenStateChangesOnlyAsNamed := by
  intro i s t h
  refine ⟨fsize_of_exec_next h, ?_, ?_, inHandler_of_exec_next h, status_of_exec_next h, (exec_keeps h).params⟩
  · rintro L rfl; exact inHandler_of_exec_intLit h
  · rintro rfl; exact inHandler_of_popState (s := s.setInHandler false) (conclude_next h)

end Sys2Proof.Machine
end

section
/-! The memory mapper, the devices and the storages (spec/20_memory.md R53 to R66), and the moves between a register and
an absolute or computed address (spec/40_move.md R132 to R136). -/

namespace Sys2Proof.Machine

/-! ### The mapper (R54, R55, R56) -/

/-- Settles O31: the search stops at the first region that holds the address; the offset is a 16-bit difference. -/
theorem firstContainingRegionServes : Obligations.FirstContainingRegionServes := by
  refine ⟨fun rs A r => ?first, fun r A => ?offset⟩
  case first =>
    simp only [findRegion, List.find?_eq_some_iff_append, inRegion, decide_eq_true_eq, Bool.not_eq_eq_eq_not,
      Bool.not_true, decide_eq_false_iff_not]
    constructor
    · rintro ⟨hin, before, after, hrs, hnot⟩; exact ⟨before, after, hrs, hin, hnot⟩
    · rintro ⟨before, after, hrs, hin, hnot⟩; exact ⟨hin, before, after, hrs, hnot⟩
  case offset =>
    rw [localAddr]
    split
    · have hstart := r.start.isLt
      rw [BitVec.toNat_sub]
      omega
    · rfl

theorem memRead_error_iff (w : Width) (A : Word) (s : State) (e : MemError) :
    memRead w A s = .error e ↔ e = ⟨A, w, .read⟩ ∧
      ∀ r d, route s A = some (r, d) → deviceRead d (s.reg .mb) s.draws w (localAddr r A) = none := by
  constructor
  · intro h
    refine ⟨memRead_error h, fun r d hroute => ?_⟩
    simp only [memRead, hroute] at h
    split at h
    · assumption
    · cases h
  · rintro ⟨rfl, hrefuses⟩
    cases hroute : route s A with
    | none => simp only [memRead, hroute]
    | some served => simp only [memRead, hroute, hrefuses _ _ hroute]

theorem memWrite_error_iff (w : Width) (A v : Word) (s : State) (e : MemError) :
    memWrite w A v s = .error e ↔ e = ⟨A, w, .write⟩ ∧
      ∀ r d, route s A = some (r, d) → deviceWrite d (s.reg .mb) s.draws w (localAddr r A) v = none := by
  constructor
  · intro h
    refine ⟨memWrite_error h, fun r d hroute => ?_⟩
    simp only [memWrite, hroute] at h
    split at h
    · assumption
    · cases h
  · rintro ⟨rfl, hrefuses⟩
    cases hroute : route s A with
    | none => simp only [memWrite, hroute]
    | some served => simp only [memWrite, hroute, hrefuses _ _ hroute]

/-- Settles O32: the access errs at the mapper or at the device. -/
theorem accessFaultsWhenUnservedOrRefused : Obligations.AccessFaultsWhenUnservedOrRefused :=
  fun w A v s => ⟨memRead_error_iff w A s, memWrite_error_iff w A v s⟩

/-! ### Storages and banks (R59, R64) -/

/-- Settles O35: the write stays inside the storage, and the keys of a canonical memory rise. -/
theorem storageReadsTheLastWrite : Obligations.StorageReadsTheLastWrite := by
  intro size m k v hm hk
  obtain ⟨hsorted, -, -⟩ := (memWf_iff size m).mp hm
  exact ⟨memWf_writeByte hm hk v, fun j => readByte_writeByte hsorted k j v⟩

/-- A completed write to a banked device replaces the selected bank and nothing else. -/
theorem memWrite_banked_ok {w : Width} {A v : Word} {s t : State} {r : Region} {size : Nat} {banks : List Memory}
    (hr : route s A = some (r, .banked size banks)) (h : memWrite w A v s = .ok t) :
    ∃ m, t = s.setDevices (s.devices.set r.device (.banked size (banks.set (bankIndex (s.reg .mb) banks) m))) := by
  cases hm : banks[bankIndex (s.reg .mb) banks]? with
  | none => simp [memWrite, hr, deviceWrite, hm] at h
  | some m =>
    rw [memWrite_of_bank w v hr hm] at h
    split at h <;> cases h
    exact ⟨_, rfl⟩

/-- Settles O34: the write sets one bank of one device. -/
theorem banksAreIndependent : Obligations.BanksAreIndependent := by
  intro w A v s t r size banks hr hwrite
  obtain ⟨m, rfl⟩ := memWrite_banked_ok hr hwrite
  have hdevice := route_some hr
  obtain ⟨hlt, -⟩ := List.getElem?_eq_some_iff.mp hdevice
  refine ⟨fun j L hj => ?_, fun d j L hd => ?_⟩
  · simp only [deviceByte, State.devices_setDevices, List.getElem?_set_self hlt, hdevice, bankIndex,
      List.getElem?_set_ne hj.symm]
  · simp only [deviceByte, State.devices_setDevices, List.getElem?_set_ne hd.symm]

/-! ### Stores (R132, R134) -/

theorem conclude_of_ok (o : Op) (s : State) {x : Except MemError State} {t : State} (h : x = .ok t) :
    conclude o s x = .next t := by rw [h, conclude]

/-- A store to a word that memory serves writes that word and nothing else. -/
theorem conclude_memWrite_of_served {s : State} {A : Word} (o : Op) (v : Word) (hwf : stateWf s = true)
    (hserved : wordServed s A = true) :
    ∃ t, conclude o s (memWrite .word A v s) = .next t ∧ OnlyStored s t A v := by
  obtain ⟨ds, hwrite, hstored⟩ := memWrite_stored v hwf hserved
  exact ⟨_, conclude_of_ok o s hwrite, hstored, fun _ => rfl, rfl, rfl, rfl, rfl, rfl⟩

/-- A store that is refused: the fault names the instruction's opcode and the address of the word. -/
theorem conclude_memWrite_of_refused {s : State} {A v : Word} {e : MemError} (o : Op)
    (h : memWrite .word A v s = .error e) :
    conclude o s (memWrite .word A v s) = .fault (.memoryFault (opcodeAddr o s) A .word .write) := by
  obtain rfl := memWrite_error h
  rw [h, conclude, memFault]

theorem exec_movRegMem (R : Reg) (A : Word) (s : State) :
    exec (.movRegMem R A) s = conclude .movRegMem s (memWrite .word A (s.reg R) s) := rfl

theorem exec_movLitMem (L A : Word) (s : State) :
    exec (.movLitMem L A) s = conclude .movLitMem s (memWrite .word A L s) := rfl

theorem opcodeAddr_movRegMem (s : State) : opcodeAddr .movRegMem s = s.reg .ip - 4 := rfl

/-- Settles O18: both instructions are one 2-byte write. -/
theorem moveToMemory : Obligations.MoveToMemory := by
  refine ⟨commonFaults _ _, fetchFaults _ _, noRegisterByte (by decide) (by decide),
    fun R A => encodedAs_fieldBytes 0x12 (.movRegMem R A), fun L A => encodedAs_fieldBytes 0x1B (.movLitMem L A),
    fun R A s hwf hserved => ?regServed, fun L A s hwf hserved => ?litServed, fun R A s t h => conclude_of_ok _ s h,
    fun L A s t h => conclude_of_ok _ s h, fun R A s e h => ?regRefused, fun L A s e h => ?litRefused⟩
  case regServed =>
    rw [exec_movRegMem]
    exact conclude_memWrite_of_served _ _ hwf hserved
  case litServed =>
    rw [exec_movLitMem]
    exact conclude_memWrite_of_served _ _ hwf hserved
  case regRefused => rw [exec_movRegMem, conclude_memWrite_of_refused _ h, opcodeAddr_movRegMem]
  case litRefused =>
    have hopcode : opcodeAddr .movLitMem s = s.reg .ip - 5 := rfl
    rw [exec_movLitMem, conclude_memWrite_of_refused _ h, hopcode]

/-- Settles O36: the store at 0xFFFF is not served; elsewhere it leaves the high byte at `A` and the low byte after. -/
theorem flatStoreIsBigEndian : Obligations.FlatStoreIsBigEndian := by
  intro s R A hflat hwf
  refine ⟨fun hA => ?stored, fun hA => ?top⟩
  case stored =>
    obtain ⟨ds, hwrite⟩ := memWrite_word_of_served (s.reg R) ((flat_wordServed hflat A).mpr hA)
    have hpeek := fun B => (flat_store hflat hwf hwrite B).2
    have hnext : A + 1 ≠ A := by grind
    refine ⟨_, conclude_of_ok _ s hwrite, ?_, ?_, fun B hB hB' => ?_⟩
    · rw [hpeek, if_pos rfl]; rfl
    · rw [hpeek, if_neg hnext, if_pos rfl]; rfl
    · rw [hpeek, if_neg hB, if_neg hB']
  case top =>
    cases hwrite : memWrite .word A (s.reg R) s with
    | ok t => exact absurd hA (flat_store hflat hwf hwrite A).1
    | error e => rw [exec_movRegMem, conclude_memWrite_of_refused _ hwrite, opcodeAddr_movRegMem, hA]

/-! ### Loads (R133, R136) -/

theorem exec_movMemReg (A : Word) (R : Reg) (s : State) :
    exec (.movMemReg A R) s = conclude .movMemReg s (loadReg A R s) := rfl

theorem exec_movLitOffReg (L : Word) (Ra Rb : Reg) (s : State) :
    exec (.movLitOffReg L Ra Rb) s =
      conclude .movLitOffReg s (loadReg (BitVec.ofNat 16 (L.toNat + (s.reg Ra).toNat)) Rb s) := by
  rw [BitVec.ofNat_add, BitVec.ofNat_toNat, BitVec.ofNat_toNat, BitVec.setWidth_eq, BitVec.setWidth_eq]
  rfl

theorem opcodeAddr_movMemReg (s : State) : opcodeAddr .movMemReg s = s.reg .ip - 4 := rfl

/-- Settles O20: both instructions are one load, of the address or of the literal plus the register. -/
theorem moveFromMemory : Obligations.MoveFromMemory := by
  refine ⟨fun A R => encodedAs_fieldBytes 0x13 (.movMemReg A R),
    fun L Ra Rb => encodedAs_fieldBytes 0x1D (.movLitOffReg L Ra Rb), fun A R s v h => ?memServed,
    fun L Ra Rb s v h => ?offServed, fun A R s v t h => ?memAnswered, fun L Ra Rb s v t h => ?offAnswered,
    fun A R s e h => ?memRefused, fun L Ra Rb s e h => ?offRefused⟩
  case memServed => rw [exec_movMemReg]; exact conclude_loadReg_of_peekWord _ R h
  case offServed => rw [exec_movLitOffReg]; exact conclude_loadReg_of_peekWord _ Rb h
  case memAnswered => rw [exec_movMemReg]; exact conclude_loadReg_of_read _ R h
  case offAnswered => rw [exec_movLitOffReg]; exact conclude_loadReg_of_read _ Rb h
  case memRefused => rw [exec_movMemReg, conclude_loadReg_of_refused _ R h, opcodeAddr_movMemReg]
  case offRefused =>
    have hopcode : opcodeAddr .movLitOffReg s = s.reg .ip - 5 := rfl
    rw [exec_movLitOffReg, conclude_loadReg_of_refused _ Rb h, hopcode]

/-! ### Peripherals (R66) -/

theorem memRead_word_of_peripheral {s : State} {A : Word} {r : Region} {ev : List PeripheralEvent}
    (hr : route s A = some (r, .peripheral ev)) :
    memRead .word A s = if Config.peripheralRefuses s.draws then .error ⟨A, .word, .read⟩
      else .ok (Config.peripheralAnswer s.draws, s.setDraws (s.draws + 1)) := by
  simp only [memRead, hr, deviceRead]
  cases Config.peripheralRefuses s.draws <;> rfl

theorem memWrite_word_of_peripheral {s : State} {A v : Word} {r : Region} {ev : List PeripheralEvent}
    (hr : route s A = some (r, .peripheral ev)) :
    memWrite .word A v s = if Config.peripheralRefuses s.draws then .error ⟨A, .word, .write⟩
      else .ok ((s.setDevices (s.devices.set r.device
        (.peripheral (ev ++ [⟨.word, localAddr r A, v⟩])))).setDraws (s.draws + 1)) := by
  simp only [memWrite, hr, deviceWrite]
  cases Config.peripheralRefuses s.draws <;> rfl

/-- Settles O37: the free value `peripheralRefuses` decides between the fault and the completed access. -/
theorem peripheralReadsAreDrawsAndWritesAreEvents : Obligations.PeripheralReadsAreDrawsAndWritesAreEvents := by
  intro s A R r ev hr
  have hread := memRead_word_of_peripheral hr
  have hwrite := memWrite_word_of_peripheral (v := s.reg R) hr
  by_cases hrefuses : Config.peripheralRefuses s.draws = true
  · rw [if_pos hrefuses] at hread hwrite
    rw [if_pos hrefuses, if_pos hrefuses, exec_movMemReg, conclude_loadReg_of_refused _ R hread, exec_movRegMem,
      conclude_memWrite_of_refused _ hwrite, opcodeAddr_movMemReg, opcodeAddr_movRegMem]
    exact ⟨rfl, rfl⟩
  · rw [if_neg hrefuses] at hread hwrite
    rw [if_neg hrefuses, if_neg hrefuses, exec_movMemReg, conclude_loadReg_of_read _ R hread, exec_movRegMem]
    exact ⟨rfl, conclude_of_ok _ s hwrite⟩

end Sys2Proof.Machine
end

section
/-! Reset and the host's load (spec/70_reset_and_hazards.md R280, R281). -/

namespace Sys2Proof.Machine

/-- Settles O1: reset takes three registers from the parameters and clears the others. -/
theorem resetLeavesTheStatedValues : Obligations.ResetLeavesTheStatedValues := by
  refine ⟨fun p r => ?_, fun p => ⟨rfl, rfl, rfl, rfl⟩, rfl, rfl, rfl, rfl, rfl⟩
  cases r <;> rfl

theorem flat_reset : Flat State.reset := ⟨rfl, [], rfl⟩

/-- Settles O2: the one RAM serves every address and lists no byte. -/
theorem resetMemoryReadsZero : Obligations.ResetMemoryReadsZero :=
  fun A => flat_peek (s := State.reset) (m := []) rfl rfl A

/-- Settles O3: reset puts the platform's own devices and the same value in `sp` and `fp`. -/
theorem resetIsWellFormed : Obligations.ResetIsWellFormed := by
  refine ⟨fun p hp => ⟨?_, rfl, BitVec.sub_self p.stackTop⟩, by decide⟩
  simp only [paramsWf, Bool.and_eq_true] at hp
  obtain ⟨⟨-, hdevices⟩, -⟩ := hp
  exact hdevices

/-- On the default platform the host's write of a byte changes that byte alone. -/
theorem flat_hostSet8 {s : State} (hflat : Flat s) (hwf : stateWf s = true) (A : Word) (b : Byte) :
    ∃ ds, hostSet8 A b s = .ok (s.setDevices ds) ∧ Flat (s.setDevices ds) ∧
      ∀ B, peek (s.setDevices ds) B = if B = A then some b else peek s B := by
  obtain ⟨hregions, m, hdevices⟩ := hflat
  have hm : memWf 65536 m = true := by simpa [stateWf, hdevices, deviceWf] using hwf
  obtain ⟨hsorted, -, -⟩ := (memWf_iff _ _).mp hm
  refine ⟨[.ram 65536 (writeByte m A.toNat b)], ?_, ⟨hregions, _, rfl⟩, fun B => ?_⟩
  · have hA := word_toNat_lt A
    simp only [hostSet8, memWrite, flat_route hregions hdevices, deviceWrite, storageWrite, localAddr,
      Bool.false_eq_true, if_false, if_pos hA, Option.map_some, hdevices, List.set_cons_zero, loByte_setWidth]
    rfl
  · have hpeek := flat_peek (s := s.setDevices [.ram 65536 (writeByte m A.toNat b)]) hregions rfl B
    rw [hpeek, flat_peek hregions hdevices, readByte_writeByte hsorted]
    simp only [BitVec.toNat_inj]
    split <;> rfl

/-- Bytes stored by the host, as later reads see them: byte `k` at `A + k`, and every other address as before. -/
theorem flat_hostStore {s : State} (hflat : Flat s) (hwf : stateWf s = true) (A : Word) {bs : List Byte}
    (hlen : bs.length ≤ 65536) :
    ∃ ds, hostStore A bs s = some (s.setDevices ds) ∧
      ∀ B, peek (s.setDevices ds) B = bs[(B - A).toNat]?.or (peek s B) := by
  induction bs generalizing s A with
  | nil => exact ⟨s.devices, rfl, fun B => rfl⟩
  | cons b bs ih =>
    rw [List.length_cons] at hlen
    obtain ⟨ds, hset, hflat', hpeek⟩ := flat_hostSet8 hflat hwf A b
    obtain ⟨ds', hstore, hrest⟩ := ih hflat' ((memWrite_keeps hset).wf hwf) (A + 1) (by omega)
    refine ⟨ds', by simp only [hostStore, hset, hstore]; rfl, fun B => (hrest B).trans ?_⟩
    rw [hpeek]
    by_cases hB : B = A
    · subst hB
      have hlast : (B - (B + 1)).toNat = 65535 := by
        rw [show B - (B + 1) = 0xFFFF by grind]; rfl
      rw [hlast, List.getElem?_eq_none (by omega), if_pos rfl, BitVec.sub_self]
      rfl
    · have hoffset : (B - A).toNat = (B - (A + 1)).toNat + 1 := by
        have hlt := (B - (A + 1)).isLt
        have hone : (1 : Word).toNat = 1 := rfl
        have hne : (B - (A + 1)).toNat ≠ 65535 := fun h =>
          hB (by have := BitVec.eq_of_toNat_eq (y := (0xFFFF : Word)) h; grind)
        rw [show B - A = B - (A + 1) + 1 by grind, BitVec.toNat_add, hone]
        omega
      rw [hoffset, List.getElem?_cons_succ, if_neg hB]

/-- Settles O59: the image covers its own addresses, and reset left 0 everywhere else. -/
theorem loadPlacesTheImageAtZero : Obligations.LoadPlacesTheImageAtZero := by
  refine ⟨fun image hlen => ?_, fun image hlen s => if_neg (Nat.not_le.mpr hlen)⟩
  obtain ⟨ds, hstore, hpeek⟩ := flat_hostStore flat_reset (by decide) 0x0000 hlen
  refine ⟨_, (if_pos hlen).trans hstore, fun r => rfl, rfl, fun A => ?_⟩
  rw [hpeek, resetMemoryReadsZero, show A - 0 = A from BitVec.sub_zero A, Option.or_some, List.getD_eq_getElem?_getD]

end Sys2Proof.Machine
end

section
/-! Subtraction, shifts and ordered jumps (spec/41_arithmetic.md R142, R143; spec/42_bitwise.md R160 to R164;
spec/43_branch.md R185 to R192): the value of each operation, and the register each instruction writes. -/

namespace Sys2Proof.Machine

/-! ### Subtraction -/

theorem int_toNat_aluSub (a b : Word) : ((aluSub a b).toNat : Int) = (a.toNat - b.toNat : Int) % 65536 := by
  have ha := a.isLt
  have hb := b.isLt
  rw [toNat_aluSub]
  omega

theorem exec_subRegReg (Ra Rb : Reg) (s : State) :
    exec (.subRegReg Ra Rb) s = .next (s.setReg .acc (aluSub (s.reg Ra) (s.reg Rb))) := rfl

theorem exec_subLitReg (L : Word) (R : Reg) (s : State) :
    exec (.subLitReg L R) s = .next (s.setReg .acc (aluSub (s.reg R) L)) := rfl

/-- Settles O22: both forms write the difference into `acc`; in the literal form the literal is what is subtracted. -/
theorem subtractIntoAccumulator : Obligations.SubtractIntoAccumulator :=
  ⟨fun Ra Rb => encodedAs_fieldBytes 0x1F (.subRegReg Ra Rb),
    fun L R => encodedAs_fieldBytes 0x16 (.subLitReg L R),
    fun Ra Rb s => ⟨_, _, exec_subRegReg Ra Rb s, onlyReg_setReg s .acc _, int_toNat_aluSub _ _⟩,
    fun L R s => ⟨_, _, exec_subLitReg L R s, onlyReg_setReg s .acc _, int_toNat_aluSub _ _⟩⟩

/-! ### Shifts -/

theorem toNat_aluShl (v n : Word) :
    (aluShl v n).toNat = if n.toNat < 16 then v.toNat * 2 ^ n.toNat % 65536 else 0 := by
  rw [aluShl]
  split
  · exact BitVec.toNat_ofNat _ _
  · rfl

/-- Nothing is cut off: a quotient of a word is a word. -/
theorem toNat_aluShr (v n : Word) :
    (aluShr v n).toNat = if n.toNat < 16 then v.toNat / 2 ^ n.toNat else 0 := by
  rw [aluShr]
  split
  · rw [BitVec.toNat_ofNat]
    exact Nat.mod_eq_of_lt (Nat.lt_of_le_of_lt (Nat.div_le_self _ _) v.isLt)
  · rfl

theorem exec_lsfRegReg (Ra Rb : Reg) (s : State) :
    exec (.lsfRegReg Ra Rb) s = .next (s.setReg Ra (aluShl (s.reg Ra) (s.reg Rb))) := rfl

theorem exec_lsfLitReg (L : Word) (R : Reg) (s : State) :
    exec (.lsfLitReg L R) s = .next (s.setReg .acc (aluShl (s.reg R) L)) := rfl

theorem exec_rsfRegReg (Ra Rb : Reg) (s : State) :
    exec (.rsfRegReg Ra Rb) s = .next (s.setReg Ra (aluShr (s.reg Ra) (s.reg Rb))) := rfl

theorem exec_rsfLitReg (L : Word) (R : Reg) (s : State) :
    exec (.rsfLitReg L R) s = .next (s.setReg .acc (aluShr (s.reg R) L)) := rfl

/-- Settles O25: the register forms write their first source, the literal forms `acc`; the amount decides between the
shifted value and 0. -/
theorem shiftsAreLogical : Obligations.ShiftsAreLogical :=
  ⟨fun Ra Rb => encodedAs_fieldBytes 0x27 (.lsfRegReg Ra Rb),
    fun L R => encodedAs_fieldBytes 0x26 (.lsfLitReg L R),
    fun Ra Rb => encodedAs_fieldBytes 0x2B (.rsfRegReg Ra Rb),
    fun L R => encodedAs_fieldBytes 0x2A (.rsfLitReg L R),
    fun Ra Rb s => onlyReg_of_exec_setReg (exec_lsfRegReg Ra Rb s) (toNat_aluShl _ _),
    fun L R s => onlyReg_of_exec_setReg (exec_lsfLitReg L R s) (toNat_aluShl _ _),
    fun Ra Rb s => onlyReg_of_exec_setReg (exec_rsfRegReg Ra Rb s) (toNat_aluShr _ _),
    fun L R s => onlyReg_of_exec_setReg (exec_rsfLitReg L R s) (toNat_aluShr _ _)⟩

/-! ### Ordered jumps -/

theorem ite_condLt (v a x y : Word) : (if condLt v a then x else y) = if v.toNat < a.toNat then x else y := by
  simp only [condLt, decide_eq_true_eq]

theorem ite_condGt (v a x y : Word) : (if condGt v a then x else y) = if v.toNat > a.toNat then x else y := by
  simp only [condGt, decide_eq_true_eq, gt_iff_lt]

theorem ite_condLe (v a x y : Word) : (if condLe v a then x else y) = if v.toNat ≤ a.toNat then x else y := by
  simp only [condLe, decide_eq_true_eq]

theorem ite_condGe (v a x y : Word) : (if condGe v a then x else y) = if v.toNat ≥ a.toNat then x else y := by
  simp only [condGe, decide_eq_true_eq, ge_iff_le]

theorem exec_jltReg (R : Reg) (A : Word) (s : State) :
    exec (.jltReg R A) s = .next (jumpIf (condLt (s.reg R) (s.reg .acc)) A s) := rfl

theorem exec_jltLit (L A : Word) (s : State) :
    exec (.jltLit L A) s = .next (jumpIf (condLt L (s.reg .acc)) A s) := rfl

theorem exec_jgtReg (R : Reg) (A : Word) (s : State) :
    exec (.jgtReg R A) s = .next (jumpIf (condGt (s.reg R) (s.reg .acc)) A s) := rfl

theorem exec_jgtLit (L A : Word) (s : State) :
    exec (.jgtLit L A) s = .next (jumpIf (condGt L (s.reg .acc)) A s) := rfl

theorem exec_jleReg (R : Reg) (A : Word) (s : State) :
    exec (.jleReg R A) s = .next (jumpIf (condLe (s.reg R) (s.reg .acc)) A s) := rfl

theorem exec_jleLit (L A : Word) (s : State) :
    exec (.jleLit L A) s = .next (jumpIf (condLe L (s.reg .acc)) A s) := rfl

theorem exec_jgeReg (R : Reg) (A : Word) (s : State) :
    exec (.jgeReg R A) s = .next (jumpIf (condGe (s.reg R) (s.reg .acc)) A s) := rfl

theorem exec_jgeLit (L A : Word) (s : State) :
    exec (.jgeLit L A) s = .next (jumpIf (condGe L (s.reg .acc)) A s) := rfl

/-- Settles O30: all eight are `jump_if` on an unsigned comparison of their operand with `acc`. -/
theorem jumpsOnOrder : Obligations.JumpsOnOrder :=
  ⟨fun R A => encodedAs_fieldBytes 0x42 (.jltReg R A),
    fun L A => encodedAs_fieldBytes 0x43 (.jltLit L A),
    fun R A => encodedAs_fieldBytes 0x44 (.jgtReg R A),
    fun L A => encodedAs_fieldBytes 0x45 (.jgtLit L A),
    fun R A => encodedAs_fieldBytes 0x46 (.jleReg R A),
    fun L A => encodedAs_fieldBytes 0x47 (.jleLit L A),
    fun R A => encodedAs_fieldBytes 0x48 (.jgeReg R A),
    fun L A => encodedAs_fieldBytes 0x49 (.jgeLit L A),
    fun R A s => onlyReg_of_exec_jumpIf (exec_jltReg R A s) (ite_condLt _ _ _ _),
    fun L A s => onlyReg_of_exec_jumpIf (exec_jltLit L A s) (ite_condLt _ _ _ _),
    fun R A s => onlyReg_of_exec_jumpIf (exec_jgtReg R A s) (ite_condGt _ _ _ _),
    fun L A s => onlyReg_of_exec_jumpIf (exec_jgtLit L A s) (ite_condGt _ _ _ _),
    fun R A s => onlyReg_of_exec_jumpIf (exec_jleReg R A s) (ite_condLe _ _ _ _),
    fun L A s => onlyReg_of_exec_jumpIf (exec_jleLit L A s) (ite_condLe _ _ _ _),
    fun R A s => onlyReg_of_exec_jumpIf (exec_jgeReg R A s) (ite_condGe _ _ _ _),
    fun L A s => onlyReg_of_exec_jumpIf (exec_jgeLit L A s) (ite_condGe _ _ _ _)⟩

end Sys2Proof.Machine
end

section
/-! Push and pop as instructions (spec/44_stack_call.md R200, R201, R204 to R206). -/

namespace Sys2Proof.Machine

theorem deviceByte_congr {s t : State} (hd : t.devices = s.devices) (d k L : Nat) :
    deviceByte t d k L = deviceByte s d k L := by
  simp only [deviceByte, hd]

theorem peripheralEvents_congr {s t : State} (hd : t.devices = s.devices) (d : Nat) :
    peripheralEvents t d = peripheralEvents s d := by
  simp only [peripheralEvents, hd]

/-- What a store left in memory is there in every state with the same devices, parameters and `mb`. -/
theorem memStored_congr {s t u : State} {A v : Word} (h : MemStored s t A v) (hp : u.params = t.params)
    (hd : u.devices = t.devices) (hm : u.reg .mb = t.reg .mb) : MemStored s u A v := by
  obtain ⟨hword, hbytes, hevents⟩ := h
  exact ⟨(peekWord_congr hp hd hm A).trans hword,
    fun d k L hout => (deviceByte_congr hd d k L).trans (hbytes d k L hout),
    fun d => (peripheralEvents_congr hd d).trans (hevents d)⟩

/-- From `s` to `t` the word `v` was pushed: it is at the old `sp`, `sp` and `fsize` moved, and nothing else changed. -/
def OnlyPushed (s t : State) (v : Word) : Prop :=
  MemStored s t (s.reg .sp) v ∧ (∀ r, t.reg r = if r = .sp then s.reg .sp - 2 else s.reg r) ∧
    t.fsize = s.fsize + 2 ∧ t.inHandler = s.inHandler ∧ t.status = s.status ∧ t.draws = s.draws ∧ t.params = s.params

theorem push_of_wordServed {s : State} (v : Word) (hwf : stateWf s = true)
    (hserved : wordServed s (s.reg .sp) = true) : ∃ t, push v s = .ok t ∧ OnlyPushed s t v := by
  obtain ⟨ds, hpush, hstored⟩ := push_stored v hwf hserved
  obtain ⟨hreg, hfsize, hflag, hstatus⟩ := push_frame hpush
  exact ⟨_, hpush, memStored_congr hstored rfl rfl rfl, hreg, hfsize, hflag, hstatus, rfl, rfl⟩

theorem exec_pshLit (L : Word) (s : State) : exec (.pshLit L) s = conclude .pshLit s (push L s) := rfl

theorem exec_pshReg (R : Reg) (s : State) : exec (.pshReg R) s = conclude .pshReg s (push (s.reg R) s) := rfl

theorem exec_popReg (R : Reg) (s : State) : exec (.popReg R) s = conclude .popReg s (popReg R s) := rfl

/-- Settles O38: both forms are one push, of a value read before `sp` moves. -/
theorem pushStoresAtTheStackPointer : Obligations.PushStoresAtTheStackPointer := by
  refine ⟨fun L => encodedAs_fieldBytes 0x17 (.pshLit L), fun R => encodedAs_fieldBytes 0x18 (.pshReg R),
    fun s hwf hserved => ⟨fun L => ?lit, fun R => ?reg⟩⟩
  case lit =>
    obtain ⟨t, hpush, hpushed⟩ := push_of_wordServed L hwf hserved
    exact ⟨t, conclude_of_ok _ s hpush, hpushed⟩
  case reg =>
    obtain ⟨t, hpush, hpushed⟩ := push_of_wordServed (s.reg R) hwf hserved
    exact ⟨t, conclude_of_ok _ s hpush, hpushed⟩

/-- From `s` to `t` the word `v` was popped into `R`, which gets it even if it is `sp`; nothing else changed. -/
def OnlyPopped (s t : State) (R : Reg) (v : Word) : Prop :=
  (∀ r, t.reg r = if r = R then v else if r = .sp then s.reg .sp + 2 else s.reg r) ∧ t.fsize = s.fsize - 2 ∧
    t.inHandler = s.inHandler ∧ t.status = s.status ∧ t.devices = s.devices ∧ t.draws = s.draws ∧ t.params = s.params

theorem popReg_of_peekWord {s : State} (R : Reg) {v : Word} (h : peekWord s (s.reg .sp + 2) = some v) :
    ∃ t, popReg R s = .ok t ∧ OnlyPopped s t R v := by
  have hpop := pop_of_peekWord h
  obtain ⟨hreg, hfsize, hflag, hstatus, hdevices⟩ := pop_frame hpop
  have hpopReg : popReg R s = .ok (((s.setReg .sp (s.reg .sp + 2)).setFsize (s.fsize - 2)).setReg R v) := by
    simp only [popReg, hpop]
  refine ⟨_, hpopReg, fun r => ?_, hfsize, hflag, hstatus, hdevices, rfl, rfl⟩
  rw [State.reg_setReg, hreg]

/-- Settles O39: `pop R` is one pop and one write of `R`, in that order. -/
theorem popLoadsAboveTheStackPointer : Obligations.PopLoadsAboveTheStackPointer := by
  refine ⟨fun R => encodedAs_fieldBytes 0x1A (.popReg R), fun s R v h => ?_⟩
  obtain ⟨t, hpop, hpopped⟩ := popReg_of_peekWord R h
  exact ⟨t, conclude_of_ok _ s hpop, hpopped⟩

theorem conclude_push_of_refused {s : State} {v : Word} {e : MemError} (o : Op)
    (h : memWrite .word (s.reg .sp) v s = .error e) :
    conclude o s (push v s) = .fault (.memoryFault (opcodeAddr o s) (s.reg .sp) .word .write) := by
  obtain rfl := memWrite_error h
  simp only [push, h, conclude, memFault]

theorem conclude_popReg_of_refused {s : State} {e : MemError} (o : Op) (R : Reg)
    (h : memRead .word (s.reg .sp + 2) s = .error e) :
    conclude o s (popReg R s) = .fault (.memoryFault (opcodeAddr o s) (s.reg .sp + 2) .word .read) := by
  obtain rfl := memRead_error h
  simp only [popReg, pop, h, conclude, memFault]

/-- Settles O40: the refused access is the only one, at the slot of the push or of the pop. -/
theorem refusedStackAccessFaults : Obligations.RefusedStackAccessFaults := by
  refine ⟨fun s L e h => ?lit, fun s R e h => ?reg, fun s R e h => ?pop⟩
  case lit => rw [exec_pshLit, conclude_push_of_refused _ h]; rfl
  case reg => rw [exec_pshReg, conclude_push_of_refused _ h]; rfl
  case pop => rw [exec_popReg, conclude_popReg_of_refused _ R h]; rfl

/-- A pop after a served push takes back what was pushed, and `sp` and `fsize` with it. -/
theorem popReg_of_push {s t : State} {v : Word} (R : Reg) (hwf : stateWf s = true)
    (hserved : wordServed s (s.reg .sp) = true) (h : push v s = .ok t) :
    ∃ u, popReg R t = .ok u ∧ (∀ r, u.reg r = if r = R then v else s.reg r) ∧ u.fsize = s.fsize := by
  obtain ⟨t', hpush, ⟨hword, -, -⟩, hreg, hfsize, -⟩ := push_of_wordServed v hwf hserved
  cases h.symm.trans hpush
  have hsp : t.reg .sp + 2 = s.reg .sp := by rw [hreg, if_pos rfl, BitVec.sub_add_cancel]
  obtain ⟨u, hpop, hreg', hfsize', -⟩ := popReg_of_peekWord R (hsp ▸ hword)
  refine ⟨u, hpop, fun r => ?_, by rw [hfsize', hfsize, BitVec.add_sub_cancel]⟩
  rw [hreg', hsp, hreg]
  split
  · rfl
  · split
    · rename_i hr; rw [hr]
    · rfl

/-- Settles O41: both forms push, and the pop undoes the push. -/
theorem popReturnsTheLastPush : Obligations.PopReturnsTheLastPush := by
  refine fun s t R hwf hserved => ⟨fun L h => ?lit, fun Q h => ?reg⟩
  case lit =>
    obtain ⟨u, hpop, hleft⟩ := popReg_of_push R hwf hserved (conclude_next h)
    exact ⟨u, conclude_of_ok _ t hpop, hleft⟩
  case reg =>
    obtain ⟨u, hpop, hleft⟩ := popReg_of_push R hwf hserved (conclude_next h)
    exact ⟨u, conclude_of_ok _ t hpop, hleft⟩

end Sys2Proof.Machine
end

section
/-! The save of a frame by a call and by interrupt entry (spec/44_stack_call.md R202, R207, R208;
spec/60_exceptions.md R249): both push a list of words and then open an empty frame on them. -/

namespace Sys2Proof.Machine

/-- An empty frame on top of what was pushed (R202). -/
def openFrame (s : State) : State := (s.setReg .fp (s.reg .sp)).setFsize 0

/-- The words interrupt entry pushes outside a handler: the zero argument count and the frame words, whose saved size
counts it (R249). -/
def trapWords (s : State) : List Word := 0 :: (savedRegs.map s.reg ++ [s.fsize + 22])

theorem saveForInterrupt_of_inHandler {s : State} (h : s.inHandler = true) : saveForInterrupt s = .ok s := by
  simp only [saveForInterrupt, h]

theorem frameWords_of_push {v : Word} {s t : State} (h : push v s = .ok t) :
    frameWords t = savedRegs.map s.reg ++ [s.fsize + 22] := by
  obtain ⟨hreg, hfsize, -, -⟩ := push_frame h
  have hmap : savedRegs.map t.reg = savedRegs.map s.reg := by
    refine List.map_congr_left fun r hr => ?_
    have hne : r ≠ .sp := by rintro rfl; exact absurd hr (by decide)
    rw [hreg, if_neg hne]
  have hsize : s.fsize + 2 + 20 = s.fsize + 22 := BitVec.add_assoc _ 2 20
  rw [frameWords, hmap, hfsize, hsize]

theorem saveForInterrupt_of_not_inHandler {s : State} (h : s.inHandler = false) :
    saveForInterrupt s = (pushWords (trapWords s) s).map openFrame := by
  simp only [saveForInterrupt, h, trapWords, pushWords]
  cases hpush : push 0 s with
  | error e => rfl
  | ok t =>
    simp only [pushState_eq, frameWords_of_push hpush]
    cases pushWords (savedRegs.map s.reg ++ [s.fsize + 22]) t <;> rfl

theorem pushState_eq_map (s : State) : pushState s = (pushWords (frameWords s) s).map openFrame := by
  rw [pushState_eq]
  cases pushWords (frameWords s) s <;> rfl

/-- From `s` to `t` a frame of `n` words was saved: `sp` and `fp` lie below it, it is counted from 0, and nothing else
changed outside its slots. -/
structure FrameSaved (s t : State) (n : Nat) : Prop where
  reg       : ∀ r, t.reg r = if r = .sp ∨ r = .fp then s.reg .sp - BitVec.ofNat 16 (2 * n) else s.reg r
  fsize     : t.fsize = 0
  inHandler : t.inHandler = s.inHandler
  status    : t.status = s.status
  draws     : t.draws = s.draws
  params    : t.params = s.params
  events    : ∀ d, peripheralEvents t d = peripheralEvents s d
  bytes     : ∀ d k L, OutsideSlots s (s.reg .sp) n d k L → deviceByte t d k L = deviceByte s d k L

theorem reg_openFrame (s : State) (r : Reg) : (openFrame s).reg r = if r = .fp then s.reg .sp else s.reg r := by
  rw [openFrame, State.reg_setFsize, State.reg_setReg]

/-- Pushing words onto served slots and opening a frame saves a frame of that many words. -/
theorem frameSaved_of_served {s : State} (ws : List Word) (hwf : stateWf s = true)
    (hserved : slotsServed s (s.reg .sp) ws.length) :
    ∃ t, (pushWords ws s).map openFrame = .ok t ∧ FrameSaved s t ws.length := by
  obtain ⟨t, hpush, hdraws, hevents, hbytes⟩ := pushWords_of_served hwf hserved
  obtain ⟨hreg, hsp, -, hflag, hstatus⟩ := pushWords_frame hpush
  refine ⟨openFrame t, by rw [hpush]; rfl, fun r => ?_, rfl, hflag, hstatus, hdraws, (pushWords_keeps hpush).params,
    hevents, hbytes⟩
  rw [reg_openFrame]
  by_cases hfp : r = .fp
  · rw [if_pos hfp, if_pos (.inr hfp), hsp]
  · by_cases hr : r = .sp
    · rw [if_neg hfp, if_pos (.inl hr), hr, hsp]
    · rw [if_neg hfp, if_neg (not_or.mpr ⟨hr, hfp⟩), hreg r hr]

/-! ### Call -/

/-- A call whose ten slots are served completes, and changes what its statement names (R202, R207). -/
theorem callTo_of_served {s : State} (A : Word) (hwf : stateWf s = true) (hserved : slotsServed s (s.reg .sp) 10) :
    ∃ t, callTo A s = .ok t ∧
      (∀ r, t.reg r = if r = .ip then A else if r = .sp ∨ r = .fp then s.reg .sp - 20 else s.reg r) ∧
      t.fsize = 0 ∧ t.inHandler = s.inHandler ∧ t.status = s.status ∧ t.draws = s.draws ∧ t.params = s.params ∧
      (∀ d, peripheralEvents t d = peripheralEvents s d) ∧
      ∀ d k L, OutsideSlots s (s.reg .sp) 10 d k L → deviceByte t d k L = deviceByte s d k L := by
  obtain ⟨t, hpush, hsaved⟩ := frameSaved_of_served (frameWords s) hwf hserved
  rw [← pushState_eq_map] at hpush
  refine ⟨t.setReg .ip A, by simp only [callTo, hpush], fun r => ?_, hsaved.fsize, hsaved.inHandler, hsaved.status,
    hsaved.draws, hsaved.params, hsaved.events, hsaved.bytes⟩
  rw [State.reg_setReg, hsaved.reg]
  rfl

/-- Settles O42: both forms enter the subroutine at a target known before the save. -/
theorem callEntersTheSubroutine : Obligations.CallEntersTheSubroutine := by
  refine ⟨fun L => encodedAs_fieldBytes 0x5E (.calLit L), fun R => encodedAs_fieldBytes 0x5F (.calReg R),
    fun s hwf hserved => ⟨fun L => ?lit, fun R => ?reg⟩⟩
  case lit =>
    obtain ⟨t, hcall, hleft⟩ := callTo_of_served L hwf hserved
    exact ⟨t, conclude_of_ok _ s hcall, hleft⟩
  case reg =>
    obtain ⟨t, hcall, hleft⟩ := callTo_of_served (s.reg R) hwf hserved
    exact ⟨t, conclude_of_ok _ s hcall, hleft⟩

end Sys2Proof.Machine
end

section
/-! Interrupts and `hlt` (spec/45_system.md R230, R231; spec/60_exceptions.md R246 to R249). -/

namespace Sys2Proof.Machine

/-- Settles O47: `hlt` is one write of the status. -/
theorem haltOnlySetsTheStatus : Obligations.HaltOnlySetsTheStatus :=
  ⟨encodedAs_fieldBytes 0xFF .hlt,
    fun s => ⟨s.setStatus .halted, rfl, rfl, fun _ => rfl, rfl, rfl, rfl, rfl, rfl⟩⟩

/-- Settles O48: the masked case of the instruction's equation. -/
theorem maskedInterruptIsDropped : Obligations.MaskedInterruptIsDropped := by
  intro s L hmask
  rw [exec_intLit, hmask, if_neg Bool.false_ne_true]

theorem exec_intLit_of_enabled {s : State} {L : Word} (h : (s.reg .im).getLsbD (L.toNat % 16) = true) :
    exec (.intLit L) s = conclude .intLit s (takeInterrupt (L.toNat % 16) s) := by
  rw [exec_intLit, if_pos h]

/-- Settles O49: the literal enters the instruction only through its value modulo 16. -/
theorem interruptNumberIsTheLowFourBits : Obligations.InterruptNumberIsTheLowFourBits := by
  refine ⟨interruptNumber_eq, fun s n => rfl, fun s n => ?_, exec_intLit, fun s L M h => ?_⟩
  · rw [vectorAddr, BitVec.toNat_add, BitVec.toNat_ofNat]
    omega
  · rw [exec_intLit, exec_intLit, h]

/-- An interrupt whose vector is served and whose state save completes is taken. -/
theorem takeInterrupt_of_saved {n : Nat} {s t : State} {v : Word} (hvector : peekWord s (vectorAddr n s) = some v)
    (hsave : saveForInterrupt s = .ok t) : takeInterrupt n s = .ok ((t.setInHandler true).setReg .ip v) := by
  simp only [takeInterrupt, memRead_word_of_peekWord hvector, hsave]

/-- Settles O50: the frame is that of a call with a zero argument count above it. -/
theorem interruptEntry : Obligations.InterruptEntry := by
  refine ⟨fun L => encodedAs_fieldBytes 0xFD (.intLit L), fun s L v hwf hflag hmask hvector hserved => ?_⟩
  obtain ⟨t, hpush, hsaved⟩ := frameSaved_of_served (trapWords s) hwf hserved
  rw [← saveForInterrupt_of_not_inHandler hflag] at hpush
  refine ⟨(t.setInHandler true).setReg .ip v, ?_, fun r => ?_, hsaved.fsize, rfl, hsaved.status, hsaved.draws,
    hsaved.params, hsaved.events, hsaved.bytes⟩
  · rw [exec_intLit_of_enabled hmask]
    exact conclude_of_ok _ s (takeInterrupt_of_saved hvector hpush)
  · rw [State.reg_setReg, State.reg_setInHandler, hsaved.reg]
    rfl

/-- Settles O52: inside a handler there is no state save, and the flag is set already. -/
theorem nestedInterruptOnlyJumps : Obligations.NestedInterruptOnlyJumps := by
  intro s L v hflag hmask hvector
  refine ⟨(s.setInHandler true).setReg .ip v, ?_, fun r => ?_, rfl, hflag.symm, rfl, rfl, rfl, rfl⟩
  · rw [exec_intLit_of_enabled hmask]
    exact conclude_of_ok _ s (takeInterrupt_of_saved hvector (saveForInterrupt_of_inHandler hflag))
  · rw [State.reg_setReg, State.reg_setInHandler]

/-- Settles O53: the vector is read before the state save, so the instruction ends with that read's error. -/
theorem refusedVectorReadFaults : Obligations.RefusedVectorReadFaults := by
  intro s L e hmask hread
  obtain rfl := memRead_error hread
  have htake : takeInterrupt (L.toNat % 16) s = .error ⟨vectorAddr (L.toNat % 16) s, .word, .read⟩ := by
    simp only [takeInterrupt, vectorAddr, hread]
  rw [exec_intLit_of_enabled hmask, htake]
  rfl

end Sys2Proof.Machine
end

section
/-! The frame in memory on the default platform and the return from it (spec/44_stack_call.md R202, R203, R211;
spec/60_exceptions.md R249, R251). -/

namespace Sys2Proof.Machine

/-! ### What a saved frame holds -/

theorem flat_pushed_word {s t : State} {ws : List Word} (hflat : Flat s) (hwf : stateWf s = true)
    (hlen : ws.length ≤ 32767) (h : pushWords ws s = .ok t) {k : Nat} {v : Word} (hk : ws.reverse[k]? = some v) :
    peekWord t (t.reg .sp + 2 + BitVec.ofNat 16 (2 * k)) = some v := by
  obtain ⟨-, hword, -⟩ := flat_pushWords hflat hwf hlen h
  obtain ⟨-, hsp, -⟩ := pushWords_frame h
  obtain ⟨hlt, hv⟩ := List.getElem?_eq_some_iff.mp hk
  rw [List.length_reverse] at hlt
  rw [List.getElem_reverse] at hv
  have haddr : t.reg .sp + 2 + BitVec.ofNat 16 (2 * k) =
      s.reg .sp - BitVec.ofNat 16 (2 * (ws.length - 1 - k)) := by
    have hsum : 2 * ws.length = 2 * (ws.length - 1 - k) + 2 * k + 2 := by omega
    rw [hsp, hsum, BitVec.ofNat_add, BitVec.ofNat_add]
    grind
  rw [haddr, hword _ (by omega), hv]

theorem flat_pushed_byte {s t : State} {ws : List Word} (hflat : Flat s) (hwf : stateWf s = true)
    (hlen : ws.length ≤ 32767) (h : pushWords ws s = .ok t) {B : Word}
    (hB : (B - (t.reg .sp + 2)).toNat ≥ 2 * ws.length) : peek t B = peek s B := by
  obtain ⟨-, -, hbyte⟩ := flat_pushWords hflat hwf hlen h
  obtain ⟨-, hsp, -⟩ := pushWords_frame h
  apply hbyte
  have hoffset : B - (t.reg .sp + 2) = BitVec.ofNat 16 (2 * ws.length) - 1 - (s.reg .sp + 1 - B) := by
    rw [hsp]
    grind
  have hone : (1 : Word).toNat = 1 := rfl
  rw [hoffset] at hB
  generalize s.reg .sp + 1 - B = below at hB ⊢
  have hlt := below.isLt
  rw [BitVec.toNat_sub, BitVec.toNat_sub, BitVec.toNat_ofNat, hone] at hB
  omega

/-- On the default platform `ws` are the words of the frame above the `fp` of `t`, the last one lowest, and memory
outside them is that of `s`. -/
structure FlatFrame (s t : State) (ws : List Word) : Prop where
  flat : Flat t
  fp   : t.reg .fp = s.reg .sp - BitVec.ofNat 16 (2 * ws.length)
  word : ∀ {k v}, ws.reverse[k]? = some v → peekWord t (t.reg .fp + 2 + BitVec.ofNat 16 (2 * k)) = some v
  byte : ∀ {B : Word}, (B - (t.reg .fp + 2)).toNat ≥ 2 * ws.length → peek t B = peek s B

/-- A frame opened on pushed words holds them, whatever is then done to registers other than `fp` and `mb`. -/
theorem flatFrame_of_pushWords {s t u : State} {ws : List Word} (hflat : Flat s) (hwf : stateWf s = true)
    (hlen : ws.length ≤ 32767) (h : pushWords ws s = .ok t) (hp : u.params = t.params) (hd : u.devices = t.devices)
    (hm : u.reg .mb = t.reg .mb) (hfp : u.reg .fp = t.reg .sp) : FlatFrame s u ws where
  flat := by
    obtain ⟨⟨hregions, m, hdevices⟩, -⟩ := flat_pushWords hflat hwf hlen h
    exact ⟨hp ▸ hregions, m, hd ▸ hdevices⟩
  fp := by
    obtain ⟨-, hsp, -⟩ := pushWords_frame h
    rw [hfp, hsp]
  word hk := by rw [hfp, peekWord_congr hp hd hm, flat_pushed_word hflat hwf hlen h hk]
  byte hB := by rw [peek_congr hp hd hm, flat_pushed_byte hflat hwf hlen h (hfp ▸ hB)]

theorem FlatFrame.wordAt {s t : State} {ws : List Word} (h : FlatFrame s t ws) (k : Nat) {v offset : Word}
    (hk : ws.reverse[k]? = some v) (hoffset : offset = 2 + BitVec.ofNat 16 (2 * k)) :
    peekWord t (t.reg .fp + offset) = some v := by
  rw [hoffset, ← BitVec.add_assoc]
  exact h.word hk

theorem map_openFrame_ok {x : Except MemError State} {t : State} (h : x.map openFrame = .ok t) :
    ∃ u, x = .ok u ∧ t = openFrame u := by
  cases x with
  | error e => cases h
  | ok u => cases h; exact ⟨u, rfl, rfl⟩

theorem flatFrame_callTo {s t : State} {A : Word} (hflat : Flat s) (hwf : stateWf s = true)
    (h : callTo A s = .ok t) : FlatFrame s t (frameWords s) := by
  obtain ⟨u, hsave, rfl⟩ := callTo_ok h
  rw [pushState_eq_map] at hsave
  obtain ⟨x, hpush, rfl⟩ := map_openFrame_ok hsave
  have hlen : (frameWords s).length ≤ 32767 := Nat.le_of_ble_eq_true rfl
  exact flatFrame_of_pushWords hflat hwf hlen hpush rfl rfl rfl rfl

theorem flatFrame_takeInterrupt {s t : State} {n : Nat} (hflat : Flat s) (hwf : stateWf s = true)
    (hflag : s.inHandler = false) (h : takeInterrupt n s = .ok t) : FlatFrame s t (trapWords s) := by
  obtain ⟨v, u, w, hread, hsave, rfl⟩ := takeInterrupt_ok h
  obtain ⟨m, rfl⟩ := memRead_ok hread
  rw [saveForInterrupt_of_not_inHandler (s := s.setDraws m) hflag] at hsave
  obtain ⟨x, hpush, rfl⟩ := map_openFrame_ok hsave
  have hlen : (trapWords s).length ≤ 32767 := Nat.le_of_ble_eq_true rfl
  obtain ⟨hflat', hfp, hword, hbyte⟩ := flatFrame_of_pushWords (s := s.setDraws m)
    (u := ((openFrame x).setInHandler true).setReg .ip v) hflat hwf hlen hpush rfl rfl rfl rfl
  exact ⟨hflat', hfp, hword, hbyte⟩

/-! ### The layout of the frames (R211) -/

/-- An instruction that calls ends as a call to some target. -/
theorem callTo_of_exec {i : Instr} {s t : State} (hi : (∃ L, i = .calLit L) ∨ (∃ R, i = .calReg R))
    (h : exec i s = .next t) : ∃ A, callTo A s = .ok t := by
  rcases hi with ⟨L, rfl⟩ | ⟨R, rfl⟩
  · exact ⟨L, conclude_next h⟩
  · exact ⟨s.reg R, conclude_next h⟩

/-- Settles O43: the frame words of a call in reverse push order; in a step, `ip` is past the instruction when it is
pushed. -/
theorem callFrameLayout : Obligations.CallFrameLayout := by
  refine ⟨fun s i t hi hflat hwf _ h => ?layout, fun s L bs t hflat hwf hrun hdecode hcode h => ?lit,
    fun s R bs t hflat hwf hrun hdecode hcode h => ?reg⟩
  case layout =>
    obtain ⟨A, hcall⟩ := callTo_of_exec hi h
    have hframe := flatFrame_callTo hflat hwf hcall
    exact ⟨hframe.wordAt 0 rfl rfl, hframe.wordAt 1 rfl rfl, hframe.wordAt 2 rfl rfl, hframe.wordAt 3 rfl rfl,
      hframe.wordAt 4 rfl rfl, hframe.wordAt 5 rfl rfl, hframe.wordAt 6 rfl rfl, hframe.wordAt 7 rfl rfl,
      hframe.wordAt 8 rfl rfl, hframe.wordAt 9 rfl rfl, fun B hB => hframe.byte hB⟩
  case lit =>
    rw [stepRunsTheDecodedInstruction s _ bs hrun hdecode hcode] at h
    exact (flatFrame_callTo (s := s.setReg .ip (s.reg .ip + 3)) hflat hwf (conclude_next h)).wordAt 1 rfl rfl
  case reg =>
    rw [stepRunsTheDecodedInstruction s _ bs hrun hdecode hcode] at h
    exact (flatFrame_callTo (s := s.setReg .ip (s.reg .ip + 2)) hflat hwf (conclude_next h)).wordAt 1 rfl rfl

/-- Settles O51: the frame words of a call with the argument count 0 pushed before them. -/
theorem interruptFrameLayout : Obligations.InterruptFrameLayout := by
  intro s L t hflat hwf hflag hmask _ h
  rw [exec_intLit_of_enabled hmask] at h
  have hframe := flatFrame_takeInterrupt hflat hwf hflag (conclude_next h)
  exact ⟨hframe.wordAt 0 rfl rfl, hframe.wordAt 1 rfl rfl, hframe.wordAt 2 rfl rfl, hframe.wordAt 3 rfl rfl,
    hframe.wordAt 4 rfl rfl, hframe.wordAt 5 rfl rfl, hframe.wordAt 6 rfl rfl, hframe.wordAt 7 rfl rfl,
    hframe.wordAt 8 rfl rfl, hframe.wordAt 9 rfl rfl, hframe.wordAt 10 rfl rfl, fun B hB => hframe.byte hB⟩

/-! ### Return (R203, R209, R232) -/

/-- Settles O44: PopState of the frame's words; `rti` clears the flag before it. -/
theorem returnRestoresTheFrame : Obligations.ReturnRestoresTheFrame := by
  refine ⟨encodedAs_fieldBytes 0x60 .ret, encodedAs_fieldBytes 0xFC .rti, fun s w hwords i hi => ?_⟩
  have hframe : ∀ k < 11, peekWord s (s.reg .fp + 2 + BitVec.ofNat 16 (2 * k)) = some (w k) :=
    fun k hk => hwords k (by omega)
  have harguments : ∀ k < (w 10).toNat, wordServed s (s.reg .fp + 24 + BitVec.ofNat 16 (2 * k)) = true := by
    intro k hk
    have hword := hwords (11 + k) (by omega)
    rw [Nat.mul_add, BitVec.ofNat_add, ← BitVec.add_assoc, BitVec.add_assoc (s.reg .fp)] at hword
    exact Option.isSome_iff_exists.mpr ⟨_, hword⟩
  rcases hi with rfl | rfl
  · obtain ⟨t, hpop, hrestored⟩ := popState_of_words hframe harguments
    exact ⟨t, conclude_of_ok _ s hpop, hrestored⟩
  · obtain ⟨t, hpop, hrestored⟩ := popState_of_words (s := s.setInHandler false) hframe harguments
    exact ⟨t, conclude_of_ok _ s hpop, hrestored⟩

/-- What PopState makes of the saved size: `fp` less what was pushed, plus the size that counts it, is the old `fp`. -/
theorem saved_fp (sp fp pushed : Word) : sp - pushed + (fp - sp + pushed) = fp := by grind

/-- The eleven words a return reads after a call: the frame words and the argument count under them. -/
def callFrame (s : State) (n : Word) (k : Nat) : Word := ((frameWords s).reverse ++ [n]).getD k 0

/-- The word above a call's frame, the argument count, is what it was before the call. -/
theorem FlatFrame.count {s t : State} (h : FlatFrame s t (frameWords s)) (hflat : Flat s) :
    peekWord t (t.reg .fp + 2 + BitVec.ofNat 16 (2 * 10)) = peekWord s (s.reg .sp + 2) := by
  have haddr : t.reg .fp + 2 + BitVec.ofNat 16 (2 * 10) = s.reg .sp + 2 := by
    rw [h.fp, show (frameWords s).length = 10 from rfl]
    grind
  have hbyte : ∀ {c : Word}, c.toNat ≥ 20 → peek t (t.reg .fp + 2 + c) = peek s (t.reg .fp + 2 + c) := by
    intro c hc
    apply h.byte
    rwa [BitVec.add_comm, BitVec.add_sub_cancel]
  have hhi := hbyte (c := 20) (by decide)
  have hlo := hbyte (c := 21) (by decide)
  rw [← haddr]
  exact flat_peekWord_congr hflat h.flat hhi (by rw [BitVec.add_assoc (t.reg .fp + 2)]; exact hlo)

theorem FlatFrame.callFrame {s t : State} {n : Word} (h : FlatFrame s t (frameWords s)) (hflat : Flat s)
    (hcount : peekWord s (s.reg .sp + 2) = some n) :
    ∀ k < 11, peekWord t (t.reg .fp + 2 + BitVec.ofNat 16 (2 * k)) = some (callFrame s n k) := by
  intro k hk
  have hlen : (frameWords s).reverse.length = 10 := rfl
  by_cases hk10 : k = 10
  · subst hk10
    rw [h.count hflat, hcount]
    rfl
  · apply h.word
    have hlt : k < (frameWords s).reverse.length := by omega
    rw [Machine.callFrame, List.getD_eq_getElem?_getD, List.getElem?_append_left hlt, List.getElem?_eq_getElem hlt,
      Option.getD_some]

/-- Settles O45: the eleven words the return reads are those the call pushed and the count above them. -/
theorem returnUndoesTheCall : Obligations.ReturnUndoesTheCall := by
  intro s t u i n hi hflat hwf hinv _ hcount harguments hcall hflat' hfp hkept
  obtain ⟨A, hcall⟩ := callTo_of_exec hi hcall
  have hframe := flatFrame_callTo hflat hwf hcall
  have hbase : u.reg .fp = s.reg .sp - 20 := by rw [hfp, hframe.fp]; rfl
  have hwords : ∀ k < 11, peekWord u (u.reg .fp + 2 + BitVec.ofNat 16 (2 * k)) = some (callFrame s n k) :=
    fun k hk => (hkept k hk).trans (hframe.callFrame hflat hcount k hk)
  have hserved : ∀ k < n.toNat, wordServed u (u.reg .fp + 24 + BitVec.ofNat 16 (2 * k)) = true := by
    intro k hk
    have haddr : u.reg .fp + 24 + BitVec.ofNat 16 (2 * k) = s.reg .sp + 4 + BitVec.ofNat 16 (2 * k) := by
      rw [hbase]
      grind
    rw [haddr, flat_wordServed hflat', ← flat_wordServed hflat]
    exact harguments k hk
  obtain ⟨v, hpop, hip, h8, h7, h6, h5, h4, h3, h2, h1, hsp, hvfp, hfsize, hacc, hmb, him, -⟩ :=
    popState_of_words hwords hserved
  have hten : callFrame s n 10 = n := rfl
  have hzero : callFrame s n 0 = s.fsize + 20 := rfl
  have hinv : s.reg .fp - s.reg .sp = s.fsize := hinv
  refine ⟨v, conclude_of_ok _ u hpop, ?_, ?_, ?_, ?_⟩
  · have hfp' : v.reg .fp = s.reg .fp := by rw [hvfp, hbase, hzero, ← hinv, saved_fp]
    simp only [List.forall_mem_cons, List.not_mem_nil, false_imp_iff, implies_true, and_true]
    exact ⟨hip, h1, h2, h3, h4, h5, h6, h7, h8, hfp'⟩
  · rw [hsp, hbase, hten]; grind
  · rw [hfsize, hzero, hten]; grind
  · simp only [List.forall_mem_cons, List.not_mem_nil, false_imp_iff, implies_true, and_true]
    exact ⟨hacc, hmb, him⟩

/-- Settles O54: the words `rti` reads are those the interrupt pushed, their argument count 0. -/
theorem returnFromInterruptUndoesTheEntry : Obligations.ReturnFromInterruptUndoesTheEntry := by
  intro s t L hflat hwf hinv hflag hmask _ h
  rw [exec_intLit_of_enabled hmask] at h
  have htake := conclude_next h
  have hframe := flatFrame_takeInterrupt hflat hwf hflag htake
  have hbase : t.reg .fp = s.reg .sp - 22 := hframe.fp
  have hwords : ∀ k < 11, peekWord t (t.reg .fp + 2 + BitVec.ofNat 16 (2 * k)) =
      some ((trapWords s).reverse.getD k 0) := by
    intro k hk
    have hlt : k < (trapWords s).reverse.length := hk
    apply hframe.word
    rw [List.getD_eq_getElem?_getD, List.getElem?_eq_getElem hlt, Option.getD_some]
  obtain ⟨u, hpop, hip, h8, h7, h6, h5, h4, h3, h2, h1, hsp, hfp, hfsize, hacc, hmb, him, hclear, hstatus, hdevices,
    hdraws, hparams⟩ := popState_of_words (s := t.setInHandler false)
      (w := fun k => (trapWords s).reverse.getD k 0) hwords (fun k hk => absurd hk (Nat.not_lt_zero k))
  have hten : (trapWords s).reverse.getD 10 0 = 0#16 := rfl
  have hzero : (trapWords s).reverse.getD 0 0 = s.fsize + 22 := rfl
  have hinv : s.reg .fp - s.reg .sp = s.fsize := hinv
  simp only [hten, hzero, hbase, State.reg_setInHandler, BitVec.toNat_ofNat, Nat.zero_mod, Nat.mul_zero]
    at hsp hfp hfsize
  refine ⟨u, conclude_of_ok _ t hpop, hip, Regs.ext_get fun r => ?registers, ?size, hclear,
    hstatus.trans (status_of_takeInterrupt (t := t) htake), fun B hB => ?memory⟩
  case registers =>
    cases r with
    | ip => exact hip
    | r1 => exact h1
    | r2 => exact h2
    | r3 => exact h3
    | r4 => exact h4
    | r5 => exact h5
    | r6 => exact h6
    | r7 => exact h7
    | r8 => exact h8
    | sp => exact hsp.trans ((BitVec.add_zero _).trans (BitVec.sub_add_cancel _ _))
    | fp => exact hfp.trans (hinv ▸ saved_fp _ _ _)
    | acc => exact hacc.trans (reg_of_takeInterrupt htake (by decide))
    | mb => exact hmb.trans (reg_of_takeInterrupt htake (by decide))
    | im => exact him.trans (reg_of_takeInterrupt htake (by decide))
  case size => rw [hfsize, BitVec.sub_zero, BitVec.add_sub_cancel]
  case memory =>
    have hbottom : t.reg .fp + 2 = s.reg .sp - 20 := by rw [hbase]; grind only
    exact (peek_congr (s := t) hparams hdevices hmb B).trans (hframe.byte (hbottom ▸ hB))

end Sys2Proof.Machine
end
